-- ==== Sys2Proof/Word.lean ====
section
/-! DEFINITION. The widths of the RBU's words (spec/00_scope.md R6, R7; spec/30_encoding.md R70, R73). -/

namespace Sys2Proof

/-- A command word, taken whole by the command port (30_encoding R70). -/
abbrev Command := BitVec 96

/-- One of the three parts W2, W1, W0 of a command word on a 32-bit path (30_encoding R70). -/
abbrev CommandPart := BitVec 32

/-- A response word (30_encoding R73). -/
abbrev Response := BitVec 64

/-- A sample address in RMEM or PMEM: ADDRW is 32 (00_scope R6). -/
abbrev Addr := BitVec 32

/-- A dimension, a stride, a partition size or a partition index: DIMW is 16 (00_scope R6). -/
abbrev Dim := BitVec 16

/-- A 16-bit sample cell: a residual sample is its two's complement reading (00_scope R7), a pixel
sample its unsigned reading, below 2^PIXW (20_memory R52). -/
abbrev Sample := BitVec 16

/-- A 4-bit context id, pixel-buffer id, selector or colour-space code (30_encoding R74). -/
abbrev Id := BitVec 4

/-- How many sample addresses each space has (20_memory R50). -/
abbrev spaceSize : Nat := 2 ^ 32

end Sys2Proof
end

