-- ==== Sys2Proof/Config.lean ====
section
/-! DEFINITION. The implementation parameters of spec/00_scope.md R5 to R12 as plain data, the reference
configuration, and the free values the spec leaves open (opaque constants: no value of theirs can be proved).
The parameters are log entries 1 and 2, the free values 6, 7, 8 and 23. -/

namespace Sys2Proof

/-- One row of the colour-space lookup CSPSHIFT (00_scope R9). -/
structure CspRow where
  hShift : BitVec 2
  vShift : BitVec 2
  /-- `chromaPresent`: false for monochrome, whose chroma planes are degenerate. -/
  chroma : Bool
deriving DecidableEq, Repr

/-- PARTMAP (00_scope R10), the OPEN pair of functions `rowOf`, `colOf`. -/
inductive PartMap where
  /-- The reference instance of 41_addressing R123, a raster over a grid `gridW` samples wide. -/
  | raster (gridW : Nat)
  /-- The `k`-th of the maps the spec leaves open: any total function of the index and the size
  (41_addressing R122), uninterpreted. -/
  | given (k : Nat)
deriving DecidableEq, Repr

/-- The static parameters, the same for the RBU, the kernel engine and the Pixel Buffer (70 R222). -/
structure Config where
  /-- NCTX (R5). -/
  nctx : Nat
  /-- PIXW (R8). -/
  pixw : Nat
  /-- BIT_DEPTH (R8). -/
  bitDepth : Nat
  /-- CSPSHIFT (R9), entry k for code k; codes past the list are undefined. -/
  csp : List (Option CspRow)
  /-- PARTMAP (R10). -/
  partMap : PartMap
deriving DecidableEq, Repr

namespace Config

/-- The reference table of CSPSHIFT: i400, i420, i422, i444 (00_scope R9). The 4:2:2 row and the code
numbers are the spec's own choice from general knowledge (log entry 20). -/
def referenceCsp : List (Option CspRow) :=
  [some ⟨0, 0, false⟩, some ⟨1, 1, true⟩, some ⟨1, 0, true⟩, some ⟨0, 0, true⟩]

/-- The reference configuration (00_scope R5, R8, R9, R10): NCTX 4, PIXW 8, BIT_DEPTH 8, GRID_W 64. -/
def reference : Config :=
  { nctx := 4, pixw := 8, bitDepth := 8, csp := referenceCsp, partMap := .raster 64 }

/-- `CSPSHIFT(code)`, a partial function (00_scope R9). -/
def cspShift (cfg : Config) (code : Id) : Option CspRow :=
  cfg.csp.getD code.toNat none

/-- The ranges the rules stay correct for (00_scope R5, R8; the grid width is not zero, 41_addressing R132). -/
structure Valid (cfg : Config) : Prop where
  nctx_pos : 1 ≤ cfg.nctx
  nctx_le : cfg.nctx ≤ 16
  pixw_ge : 8 ≤ cfg.pixw
  pixw_le : cfg.pixw ≤ 16
  depth_ge : 8 ≤ cfg.bitDepth
  depth_le : cfg.bitDepth ≤ cfg.pixw
  grid_pos : cfg.partMap ≠ .raster 0

/-- FREE: `rowOf(pidx, psize)` of the `k`-th open PARTMAP (41_addressing R122; log entry 2). -/
opaque givenRow : (k pidx psize : Nat) → Nat

/-- FREE: `colOf(pidx, psize)` of the `k`-th open PARTMAP (41_addressing R122; log entry 2). -/
opaque givenCol : (k pidx psize : Nat) → Nat

/-- FREE: what RMEM cell `a` reads as while nothing has written it, in epoch `epoch`
(93_implementation_defined U1; log entry 6). -/
opaque unwrittenResidual : (epoch a : Nat) → Sample

/-- FREE: what PMEM cell `a` reads as while nothing has written it, before its low PIXW bits are taken
(20_memory R55; log entry 6). -/
opaque unwrittenPixel : (epoch a : Nat) → Sample

/-- FREE: what kernel run `draw` stores at RMEM address `a` where the exact result is no wide sample
(93_implementation_defined U2; log entry 7). An add kernel's is not negative (43_addclip R154). -/
opaque unfitSample : (draw a : Nat) → Sample

/-- FREE: which of the samples that go to PMEM cell `a` kernel run `draw` visits last, where the rows of a copy's
destination overlap: the order of visits is the kernel's own (45_external_interfaces R188; log entry 23). -/
opaque lastVisit : (draw a : Nat) → Nat

/-- FREE: the allocator's answer to the `k`-th `Alloc` request, asked for `n` samples, once the scripted
answers are used up (93_implementation_defined U13; log entry 8). -/
opaque allocOracle : (k n : Nat) → Option Addr

end Config

end Sys2Proof
end

