-- ==== Sys2Proof/Syntax.lean ====
section
/-! DEFINITION. The thirteen commands of RBU-CMD 1.0 (spec/30_encoding.md R72, R75), one constructor per row of
spec/opcode_table.json. -/

namespace Sys2Proof

/-- The three planes of a buffer, in the order of every phase (42_subtract R142). -/
inductive Plane where
  | y
  | cb
  | cr
deriving DecidableEq, Repr

/-- The twelve fields of a context, in the order of their RDCTX index (10_state R23). -/
inductive CtxField where
  | ready
  | width
  | height
  | cwidth
  | cheight
  | hshift
  | vshift
  | csp
  | cpres
  | baseY
  | baseCb
  | baseCr
deriving DecidableEq, Repr

/-- A command with its operands (30_encoding R72). `ctx` is "this buffer"; `a` and `b` are context ids or
pixel-buffer ids as the row says; `cid` is `chromaId`. -/
inductive Instr where
  /-- `create c<ctx>, <csp>, <width>, <height>` (40_lifecycle R100). -/
  | create (ctx csp : Id) (width height : Dim)
  /-- `destroy c<ctx>` (40_lifecycle R106). -/
  | destroy (ctx : Id)
  /-- `clear c<ctx>` (40_lifecycle R107). -/
  | clear (ctx : Id)
  /-- `rdctx c<ctx>, <field>` (40_lifecycle R112). -/
  | rdctx (ctx : Id) (field : CtxField)
  /-- `addr c<ctx>, <plane>, <pidx>, <psize>` (41_addressing R133). -/
  | addr (ctx : Id) (plane : Plane) (pidx psize : Dim)
  /-- `sub c<ctx>, p<a>, p<b>, <pidx>, <psize>` (42_subtract R140). -/
  | sub (ctx a b : Id) (pidx psize : Dim)
  /-- `addclip c<ctx>, c<a>, c<b>, <pidx>, <psize>` (43_addclip R150). -/
  | addclip (ctx a b : Id) (pidx psize : Dim)
  /-- `cpyrl c<ctx>, c<a>, <pidx>, <psize>, <width>, <height>` (44_copy R165). -/
  | cpyrl (ctx a : Id) (pidx psize width height : Dim)
  /-- `cpyrc c<ctx>, c<a>, <cid>, <pidx>, <psize>, <width>, <height>` (44_copy R166). -/
  | cpyrc (ctx a cid : Id) (pidx psize width height : Dim)
  /-- `cpyra c<ctx>, c<a>, <pidx>, <psize>, <width>, <height>` (44_copy R167). -/
  | cpyra (ctx a : Id) (pidx psize width height : Dim)
  /-- `cpypl c<ctx>, p<a>, <pidx>, <psize>, <width>, <height>` (44_copy R171). -/
  | cpypl (ctx a : Id) (pidx psize width height : Dim)
  /-- `cpypc c<ctx>, p<a>, <cid>, <pidx>, <psize>, <width>, <height>` (44_copy R172). -/
  | cpypc (ctx a cid : Id) (pidx psize width height : Dim)
  /-- `cpypa c<ctx>, p<a>, <pidx>, <psize>, <width>, <height>` (44_copy R173). -/
  | cpypa (ctx a : Id) (pidx psize width height : Dim)
deriving DecidableEq, Repr

end Sys2Proof
end

