-- ==== Sys2Proof/WellFormed.lean ====
section
/-! DEFINITION. Which commands are legal: the checks of spec/30_encoding.md R76 (c), (d), (e) that a term of Instr
can fail. They depend on the command and the static parameters alone (R77). -/

namespace Sys2Proof

/-- A context id names a context of the unit: below NCTX (30_encoding R76 c). -/
def ctxInRange (cfg : Config) (c : Id) : Bool := decide (c.toNat < cfg.nctx)

/-- A CREATE's colour-space code is one CSPSHIFT defines (30_encoding R76 d, 40_lifecycle R101). -/
def cspDefined (cfg : Config) (code : Id) : Bool := (cfg.cspShift code).isSome

/-- SUB_SIZES, the partition sizes the subtract kernel table has an entry for (00_scope R11). -/
def subSizes : List Nat := [4, 8, 16, 32, 64]

/-- A SUB's partition size is in SUB_SIZES (30_encoding R76 e). -/
def subSizeOk (psize : Dim) : Bool := subSizes.contains psize.toNat

/-- A command is well formed when R76 (c), (d), (e) find nothing wrong with it. Pixel-buffer ids are never
checked (45_external_interfaces R190), nor is `chromaId` (44_copy R161). -/
def Instr.wf (cfg : Config) : Instr → Bool
  | .create ctx csp _ _ => ctxInRange cfg ctx && cspDefined cfg csp
  | .destroy ctx => ctxInRange cfg ctx
  | .clear ctx => ctxInRange cfg ctx
  | .rdctx ctx _ => ctxInRange cfg ctx
  | .addr ctx _ _ _ => ctxInRange cfg ctx
  | .sub ctx _ _ _ psize => ctxInRange cfg ctx && subSizeOk psize
  | .addclip ctx a b _ _ => ctxInRange cfg ctx && ctxInRange cfg a && ctxInRange cfg b
  | .cpyrl ctx a _ _ _ _ => ctxInRange cfg ctx && ctxInRange cfg a
  | .cpyrc ctx a _ _ _ _ _ => ctxInRange cfg ctx && ctxInRange cfg a
  | .cpyra ctx a _ _ _ _ => ctxInRange cfg ctx && ctxInRange cfg a
  | .cpypl ctx _ _ _ _ _ => ctxInRange cfg ctx
  | .cpypc ctx _ _ _ _ _ _ => ctxInRange cfg ctx
  | .cpypa ctx _ _ _ _ _ => ctxInRange cfg ctx

end Sys2Proof
end

