-- ==== Sys2Proof/Decode.lean ====
section
/-! DEFINITION. The decoder (spec/30_encoding.md R71, R72, R75 to R77), total on 96-bit words and rejecting by
name, and the encoder written from the same tables. -/

namespace Sys2Proof

/-- The fields of a command word, from the most significant (30_encoding R71). -/
structure Fields where
  op : BitVec 8
  ctx : Id
  a : Id
  b : Id
  sel : Id
  rsv : BitVec 8
  height : Dim
  width : Dim
  psize : Dim
  pidx : Dim
deriving DecidableEq, Repr

/-- The fields of a word, at the bits 30_encoding R71 gives them. -/
def fieldsOf (w : Command) : Fields :=
  { op := w.extractLsb' 88 8
    ctx := w.extractLsb' 84 4
    a := w.extractLsb' 80 4
    b := w.extractLsb' 76 4
    sel := w.extractLsb' 72 4
    rsv := w.extractLsb' 64 8
    height := w.extractLsb' 48 16
    width := w.extractLsb' 32 16
    psize := w.extractLsb' 16 16
    pidx := w.extractLsb' 0 16 }

/-- The word that has the given fields (30_encoding R71). -/
def Fields.word (f : Fields) : Command :=
  f.op ++ f.ctx ++ f.a ++ f.b ++ f.sel ++ f.rsv ++ f.height ++ f.width ++ f.psize ++ f.pidx

/-- Why a word is illegal (30_encoding R76). -/
inductive DecodeError where
  /-- R76 (a): `op` is none of the thirteen. -/
  | unknownOpcode (op : BitVec 8)
  /-- R76 (b): the field of this name must be 0 in this command and is not. -/
  | reservedNotZero (name : String)
  /-- R76 (c): a context id is not below NCTX. -/
  | noSuchContext (id : Id)
  /-- R76 (d): the selector is out of range. -/
  | selectorOutOfRange (sel : Id)
  /-- R76 (e): SUB's partition size is not in SUB_SIZES. -/
  | sizeNotSupported (psize : Dim)
deriving DecidableEq, Repr

/-- A field a command does not use must carry 0 (30_encoding R70, R72). -/
def mustBeZero {n : Nat} (name : String) (v : BitVec n) : Except DecodeError Unit :=
  if v = 0 then .ok () else .error (.reservedNotZero name)

/-- A context id must be below NCTX (30_encoding R76 c). -/
def needContext (cfg : Config) (c : Id) : Except DecodeError Unit :=
  if ctxInRange cfg c then .ok () else .error (.noSuchContext c)

/-- A CREATE's colour-space code must be defined (30_encoding R76 d). -/
def needCsp (cfg : Config) (code : Id) : Except DecodeError Unit :=
  if cspDefined cfg code then .ok () else .error (.selectorOutOfRange code)

/-- A SUB's size must be in SUB_SIZES (30_encoding R76 e). -/
def needSubSize (psize : Dim) : Except DecodeError Unit :=
  if subSizeOk psize then .ok () else .error (.sizeNotSupported psize)

/-- The plane a selector names: 0 = Y, 1 = Cb, 2 = Cr (41_addressing R133). -/
def planeOf (sel : Id) : Except DecodeError Plane :=
  if sel = 0 then .ok .y
  else if sel = 1 then .ok .cb
  else if sel = 2 then .ok .cr
  else .error (.selectorOutOfRange sel)

/-- The selector of a plane (41_addressing R133). -/
def planeSel : Plane → Id
  | .y => 0
  | .cb => 1
  | .cr => 2

/-- The RDCTX index of a field (10_state R23). -/
def fieldSel : CtxField → Id
  | .ready => 0
  | .width => 1
  | .height => 2
  | .cwidth => 3
  | .cheight => 4
  | .hshift => 5
  | .vshift => 6
  | .csp => 7
  | .cpres => 8
  | .baseY => 9
  | .baseCb => 10
  | .baseCr => 11

/-- The context fields in the order of their index (10_state R23). -/
def ctxFields : List CtxField :=
  [.ready, .width, .height, .cwidth, .cheight, .hshift, .vshift, .csp, .cpres, .baseY, .baseCb, .baseCr]

/-- The field an RDCTX selector names; above 11 it is illegal (30_encoding R76 d). -/
def fieldOf (sel : Id) : Except DecodeError CtxField :=
  match ctxFields[sel.toNat]? with
  | some f => .ok f
  | none => .error (.selectorOutOfRange sel)

/-- The decoder, in the order of 30_encoding R77: the opcode, the must-be-zero fields of R72, the id
ranges, then the selector and SUB's size. -/
def decode (cfg : Config) (w : Command) : Except DecodeError Instr :=
  let f := fieldsOf w
  if f.op = 0x01 then do
    mustBeZero "a" f.a
    mustBeZero "b" f.b
    mustBeZero "rsv" f.rsv
    mustBeZero "psize" f.psize
    mustBeZero "pidx" f.pidx
    needContext cfg f.ctx
    needCsp cfg f.sel
    return .create f.ctx f.sel f.width f.height
  else if f.op = 0x02 then do
    mustBeZero "a" f.a
    mustBeZero "b" f.b
    mustBeZero "sel" f.sel
    mustBeZero "rsv" f.rsv
    mustBeZero "height" f.height
    mustBeZero "width" f.width
    mustBeZero "psize" f.psize
    mustBeZero "pidx" f.pidx
    needContext cfg f.ctx
    return .destroy f.ctx
  else if f.op = 0x03 then do
    mustBeZero "a" f.a
    mustBeZero "b" f.b
    mustBeZero "sel" f.sel
    mustBeZero "rsv" f.rsv
    mustBeZero "height" f.height
    mustBeZero "width" f.width
    mustBeZero "psize" f.psize
    mustBeZero "pidx" f.pidx
    needContext cfg f.ctx
    return .clear f.ctx
  else if f.op = 0x04 then do
    mustBeZero "a" f.a
    mustBeZero "b" f.b
    mustBeZero "rsv" f.rsv
    mustBeZero "height" f.height
    mustBeZero "width" f.width
    mustBeZero "psize" f.psize
    mustBeZero "pidx" f.pidx
    needContext cfg f.ctx
    let fld ← fieldOf f.sel
    return .rdctx f.ctx fld
  else if f.op = 0x08 then do
    mustBeZero "a" f.a
    mustBeZero "b" f.b
    mustBeZero "rsv" f.rsv
    mustBeZero "height" f.height
    mustBeZero "width" f.width
    needContext cfg f.ctx
    let p ← planeOf f.sel
    return .addr f.ctx p f.pidx f.psize
  else if f.op = 0x10 then do
    mustBeZero "sel" f.sel
    mustBeZero "rsv" f.rsv
    mustBeZero "height" f.height
    mustBeZero "width" f.width
    needContext cfg f.ctx
    needSubSize f.psize
    return .sub f.ctx f.a f.b f.pidx f.psize
  else if f.op = 0x11 then do
    mustBeZero "sel" f.sel
    mustBeZero "rsv" f.rsv
    mustBeZero "height" f.height
    mustBeZero "width" f.width
    needContext cfg f.ctx
    needContext cfg f.a
    needContext cfg f.b
    return .addclip f.ctx f.a f.b f.pidx f.psize
  else if f.op = 0x20 then do
    mustBeZero "b" f.b
    mustBeZero "sel" f.sel
    mustBeZero "rsv" f.rsv
    needContext cfg f.ctx
    needContext cfg f.a
    return .cpyrl f.ctx f.a f.pidx f.psize f.width f.height
  else if f.op = 0x21 then do
    mustBeZero "b" f.b
    mustBeZero "rsv" f.rsv
    needContext cfg f.ctx
    needContext cfg f.a
    return .cpyrc f.ctx f.a f.sel f.pidx f.psize f.width f.height
  else if f.op = 0x22 then do
    mustBeZero "b" f.b
    mustBeZero "sel" f.sel
    mustBeZero "rsv" f.rsv
    needContext cfg f.ctx
    needContext cfg f.a
    return .cpyra f.ctx f.a f.pidx f.psize f.width f.height
  else if f.op = 0x24 then do
    mustBeZero "b" f.b
    mustBeZero "sel" f.sel
    mustBeZero "rsv" f.rsv
    needContext cfg f.ctx
    return .cpypl f.ctx f.a f.pidx f.psize f.width f.height
  else if f.op = 0x25 then do
    mustBeZero "b" f.b
    mustBeZero "rsv" f.rsv
    needContext cfg f.ctx
    return .cpypc f.ctx f.a f.sel f.pidx f.psize f.width f.height
  else if f.op = 0x26 then do
    mustBeZero "b" f.b
    mustBeZero "sel" f.sel
    mustBeZero "rsv" f.rsv
    needContext cfg f.ctx
    return .cpypa f.ctx f.a f.pidx f.psize f.width f.height
  else .error (.unknownOpcode f.op)

/-- The fields of a command's word: the opcode of 30_encoding R75, the used fields of R72, 0 elsewhere. -/
def fieldsOfInstr : Instr → Fields
  | .create ctx csp width height => ⟨0x01, ctx, 0, 0, csp, 0, height, width, 0, 0⟩
  | .destroy ctx => ⟨0x02, ctx, 0, 0, 0, 0, 0, 0, 0, 0⟩
  | .clear ctx => ⟨0x03, ctx, 0, 0, 0, 0, 0, 0, 0, 0⟩
  | .rdctx ctx field => ⟨0x04, ctx, 0, 0, fieldSel field, 0, 0, 0, 0, 0⟩
  | .addr ctx plane pidx psize => ⟨0x08, ctx, 0, 0, planeSel plane, 0, 0, 0, psize, pidx⟩
  | .sub ctx a b pidx psize => ⟨0x10, ctx, a, b, 0, 0, 0, 0, psize, pidx⟩
  | .addclip ctx a b pidx psize => ⟨0x11, ctx, a, b, 0, 0, 0, 0, psize, pidx⟩
  | .cpyrl ctx a pidx psize width height => ⟨0x20, ctx, a, 0, 0, 0, height, width, psize, pidx⟩
  | .cpyrc ctx a cid pidx psize width height => ⟨0x21, ctx, a, 0, cid, 0, height, width, psize, pidx⟩
  | .cpyra ctx a pidx psize width height => ⟨0x22, ctx, a, 0, 0, 0, height, width, psize, pidx⟩
  | .cpypl ctx a pidx psize width height => ⟨0x24, ctx, a, 0, 0, 0, height, width, psize, pidx⟩
  | .cpypc ctx a cid pidx psize width height => ⟨0x25, ctx, a, 0, cid, 0, height, width, psize, pidx⟩
  | .cpypa ctx a pidx psize width height => ⟨0x26, ctx, a, 0, 0, 0, height, width, psize, pidx⟩

/-- The word of a command (30_encoding R71, R72, R75). -/
def encode (i : Instr) : Command := (fieldsOfInstr i).word

/-- The word whose parts arrived in the order W2, W1, W0 on a 32-bit path (30_encoding R70). -/
def joinParts (w2 w1 w0 : CommandPart) : Command := w2 ++ w1 ++ w0

/-- The command word that opcode_table.json's numbering calls `w`: bit 0 is bit 0 of the 96-bit word, and
bits above `nbits` are 0. -/
def tableWord (nbits w : Nat) : Command := BitVec.ofNat 96 (w % 2 ^ nbits)

/-- What the decoder reads from a word numbered as opcode_table.json numbers it, under the reference
configuration; none where it refuses. -/
def decodeTableWord (nbits w : Nat) : Option Instr :=
  match decode Config.reference (tableWord nbits w) with
  | .ok i => some i
  | .error _ => none

end Sys2Proof
end

