-- ==== Sys2Proof/Machine/State.lean ====
section
/-! DEFINITION. The machine's state as plain data (spec/10_state.md, spec/20_memory.md,
spec/45_external_interfaces.md), the reasons a step can stop, and the state after reset (R37, R220). -/

namespace Sys2Proof.Machine

/-- One context, a Residual Buffer instance: the twelve fields of 10_state R23. -/
structure Context where
  /-- READY (R24). -/
  ready : Bool
  /-- WIDTH, luma plane width and row stride (R25). -/
  width : Dim
  /-- HEIGHT (R25). -/
  height : Dim
  /-- CWIDTH, chroma plane width and row stride (R26). -/
  cwidth : Dim
  /-- CHEIGHT (R26). -/
  cheight : Dim
  /-- HSHIFT (R27). -/
  hshift : BitVec 2
  /-- VSHIFT (R27). -/
  vshift : BitVec 2
  /-- CSP, the colour-space code (R28). -/
  csp : Id
  /-- CPRES, whether there are chroma planes (R31). -/
  cpres : Bool
  /-- BASE_Y (R29). -/
  baseY : Addr
  /-- BASE_CB (R30). -/
  baseCb : Addr
  /-- BASE_CR (R30). -/
  baseCr : Addr
deriving DecidableEq, Repr

/-- The Uninitialized context: every field 0 (10_state R34). -/
def Context.uninit : Context :=
  { ready := false, width := 0, height := 0, cwidth := 0, cheight := 0, hshift := 0, vshift := 0,
    csp := 0, cpres := false, baseY := 0, baseCb := 0, baseCr := 0 }

/-- A sample memory: (address, sample) pairs in strictly rising order of address (20_memory R50, R58). A cell
that is not listed has no value (R55). Log entries 5, 6. -/
abbrev Mem := List (Nat × Sample)

/-- The canonical form of a sample memory: addresses strictly rise. A cell that is not listed has no value,
so no listed cell can equal it. -/
abbrev Mem.wf (m : Mem) : Prop := m.Pairwise fun x y => x.1 < y.1

/-- A region of RMEM the allocator gave out: `size` samples from `base` (45_external_interfaces R192). -/
structure Region where
  base : Addr
  size : Nat
deriving DecidableEq, Repr

/-- One plane of a pixel buffer: base and stride (45_external_interfaces R189), and its extent, the plane "the
model knows" (93_implementation_defined U3; log entry 10). -/
structure PixPlane where
  base : Addr
  stride : Dim
  width : Dim
  height : Dim
deriving DecidableEq, Repr

/-- A live pixel buffer: its planes and its own chroma shifts `PB.hs`, `PB.vs` (45_external_interfaces R189).
DESIGN CHOICE: R189 gives the shifts no width; the model gives them the 2 bits of HSHIFT and VSHIFT (log entry 10). -/
structure PixelBuffer where
  y : PixPlane
  cb : PixPlane
  cr : PixPlane
  hShift : BitVec 2
  vShift : BitVec 2
deriving DecidableEq, Repr

/-- A kernel invocation record, by kind (45_external_interfaces R181). -/
inductive KRecord where
  /-- SUB_LUMA, kind 0. -/
  | subLuma (cls : BitVec 3) (dst : Addr) (dstStride : Dim) (srcA : Addr) (strideA : Dim)
      (srcB : Addr) (strideB : Dim)
  /-- SUB_CHROMA, kind 1. -/
  | subChroma (cls : BitVec 3) (csp : Id) (dst : Addr) (dstStride : Dim) (srcA : Addr) (strideA : Dim)
      (srcB : Addr) (strideB : Dim)
  /-- ADD, kind 2. -/
  | add (w h : Dim) (dst : Addr) (dstStride : Dim) (srcA : Addr) (strideA : Dim) (srcB : Addr)
      (strideB : Dim)
  /-- COPY, kind 3. -/
  | copy (w h : Dim) (dst : Addr) (dstStride : Dim) (src : Addr) (srcStride : Dim)
deriving DecidableEq, Repr

/-- A request on an external port, with its answer (00_scope R17). -/
inductive PortEvent where
  | alloc (n : Nat) (answer : Option Addr)
  | free (base : Addr) (n : Nat)
  | pixAddr (pb : Id) (plane : Plane) (pidx psize : Dim) (pointer : Addr) (stride : Dim)
  | kinvoke (r : KRecord)
deriving DecidableEq, Repr

/-- A move of the host or of the Pixel Buffer's clients; all but the parts of a command fall between commands
(20_memory R66; log entries 3, 13, 15, 17). -/
inductive HostMove where
  /-- Present a whole command word (45_external_interfaces R191). -/
  | command (w : Command)
  /-- Present one 32-bit part of a command word, W2 first (30_encoding R70). -/
  | commandPart (w : CommandPart)
  /-- Take the response (45_external_interfaces R191). -/
  | takeResponse
  /-- Write one residual cell of a Ready context (20_memory R66). -/
  | writeResidual (a : Addr) (v : Sample)
  /-- Read one residual cell of a Ready context (20_memory R66). -/
  | readResidual (a : Addr)
  /-- A Pixel Buffer client writes one pixel cell (20_memory R54). -/
  | writePixel (a : Addr) (v : Sample)
  /-- The Pixel Buffer changes a descriptor, or retires the buffer (70_reset_and_hazards R229). -/
  | setPixelBuffer (pb : Id) (d : Option PixelBuffer)
  /-- Reset (70_reset_and_hazards R220, R221). -/
  | reset
deriving DecidableEq, Repr

/-- The parts of a command word that have arrived on a 32-bit path (30_encoding R70). -/
inductive Arrived where
  | none
  | one (w2 : CommandPart)
  | two (w2 w1 : CommandPart)
deriving DecidableEq, Repr

/-- The machine's state (INVENTORY.md lists each field with its rule and its reset value). -/
structure State where
  /-- The static parameters (00_scope R5 to R12); no step changes them (log entry 1). -/
  cfg : Config
  /-- The context file, banked (10_state R20, R23); the first NCTX of the sixteen exist (log entry 19). -/
  ctxs : Vector Context 16
  /-- Residual sample memory (20_memory R51). -/
  rmem : Mem
  /-- Pixel sample memory (20_memory R52). -/
  pmem : Mem
  /-- The response presented and not yet taken (30_encoding R73, 45_external_interfaces R191). -/
  respPort : Option Response
  /-- Parts of a command word received so far (30_encoding R70). -/
  arrived : Arrived
  /-- The allocator's record of live regions (10_state R36, 45_external_interfaces R192). -/
  live : List Region
  /-- The allocator's coming answers, oldest first; then the oracle answers (log entry 8). -/
  allocScript : List (Option Addr)
  /-- The Pixel Buffer's descriptors (45_external_interfaces R189); none names no live buffer. -/
  pbufs : Vector (Option PixelBuffer) 16
  /-- The host's coming moves (70_reset_and_hazards R223; log entry 3). -/
  inputs : List HostMove
  /-- MODEL: how many Alloc requests were made (log entry 8). -/
  allocCount : Nat
  /-- MODEL: how often RMEM contents became unspecified (log entry 6). -/
  rEpoch : Nat
  /-- MODEL: how often PMEM contents became unspecified (log entry 6). -/
  pEpoch : Nat
  /-- MODEL: how many kernel runs were made (log entries 7, 23). -/
  draws : Nat
  /-- MODEL: the responses the host has taken, oldest first (70_reset_and_hazards R223). -/
  responses : List Response
  /-- MODEL: the port requests made, oldest first (00_scope R17). -/
  trace : List PortEvent
deriving DecidableEq, Repr

/-- Why the machine stops with a fault. Each is a situation spec/93_implementation_defined.md asks a model to
report as a fault "distinct from the four error responses". -/
inductive Fault where
  /-- SUB and CPYP*: the pixel-buffer id names no live buffer (U3, R190). SAFE: the spec gives no behaviour. -/
  | noPixelBuffer
  /-- SUB and CPYP*: the rectangle is not inside the pixel plane (U3, R190; log entries 10, 11). SAFE. -/
  | pixelRectOutsidePlane
  /-- SUB: the kernel table has no entry for the record's colour space; no state that meets the invariant of
  Safety.lean raises it (R185; log entry 18). SAFE. -/
  | colourSpaceUndefined
  /-- The host reads or writes a residual cell of no Ready context (U7, R66). SAFE. -/
  | hostAccessOutsideLiveRegion
deriving DecidableEq, Repr

/-- Why an instruction has no meaning. No arm of exec refuses. -/
inductive Refusal where
  /-- exec's arm of an instruction that has no meaning yet. SAFE. -/
  | notModelled (mnemonic : String)
deriving DecidableEq, Repr

/-- What exec and step answer. -/
abbrev Result := Host.Outcome State Fault Refusal

/-- The machine right after reset (10_state R37, 70_reset_and_hazards R220) under the reference
configuration: every context Uninitialized, no region held, no command in progress, no response pending,
nothing known of any cell. The other parties' fields and the model's own are log entries 1, 3, 4, 8, 10. -/
def State.reset : State :=
  { cfg := Config.reference
    ctxs := Vector.replicate 16 Context.uninit
    rmem := []
    pmem := []
    respPort := none
    arrived := .none
    live := []
    allocScript := []
    pbufs := Vector.replicate 16 none
    inputs := []
    allocCount := 0
    rEpoch := 0
    pEpoch := 0
    draws := 0
    responses := []
    trace := [] }

end Sys2Proof.Machine
end

