-- ==== Sys2Proof/Machine/Memory.lean ====
section
/-! DEFINITION. The sample memories' own operations (spec/20_memory.md R54, R55, R58; spec/41_addressing.md R129)
and the byte view of spec/20_memory.md R56. -/

namespace Sys2Proof.Machine

/-- The last value written to a cell; none while nothing has written it (20_memory R54, R55). -/
def Mem.read? : Mem → Nat → Option Sample
  | [], _ => none
  | e :: m, a => if e.1 = a then some e.2 else Mem.read? m a

/-- Write one cell, keeping the rising order. -/
def Mem.write : Mem → Nat → Sample → Mem
  | [], a, v => [(a, v)]
  | e :: m, a, v =>
    if a < e.1 then (a, v) :: e :: m
    else if a = e.1 then (a, v) :: m
    else e :: Mem.write m a v

/-- Write the cells of a list in order. -/
def Mem.writeAll (m : Mem) (ws : List (Nat × Sample)) : Mem :=
  ws.foldl (fun m e => m.write e.1 e.2) m

/-- Whether address `a` lies in `[base, base + n)`. -/
def inRange (base n a : Nat) : Bool := decide (base ≤ a) && decide (a < base + n)

/-- Make the contents of `[base, base + n)` unspecified again (20_memory R55). -/
def Mem.forget (m : Mem) (base n : Nat) : Mem :=
  m.filter fun e => !inRange base n e.1

/-- The cells of `n` consecutive addresses, each with the value `v`. -/
def fillCells (base n : Nat) (v : Sample) : List (Nat × Sample) :=
  (List.range n).map fun k => (base + k, v)

/-- The cells of `Rect(dst, stride, w, h)` (41_addressing R129), row by row, the cell of row `y` and column
`x` with the value `f y x`. -/
def rectCells (dst stride w h : Nat) (f : Nat → Nat → Sample) : List (Nat × Sample) :=
  (List.range h).flatMap fun y => (List.range w).map fun x => (dst + y * stride + x, f y x)

/-- The low `n` bits of a sample's pattern, read as unsigned: `trunc_N` (00_scope R13, 44_copy R170). -/
def truncTo (n : Nat) (v : Sample) : Sample := BitVec.ofNat 16 (v.toNat % 2 ^ n)

/-- One RMEM cell's contents under the current state: what was last written, else a free value
(93_implementation_defined U1; log entry 6). -/
def State.readR (s : State) (a : Nat) : Sample :=
  match s.rmem.read? a with
  | some v => v
  | none => Config.unwrittenResidual s.rEpoch a

/-- One PMEM cell's contents: what was last written, else a free PIXW-bit value (20_memory R55; log
entry 6). -/
def State.readP (s : State) (a : Nat) : Sample :=
  match s.pmem.read? a with
  | some v => v
  | none => truncTo s.cfg.pixw (Config.unwrittenPixel s.pEpoch a)

/-- Write RMEM cells in order. -/
def State.writeR (s : State) (ws : List (Nat × Sample)) : State :=
  { s with rmem := s.rmem.writeAll ws }

/-- Write PMEM cells in order. -/
def State.writeP (s : State) (ws : List (Nat × Sample)) : State :=
  { s with pmem := s.pmem.writeAll ws }

/-- Byte `b` of RMEM seen as bytes: sample `a` is bytes `2a` (low) and `2a + 1` (high), little-endian
(20_memory R56). -/
def State.residualByte (s : State) (b : Nat) : BitVec 8 :=
  (s.readR (b / 2)).extractLsb' (8 * (b % 2)) 8

/-- Byte `b` of PMEM seen as bytes: one byte a sample at PIXW 8, two otherwise, little-endian
(92_eei_decisions D30). -/
def State.pixelByte (s : State) (b : Nat) : BitVec 8 :=
  if s.cfg.pixw = 8 then (s.readP b).extractLsb' 0 8
  else (s.readP (b / 2)).extractLsb' (8 * (b % 2)) 8

end Sys2Proof.Machine
end

