-- ==== Sys2Proof/Machine/Flags.lean ====
section
/-! DEFINITION. The RBU has no flags (spec/10_state.md R22): the outcome of a command stands in the status field of
its response alone. This file holds the status codes (spec/60_exceptions.md R200) and the response word
(spec/30_encoding.md R73). -/

namespace Sys2Proof.Machine

/-- The four errors, in the order of their codes (60_exceptions R200). -/
inductive CmdError where
  | allocation
  | invalidState
  | dimensionMismatch
  | illegalCommand
deriving DecidableEq, Repr

/-- Status code 0, OK (60_exceptions R200). -/
def statusOk : BitVec 4 := 0

/-- The status code of an error (60_exceptions R200); 5 to 15 are never produced. -/
def CmdError.code : CmdError → BitVec 4
  | .allocation => 1
  | .invalidState => 2
  | .dimensionMismatch => 3
  | .illegalCommand => 4

/-- A response word: status 63:60, zero 59:48, aux 47:32, value 31:0 (30_encoding R73). -/
def packResponse (status : BitVec 4) (value : BitVec 32) (aux : BitVec 16) : Response :=
  status ++ (0 : BitVec 12) ++ aux ++ value

/-- The status field of a response (30_encoding R73). -/
def responseStatus (r : Response) : BitVec 4 := r.extractLsb' 60 4

/-- The reserved field of a response (30_encoding R73). -/
def responseRsv (r : Response) : BitVec 12 := r.extractLsb' 48 12

/-- The aux field of a response (30_encoding R73). -/
def responseAux (r : Response) : BitVec 16 := r.extractLsb' 32 16

/-- The value field of a response (30_encoding R73). -/
def responseValue (r : Response) : BitVec 32 := r.extractLsb' 0 32

/-- The response of a command that completed with nothing to report. -/
def okResponse : Response := packResponse statusOk 0 0

/-- The response of a command that met an error: value and aux are 0 (30_encoding R73). -/
def errorResponse (e : CmdError) : Response := packResponse e.code 0 0

end Sys2Proof.Machine
end

