-- ==== Sys2Proof/Machine/Operands.lean ====
section
/-! DEFINITION. The address unit (spec/41_addressing.md): PARTMAP, plane descriptors, coordinates, addresses,
rectangles, the bounds check, and which planes a command works on. Arithmetic is on unbounded naturals (R132). -/

namespace Sys2Proof.Machine

/-- `rowOf(pidx, psize)` (41_addressing R122; the raster is R123). -/
def rowOf (cfg : Config) (pidx psize : Dim) : Nat :=
  match cfg.partMap with
  | .raster gridW => pidx.toNat * psize.toNat / gridW * psize.toNat
  | .given k => Config.givenRow k pidx.toNat psize.toNat

/-- `colOf(pidx, psize)` (41_addressing R122; the raster is R123). -/
def colOf (cfg : Config) (pidx psize : Dim) : Nat :=
  match cfg.partMap with
  | .raster gridW => pidx.toNat * psize.toNat % gridW
  | .given k => Config.givenCol k pidx.toNat psize.toNat

/-- The base address of a plane (41_addressing R120). -/
def Context.base (X : Context) : Plane → Addr
  | .y => X.baseY
  | .cb => X.baseCb
  | .cr => X.baseCr

/-- The width of a plane, which is its row stride (41_addressing R120). -/
def Context.pw (X : Context) : Plane → Dim
  | .y => X.width
  | .cb => X.cwidth
  | .cr => X.cwidth

/-- The height of a plane (41_addressing R120). -/
def Context.ph (X : Context) : Plane → Dim
  | .y => X.height
  | .cb => X.cheight
  | .cr => X.cheight

/-- The horizontal shift of a plane: 0 for luma (41_addressing R120). -/
def Context.hs (X : Context) : Plane → Nat
  | .y => 0
  | .cb => X.hshift.toNat
  | .cr => X.hshift.toNat

/-- The vertical shift of a plane: 0 for luma (41_addressing R120). -/
def Context.vs (X : Context) : Plane → Nat
  | .y => 0
  | .cb => X.vshift.toNat
  | .cr => X.vshift.toNat

/-- How many samples a plane has (10_state R29, R30). -/
def Context.samples (X : Context) (p : Plane) : Nat := (X.pw p).toNat * (X.ph p).toNat

/-- The row of the addressed partition in a plane: the luma row by the vertical shift (41_addressing R125). -/
def Context.row (cfg : Config) (X : Context) (p : Plane) (pidx psize : Dim) : Nat :=
  rowOf cfg pidx psize >>> X.vs p

/-- The column of the addressed partition in a plane: the luma column by the horizontal shift
(41_addressing R125). -/
def Context.col (cfg : Config) (X : Context) (p : Plane) (pidx psize : Dim) : Nat :=
  colOf cfg pidx psize >>> X.hs p

/-- `offset(X, p)` (41_addressing R126), exact. -/
def Context.offset (cfg : Config) (X : Context) (p : Plane) (pidx psize : Dim) : Nat :=
  X.row cfg p pidx psize * (X.pw p).toNat + X.col cfg p pidx psize

/-- `addr(X, p)` (41_addressing R126), exact. -/
def Context.addr (cfg : Config) (X : Context) (p : Plane) (pidx psize : Dim) : Nat :=
  (X.base p).toNat + X.offset cfg p pidx psize

/-- `addr(X, p)` as the 32-bit address a record or a response carries; after the bounds check nothing is lost
(41_addressing R126). -/
def Context.addr32 (cfg : Config) (X : Context) (p : Plane) (pidx psize : Dim) : Addr :=
  BitVec.ofNat 32 (X.addr cfg p pidx psize)

/-- A rectangle's extent in samples. -/
structure Extent where
  w : Nat
  h : Nat
deriving DecidableEq, Repr

/-- The extent of a command's rectangle in a plane of T, "this buffer": luma as given, chroma by T's shifts
(41_addressing R127). -/
def Context.extent (T : Context) (w h : Dim) (p : Plane) : Extent :=
  { w := w.toNat >>> T.hs p, h := h.toNat >>> T.vs p }

/-- The bounds check `InBounds(X, p)`, on unbounded integers (41_addressing R130). -/
def Context.inBounds (cfg : Config) (X : Context) (p : Plane) (pidx psize : Dim) (e : Extent) : Bool :=
  decide (X.col cfg p pidx psize + e.w ≤ (X.pw p).toNat) &&
    decide (X.row cfg p pidx psize + e.h ≤ (X.ph p).toNat)

/-- ADDR's point check: the addressed sample is a sample of the plane (41_addressing R133). -/
def Context.hasPoint (cfg : Config) (X : Context) (p : Plane) (pidx psize : Dim) : Bool :=
  decide (X.row cfg p pidx psize < (X.ph p).toNat) && decide (X.col cfg p pidx psize < (X.pw p).toNat)

/-- A phase is active unless it is skipped (chroma without CPRES) or its rectangle is empty
(41_addressing R128). -/
def Context.active (T : Context) (w h : Dim) (p : Plane) : Bool :=
  (decide (p = .y) || T.cpres) && decide (0 < (T.extent w h p).w) && decide (0 < (T.extent w h p).h)

/-- The planes a command works on, in order, without its skipped and empty phases: for the copies the active
plan of 44_copy R161, for SUB and ADDCLIP the phases of 41_addressing R128. -/
def Context.plan (T : Context) (planes : List Plane) (w h : Dim) : List Plane :=
  planes.filter (T.active w h)

/-- All three planes in phase order (42_subtract R142). -/
def allPlanes : List Plane := [.y, .cb, .cr]

/-- The planes `chromaId` selects: 0 = Cb, 1 = Cr, else both (44_copy R161). -/
def chromaPlanes (cid : Id) : List Plane :=
  if cid = 0 then [.cb] else if cid = 1 then [.cr] else [.cb, .cr]

/-- The partition-size class, `log2(psize) - 2` (00_scope R11). -/
def sizeClass (psize : Dim) : BitVec 3 := BitVec.ofNat 3 (Nat.log2 psize.toNat - 2)

/-- The side of the luma square of a size class, `2^(cls+2)` (45_external_interfaces R184). -/
def classSide (cls : BitVec 3) : Nat := 2 ^ (cls.toNat + 2)

/-- The descriptor of a plane of a pixel buffer (45_external_interfaces R189). -/
def PixelBuffer.plane (d : PixelBuffer) : Plane → PixPlane
  | .y => d.y
  | .cb => d.cb
  | .cr => d.cr

/-- The row a pixel buffer addresses: the same PARTMAP, its own shift (45_external_interfaces R189). -/
def PixelBuffer.row (cfg : Config) (d : PixelBuffer) (p : Plane) (pidx psize : Dim) : Nat :=
  match p with
  | .y => rowOf cfg pidx psize
  | .cb => rowOf cfg pidx psize >>> d.vShift.toNat
  | .cr => rowOf cfg pidx psize >>> d.vShift.toNat

/-- The column a pixel buffer addresses (45_external_interfaces R189). -/
def PixelBuffer.col (cfg : Config) (d : PixelBuffer) (p : Plane) (pidx psize : Dim) : Nat :=
  match p with
  | .y => colOf cfg pidx psize
  | .cb => colOf cfg pidx psize >>> d.hShift.toNat
  | .cr => colOf cfg pidx psize >>> d.hShift.toNat

/-- The pointer a pixel buffer answers, `base + rp * stride + cp` (45_external_interfaces R189). -/
def PixelBuffer.pointer (cfg : Config) (d : PixelBuffer) (p : Plane) (pidx psize : Dim) : Nat :=
  (d.plane p).base.toNat + d.row cfg p pidx psize * (d.plane p).stride.toNat + d.col cfg p pidx psize

/-- The rectangle at the addressed coordinates lies inside the pixel plane: within its extent, and its last cell
exists in PMEM, whatever the stride (45_external_interfaces R189, 70_reset_and_hazards R228,
93_implementation_defined U3; log entries 10, 11). -/
def PixelBuffer.holds (cfg : Config) (d : PixelBuffer) (p : Plane) (pidx psize : Dim) (e : Extent) : Bool :=
  decide (d.col cfg p pidx psize + e.w ≤ (d.plane p).width.toNat) &&
    decide (d.row cfg p pidx psize + e.h ≤ (d.plane p).height.toNat) &&
    decide (d.pointer cfg p pidx psize + (e.h - 1) * (d.plane p).stride.toNat + e.w ≤ spaceSize)

end Sys2Proof.Machine
end

