-- ==== Sys2Proof/Machine/Ops.lean ====
section
/-! DEFINITION. The operations the meanings share: the context file, ending a command with a response, taking an
error (spec/00_scope.md R14, R16; spec/60_exceptions.md R206), and running a command's phases in order. -/

namespace Sys2Proof.Machine

/-- `ctx[c]`, the bank a 4-bit id selects (10_state R20). -/
def State.ctx (s : State) (c : Id) : Context := s.ctxs[c.toNat]'c.isLt

/-- `ctx[c] <- X`, all fields as a group (10_state R23). -/
def State.setCtx (s : State) (c : Id) (X : Context) : State :=
  { s with ctxs := s.ctxs.set c.toNat X c.isLt }

/-- The descriptor of a pixel buffer, none where the id names no live buffer (45_external_interfaces R189). -/
def State.pbuf (s : State) (pb : Id) : Option PixelBuffer := s.pbufs[pb.toNat]'pb.isLt

/-- The Pixel Buffer changes or retires a descriptor. -/
def State.setPbuf (s : State) (pb : Id) (d : Option PixelBuffer) : State :=
  { s with pbufs := s.pbufs.set pb.toNat d pb.isLt }

/-- `respond(status, value, aux)`: present the response word, which ends the command (00_scope R14). -/
def State.respond (s : State) (status : BitVec 4) (value : BitVec 32) (aux : BitVec 16) : State :=
  { s with respPort := some (packResponse status value aux) }

/-- `raise <Error>`: no change but the response with the error's code and zeros (00_scope R16,
60_exceptions R206). Nothing is saved and there is nothing to return from (R207). -/
def raise (e : CmdError) (s : State) : Result := .next (s.respond e.code 0 0)

/-- `respond(OK, 0, 0)`, the end of a command with nothing to report. -/
def State.done (s : State) : State := s.respond statusOk 0 0

/-- A command that is not well formed is IllegalCommand, before anything else (60_exceptions R201, R205). -/
def whenLegal (i : Instr) (s : State) (k : Result) : Result :=
  if i.wf s.cfg then k else raise .illegalCommand s

/-- Record a port request (00_scope R17). -/
def State.record (s : State) (e : PortEvent) : State := { s with trace := s.trace ++ [e] }

/-- The contents of a region of RMEM become unspecified: its cells are forgotten and unwritten cells are
drawn anew (20_memory R55; log entries 6, 22). -/
def State.forgetRegion (s : State) (base : Addr) (n : Nat) : State :=
  { s with rmem := s.rmem.forget base.toNat n, rEpoch := s.rEpoch + 1 }

/-- Run the phases of a command in order, each complete before the next begins (42_subtract R142,
45_external_interfaces R182). -/
def runPhases (phase : Plane → State → Except Fault State) : List Plane → State → Except Fault State
  | [], s => .ok s
  | p :: ps, s =>
    match phase p s with
    | .ok s' => runPhases phase ps s'
    | .error f => .error f

/-- The end of a command's effects: OK, or the model fault met on the way. -/
def finish : Except Fault State → Result
  | .ok s => .next s.done
  | .error f => .fault f

/-- Whether an RMEM address lies in plane `p` of a Ready context. -/
def Context.ownsIn (X : Context) (p : Plane) (a : Nat) : Bool :=
  X.ready && inRange (X.base p).toNat (X.samples p) a

/-- Whether an RMEM address is a cell of some Ready context's regions (20_memory R66). -/
def State.owned (s : State) (a : Nat) : Bool :=
  s.ctxs.toList.any fun X => X.ownsIn .y a || X.ownsIn .cb a || X.ownsIn .cr a

end Sys2Proof.Machine
end

