-- ==== Sys2Proof/Machine/Ports.lean ====
section
/-! DEFINITION. The allocator port and the pixel-buffer address port (spec/45_external_interfaces.md R189 to R193). -/

namespace Sys2Proof.Machine

/-- Two regions share no cell (45_external_interfaces R192). -/
def Region.disjoint (q r : Region) : Bool :=
  decide (q.size = 0) || decide (r.size = 0) || decide (q.base.toNat + q.size ≤ r.base.toNat) ||
    decide (r.base.toNat + r.size ≤ q.base.toNat)

/-- A region lies inside RMEM (45_external_interfaces R192). -/
def Region.fits (r : Region) : Bool := decide (r.base.toNat + r.size ≤ spaceSize)

/-- An address is a cell of a region. -/
def Region.contains (r : Region) (a : Nat) : Bool := inRange r.base.toNat r.size a

/-- A base the contract of R192 admits as the answer to `Alloc(n)`. -/
def State.allocAdmits (s : State) (n : Nat) (b : Addr) : Bool :=
  let r : Region := { base := b, size := n }
  r.fits && s.live.all fun q => r.disjoint q

/-- What the allocator says to `Alloc(n)`: the next scripted answer, or the oracle's once the script is used
up; an answer outside the contract of R192 counts as `fail` (93_implementation_defined U13; log entry 8). -/
def State.allocAnswer (s : State) (n : Nat) : Option Addr :=
  (match s.allocScript with
    | ans :: _ => ans
    | [] => Config.allocOracle s.allocCount n).filter (s.allocAdmits n)

/-- `Alloc(n)` (45_external_interfaces R192). A region given out is live and its contents are unspecified
(20_memory R55). -/
def State.alloc (s : State) (n : Nat) : Option Addr × State :=
  let ans := s.allocAnswer n
  let s1 : State :=
    { s with allocScript := s.allocScript.tail, allocCount := s.allocCount + 1,
             trace := s.trace ++ [.alloc n ans] }
  match ans with
  | none => (none, s1)
  | some b => (some b, { s1 with live := { base := b, size := n } :: s1.live }.forgetRegion b n)

/-- `Free(b, n)` (45_external_interfaces R193): the region is no longer live and its contents are unspecified
(20_memory R55). -/
def State.free (s : State) (b : Addr) (n : Nat) : State :=
  ({ s with live := s.live.erase { base := b, size := n } }.forgetRegion b n).record (.free b n)

/-- `PixAddr(pb, plane, pidx, psize)` with the check that the rectangle to be accessed there lies in the pixel
plane (45_external_interfaces R189, R190; 93_implementation_defined U3). -/
def pixAddr (pb : Id) (p : Plane) (pidx psize : Dim) (e : Extent) (s : State) :
    Except Fault ((Addr × Dim) × State) :=
  match s.pbuf pb with
  | none => .error .noPixelBuffer
  | some d =>
    if d.holds s.cfg p pidx psize e then
      let ptr : Addr := BitVec.ofNat 32 (d.pointer s.cfg p pidx psize)
      let stride := (d.plane p).stride
      .ok ((ptr, stride), s.record (.pixAddr pb p pidx psize ptr stride))
    else .error .pixelRectOutsidePlane

end Sys2Proof.Machine
end

