-- ==== Sys2Proof/Machine/Kernel.lean ====
section
/-! DEFINITION. The kernel port and the four kernels by their contracts (spec/45_external_interfaces.md R181 to R188;
log entry 12). All sources of a run are read before its cells are written (43_addclip R154, 45 R186). -/

namespace Sys2Proof.Machine

/-- The `kind` field of a record (45_external_interfaces R181). -/
def KRecord.kind : KRecord → BitVec 2
  | .subLuma .. => 0
  | .subChroma .. => 1
  | .add .. => 2
  | .copy .. => 3

/-- `clip(lo, hi, v)` (00_scope R13). -/
def clip (lo hi v : Int) : Int := if v < lo then lo else if v > hi then hi else v

/-- maxSample, `2^BIT_DEPTH - 1` (00_scope R8). -/
def maxSample (cfg : Config) : Int := 2 ^ cfg.bitDepth - 1

/-- Whether an exact result is a wide sample, -32768 to 32767 (00_scope R7). -/
def fitsWide (v : Int) : Bool := decide (-32768 ≤ v) && decide (v ≤ 32767)

/-- What a subtract kernel stores at RMEM address `a` for the exact result `v`: `v` where it is a wide sample, else a
free value (93_implementation_defined U2; log entry 7). -/
def State.wide (s : State) (a : Nat) (v : Int) : Sample :=
  if fitsWide v then BitVec.ofInt 16 v else Config.unfitSample s.draws a

/-- What the add kernel stores for the exact clipped sum `v`: `v` where it is a wide sample. BIT_DEPTH 16 lets `v` be
larger; what is stored is then a free value that is still within 0 .. maxSample, as every sample the kernel
stores (43_addclip R154, R155 d, j; log entry 7). -/
def State.wideSum (s : State) (a : Nat) (v : Int) : Sample :=
  if fitsWide v then BitVec.ofInt 16 v else Config.unfitSample s.draws a &&& 0x7FFF

/-- The exact result of the subtract kernels: the difference of two unsigned pixel samples
(45_external_interfaces R184). -/
def subExact (a b : Sample) : Int := (a.toNat : Int) - (b.toNat : Int)

/-- The exact result of the add kernel: the sum of two residual samples, clipped (45_external_interfaces R186). -/
def addExact (cfg : Config) (a b : Sample) : Int := clip 0 (maxSample cfg) (a.toInt + b.toInt)

/-- The cells a subtract kernel writes (45_external_interfaces R184, R185). -/
def State.subCells (s : State) (dst dstStride srcA strideA srcB strideB : Nat) (e : Extent) :
    List (Nat × Sample) :=
  rectCells dst dstStride e.w e.h fun y x =>
    s.wide (dst + y * dstStride + x)
      (subExact (s.readP (srcA + y * strideA + x)) (s.readP (srcB + y * strideB + x)))

/-- The cells the add kernel writes (45_external_interfaces R186). -/
def State.addCells (s : State) (dst dstStride srcA strideA srcB strideB : Nat) (e : Extent) :
    List (Nat × Sample) :=
  rectCells dst dstStride e.w e.h fun y x =>
    s.wideSum (dst + y * dstStride + x)
      (addExact s.cfg (s.readR (srcA + y * strideA + x)) (s.readR (srcB + y * strideB + x)))

/-- The same writes, each cell with the value of the sample for it that is visited last, `pick` of the samples
for it. -/
def visitLast (pick : Nat → Nat) (ws : List (Nat × Sample)) : List (Nat × Sample) :=
  ws.map fun e =>
    let vs := (ws.filter fun d => d.1 = e.1).map (·.2)
    (e.1, vs.getD (pick e.1 % vs.length) e.2)

/-- The cells the block-copy kernel writes, in PMEM (45_external_interfaces R187). A pixel buffer's stride need not
be as large as the rectangle's width (R189): where rows overlap, a cell takes the value of one of the samples
that go to it, the one visited last, and the order of visits is free (R188; log entry 23). -/
def State.narrowCells (s : State) (dst dstStride src srcStride : Nat) (e : Extent) : List (Nat × Sample) :=
  let ws := rectCells dst dstStride e.w e.h fun y x => truncTo s.cfg.pixw (s.readR (src + y * srcStride + x))
  if e.w ≤ dstStride ∨ e.h ≤ 1 then ws else visitLast (Config.lastVisit s.draws) ws

/-- The cells of a raw residual copy (44_copy R163). -/
def State.rawCells (s : State) (dst dstStride src srcStride : Nat) (e : Extent) : List (Nat × Sample) :=
  rectCells dst dstStride e.w e.h fun y x => s.readR (src + y * srcStride + x)

/-- Write the results of a SUB or ADD run; the next run's free values are other ones. -/
def State.storeResults (s : State) (ws : List (Nat × Sample)) : State :=
  { s.writeR ws with draws := s.draws + 1 }

/-- Write the results of a COPY run; the next run's free values are other ones. -/
def State.storePixels (s : State) (ws : List (Nat × Sample)) : State :=
  { s.writeP ws with draws := s.draws + 1 }

/-- A kernel run, by the contract of its kind (45_external_interfaces R184 to R187). -/
def runKernel (r : KRecord) (s : State) : Except Fault State :=
  match r with
  | .subLuma cls dst dstStride srcA strideA srcB strideB =>
    .ok (s.storeResults (s.subCells dst.toNat dstStride.toNat srcA.toNat strideA.toNat srcB.toNat strideB.toNat
      { w := classSide cls, h := classSide cls }))
  | .subChroma cls csp dst dstStride srcA strideA srcB strideB =>
    match s.cfg.cspShift csp with
    | none => .error .colourSpaceUndefined
    | some row =>
      .ok (s.storeResults (s.subCells dst.toNat dstStride.toNat srcA.toNat strideA.toNat srcB.toNat
        strideB.toNat { w := classSide cls >>> row.hShift.toNat, h := classSide cls >>> row.vShift.toNat }))
  | .add w h dst dstStride srcA strideA srcB strideB =>
    .ok (s.storeResults (s.addCells dst.toNat dstStride.toNat srcA.toNat strideA.toNat srcB.toNat
      strideB.toNat { w := w.toNat, h := h.toNat }))
  | .copy w h dst dstStride src srcStride =>
    .ok (s.storePixels (s.narrowCells dst.toNat dstStride.toNat src.toNat srcStride.toNat
      { w := w.toNat, h := h.toNat }))

/-- `KInvoke(record)`: the request, and the run to its completion (45_external_interfaces R182). -/
def kinvoke (r : KRecord) (s : State) : Except Fault State :=
  runKernel r (s.record (.kinvoke r))

end Sys2Proof.Machine
end

