-- ==== Sys2Proof/Machine/AddClip.lean ====
section
/-! DEFINITION. ADDCLIP, the add-and-clip dispatcher (spec/43_addclip.md). -/

namespace Sys2Proof.Machine

/-- The record of an ADDCLIP phase: the rectangle's extent, no size class and no colour space (43_addclip R151,
R152). -/
def addRecord (cfg : Config) (T A B : Context) (p : Plane) (pidx psize : Dim) : KRecord :=
  let e := T.extent psize psize p
  .add (BitVec.ofNat 16 e.w) (BitVec.ofNat 16 e.h) (T.addr32 cfg p pidx psize) (T.pw p)
    (A.addr32 cfg p pidx psize) (A.pw p) (B.addr32 cfg p pidx psize) (B.pw p)

/-- ADDCLIP (43_addclip R150 to R155). -/
def execAddclip (ctx a b : Id) (pidx psize : Dim) (s : State) : Result :=
  whenLegal (.addclip ctx a b pidx psize) s <|
    let T := s.ctx ctx
    let A := s.ctx a
    let B := s.ctx b
    if T.ready && A.ready && B.ready then
      let plan := T.plan allPlanes psize psize
      let fits (p : Plane) (X : Context) : Bool := X.inBounds s.cfg p pidx psize (T.extent psize psize p)
      if plan.all fun p => fits p T && fits p A && fits p B then
        finish (runPhases (fun p s' => kinvoke (addRecord s'.cfg T A B p pidx psize) s') plan s)
      else raise .dimensionMismatch s
    else raise .invalidState s

end Sys2Proof.Machine
end

