-- ==== Sys2Proof/Machine/Addressing.lean ====
section
/-! DEFINITION. ADDR (spec/41_addressing.md R133, R134). -/

namespace Sys2Proof.Machine

/-- ADDR (41_addressing R133): the address of the partition and the plane's row stride. -/
def execAddr (ctx : Id) (plane : Plane) (pidx psize : Dim) (s : State) : Result :=
  whenLegal (.addr ctx plane pidx psize) s <|
    let X := s.ctx ctx
    if X.ready then
      if X.hasPoint s.cfg plane pidx psize then
        .next (s.respond statusOk (X.addr32 s.cfg plane pidx psize) (X.pw plane))
      else raise .dimensionMismatch s
    else raise .invalidState s

end Sys2Proof.Machine
end

