-- ==== Sys2Proof/Machine/Copy.lean ====
section
/-! DEFINITION. The copy family CPYRL, CPYRC, CPYRA, CPYPL, CPYPC, CPYPA (spec/44_copy.md). -/

namespace Sys2Proof.Machine

/-- `copyRR`: the raw copy of a plane's rectangle, with the self-copy test on the two top-left addresses
(44_copy R163, R164). -/
def copyRR (S D : Context) (pidx psize w h : Dim) (p : Plane) (s : State) : Except Fault State :=
  let sa := S.addr s.cfg p pidx psize
  let da := D.addr s.cfg p pidx psize
  if sa = da then .ok s
  else .ok (s.writeR (s.rawCells da (D.pw p).toNat sa (S.pw p).toNat (S.extent w h p)))

/-- The record of a narrowing copy of a plane's rectangle (44_copy R168, R169). -/
def copyRecord (cfg : Config) (S : Context) (p : Plane) (pidx psize w h : Dim) (q : Addr × Dim) : KRecord :=
  let e := S.extent w h p
  .copy (BitVec.ofNat 16 e.w) (BitVec.ofNat 16 e.h) q.1 q.2 (S.addr32 cfg p pidx psize) (S.pw p)

/-- `copyRP`: the address query, then the block-copy kernel (44_copy R168). -/
def copyRP (S : Context) (pb : Id) (pidx psize w h : Dim) (p : Plane) (s : State) : Except Fault State :=
  match pixAddr pb p pidx psize (S.extent w h p) s with
  | .error f => .error f
  | .ok (q, s1) => kinvoke (copyRecord s1.cfg S p pidx psize w h q) s1

/-- A residual-to-residual copy over the given planes: the prelude of 44_copy R162, then the active plan. -/
def copyToResidual (planes : List Plane) (ctx a : Id) (pidx psize w h : Dim) (s : State) : Result :=
  let S := s.ctx ctx
  let D := s.ctx a
  if S.ready && D.ready then
    let plan := S.plan planes w h
    let fits (p : Plane) (X : Context) : Bool := X.inBounds s.cfg p pidx psize (S.extent w h p)
    if plan.all fun p => fits p S && fits p D then
      finish (runPhases (copyRR S D pidx psize w h) plan s)
    else raise .dimensionMismatch s
  else raise .invalidState s

/-- A residual-to-pixel copy over the given planes: the prelude of 44_copy R162, then the active plan. -/
def copyToPixel (planes : List Plane) (ctx a : Id) (pidx psize w h : Dim) (s : State) : Result :=
  let S := s.ctx ctx
  if S.ready then
    let plan := S.plan planes w h
    if plan.all fun p => S.inBounds s.cfg p pidx psize (S.extent w h p) then
      finish (runPhases (copyRP S a pidx psize w h) plan s)
    else raise .dimensionMismatch s
  else raise .invalidState s

/-- CPYRL (44_copy R165). -/
def execCpyrl (ctx a : Id) (pidx psize width height : Dim) (s : State) : Result :=
  whenLegal (.cpyrl ctx a pidx psize width height) s <|
    copyToResidual [.y] ctx a pidx psize width height s

/-- CPYRC (44_copy R166). -/
def execCpyrc (ctx a cid : Id) (pidx psize width height : Dim) (s : State) : Result :=
  whenLegal (.cpyrc ctx a cid pidx psize width height) s <|
    copyToResidual (chromaPlanes cid) ctx a pidx psize width height s

/-- CPYRA (44_copy R167). -/
def execCpyra (ctx a : Id) (pidx psize width height : Dim) (s : State) : Result :=
  whenLegal (.cpyra ctx a pidx psize width height) s <|
    copyToResidual allPlanes ctx a pidx psize width height s

/-- CPYPL (44_copy R171). -/
def execCpypl (ctx a : Id) (pidx psize width height : Dim) (s : State) : Result :=
  whenLegal (.cpypl ctx a pidx psize width height) s <|
    copyToPixel [.y] ctx a pidx psize width height s

/-- CPYPC (44_copy R172). -/
def execCpypc (ctx a cid : Id) (pidx psize width height : Dim) (s : State) : Result :=
  whenLegal (.cpypc ctx a cid pidx psize width height) s <|
    copyToPixel (chromaPlanes cid) ctx a pidx psize width height s

/-- CPYPA (44_copy R173). -/
def execCpypa (ctx a : Id) (pidx psize width height : Dim) (s : State) : Result :=
  whenLegal (.cpypa ctx a pidx psize width height) s <|
    copyToPixel allPlanes ctx a pidx psize width height s

end Sys2Proof.Machine
end

