-- ==== Sys2Proof/Machine/Lifecycle.lean ====
section
/-! DEFINITION. CREATE, DESTROY, CLEAR, RDCTX (spec/40_lifecycle.md). -/

namespace Sys2Proof.Machine

/-- The `release` helper: free the three regions, then zero every field (40_lifecycle, before R100). -/
def State.release (s : State) (c : Id) : State :=
  let X := s.ctx c
  (((s.free X.baseY (X.samples .y)).free X.baseCb (X.samples .cb)).free X.baseCr (X.samples .cr)).setCtx c
    Context.uninit

/-- The three bases a CREATE obtained. -/
structure Bases where
  y : Addr
  cb : Addr
  cr : Addr
deriving DecidableEq, Repr

/-- CREATE's three requests in the order Y, Cb, Cr, stopping at the first failure and freeing what was obtained
(40_lifecycle R103, R104). -/
def State.allocThree (s : State) (nY nC : Nat) : Option Bases × State :=
  match s.alloc nY with
  | (none, s1) => (none, s1)
  | (some bY, s1) =>
    match s1.alloc nC with
    | (none, s2) => (none, s2.free bY nY)
    | (some bCb, s2) =>
      match s2.alloc nC with
      | (none, s3) => (none, (s3.free bY nY).free bCb nC)
      | (some bCr, s3) => (some { y := bY, cb := bCb, cr := bCr }, s3)

/-- The chroma width a CREATE derives (40_lifecycle R103). -/
def chromaWidth (row : CspRow) (w : Dim) : Dim := if row.chroma then w >>> row.hShift.toNat else 0

/-- The chroma height a CREATE derives (40_lifecycle R103). -/
def chromaHeight (row : CspRow) (h : Dim) : Dim := if row.chroma then h >>> row.vShift.toNat else 0

/-- The context a successful CREATE leaves (40_lifecycle R103). -/
def createdContext (csp : Id) (row : CspRow) (w h : Dim) (b : Bases) : Context :=
  { ready := true, width := w, height := h, cwidth := chromaWidth row w, cheight := chromaHeight row h,
    hshift := row.hShift, vshift := row.vShift, csp := csp, cpres := row.chroma,
    baseY := b.y, baseCb := b.cb, baseCr := b.cr }

/-- CREATE's effects for a defined colour space (40_lifecycle R103, R104): the state with its response. -/
def State.createWith (s : State) (c csp : Id) (row : CspRow) (w h : Dim) : State :=
  let s0 := if (s.ctx c).ready then s.release c else s
  match s0.allocThree (w.toNat * h.toNat) ((chromaWidth row w).toNat * (chromaHeight row h).toNat) with
  | (some b, s1) => (s1.setCtx c (createdContext csp row w h b)).done
  | (none, s1) => (s1.setCtx c Context.uninit).respond CmdError.allocation.code 0 0

/-- CREATE (40_lifecycle R100 to R105). -/
def execCreate (ctx csp : Id) (width height : Dim) (s : State) : Result :=
  whenLegal (.create ctx csp width height) s <|
    match s.cfg.cspShift csp with
    | some row => .next (s.createWith ctx csp row width height)
    | none => raise .illegalCommand s

/-- DESTROY, idempotent (40_lifecycle R106). -/
def execDestroy (ctx : Id) (s : State) : Result :=
  whenLegal (.destroy ctx) s <|
    .next (if (s.ctx ctx).ready then s.release ctx else s).done

/-- The zeros CLEAR writes to a plane (40_lifecycle R107). -/
def Context.zeroCells (X : Context) (p : Plane) : List (Nat × Sample) :=
  fillCells (X.base p).toNat (X.samples p) 0

/-- CLEAR (40_lifecycle R107). -/
def execClear (ctx : Id) (s : State) : Result :=
  whenLegal (.clear ctx) s <|
    let X := s.ctx ctx
    if X.ready then
      .next (((s.writeR (X.zeroCells .y)).writeR (X.zeroCells .cb)).writeR (X.zeroCells .cr)).done
    else raise .invalidState s

/-- A field of a context, zero-extended to 32 bits (40_lifecycle R112, 10_state R23). -/
def Context.field (X : Context) : CtxField → BitVec 32
  | .ready => if X.ready then 1 else 0
  | .width => X.width.setWidth 32
  | .height => X.height.setWidth 32
  | .cwidth => X.cwidth.setWidth 32
  | .cheight => X.cheight.setWidth 32
  | .hshift => X.hshift.setWidth 32
  | .vshift => X.vshift.setWidth 32
  | .csp => X.csp.setWidth 32
  | .cpres => if X.cpres then 1 else 0
  | .baseY => X.baseY
  | .baseCb => X.baseCb
  | .baseCr => X.baseCr

/-- RDCTX, legal in both states of a context (40_lifecycle R112). -/
def execRdctx (ctx : Id) (field : CtxField) (s : State) : Result :=
  whenLegal (.rdctx ctx field) s <|
    .next (s.respond statusOk ((s.ctx ctx).field field) 0)

end Sys2Proof.Machine
end

