-- ==== Sys2Proof/Machine/Subtract.lean ====
section
/-! DEFINITION. SUB, the subtract dispatcher (spec/42_subtract.md). -/

namespace Sys2Proof.Machine

/-- The record of a SUB phase: luma by size class, chroma by size class and the context's colour space
(42_subtract R141, R143). -/
def subRecord (cfg : Config) (T : Context) (p : Plane) (pidx psize : Dim) (qa qb : Addr × Dim) : KRecord :=
  let dst := T.addr32 cfg p pidx psize
  match p with
  | .y => .subLuma (sizeClass psize) dst (T.pw p) qa.1 qa.2 qb.1 qb.2
  | .cb => .subChroma (sizeClass psize) T.csp dst (T.pw p) qa.1 qa.2 qb.1 qb.2
  | .cr => .subChroma (sizeClass psize) T.csp dst (T.pw p) qa.1 qa.2 qb.1 qb.2

/-- One phase of SUB: the two address queries, then the kernel (42_subtract R141, R142). -/
def subPhase (T : Context) (a b : Id) (pidx psize : Dim) (p : Plane) (s : State) : Except Fault State :=
  let e := T.extent psize psize p
  match pixAddr a p pidx psize e s with
  | .error f => .error f
  | .ok (qa, s1) =>
    match pixAddr b p pidx psize e s1 with
    | .error f => .error f
    | .ok (qb, s2) => kinvoke (subRecord s2.cfg T p pidx psize qa qb) s2

/-- SUB (42_subtract R140 to R146). -/
def execSub (ctx a b : Id) (pidx psize : Dim) (s : State) : Result :=
  whenLegal (.sub ctx a b pidx psize) s <|
    let T := s.ctx ctx
    if T.ready then
      let plan := T.plan allPlanes psize psize
      if plan.all fun p => T.inBounds s.cfg p pidx psize (T.extent psize psize p) then
        finish (runPhases (subPhase T a b pidx psize) plan s)
      else raise .dimensionMismatch s
    else raise .invalidState s

end Sys2Proof.Machine
end

