-- ==== Sys2Proof/Machine/Dispatch.lean ====
section
/-! DEFINITION. One arm per command of RBU-CMD 1.0 (spec/30_encoding.md R75). -/

namespace Sys2Proof.Machine

def exec (i : Instr) (s : State) : Host.Outcome State Fault Refusal :=
  match i with
  | .create ctx csp width height => Sys2Proof.Machine.execCreate ctx csp width height s
  | .destroy ctx => Sys2Proof.Machine.execDestroy ctx s
  | .clear ctx => Sys2Proof.Machine.execClear ctx s
  | .rdctx ctx field => Sys2Proof.Machine.execRdctx ctx field s
  | .addr ctx plane pidx psize => Sys2Proof.Machine.execAddr ctx plane pidx psize s
  | .sub ctx a b pidx psize => Sys2Proof.Machine.execSub ctx a b pidx psize s
  | .addclip ctx a b pidx psize => Sys2Proof.Machine.execAddclip ctx a b pidx psize s
  | .cpyrl ctx a pidx psize width height => Sys2Proof.Machine.execCpyrl ctx a pidx psize width height s
  | .cpyrc ctx a cid pidx psize width height => Sys2Proof.Machine.execCpyrc ctx a cid pidx psize width height s
  | .cpyra ctx a pidx psize width height => Sys2Proof.Machine.execCpyra ctx a pidx psize width height s
  | .cpypl ctx a pidx psize width height => Sys2Proof.Machine.execCpypl ctx a pidx psize width height s
  | .cpypc ctx a cid pidx psize width height => Sys2Proof.Machine.execCpypc ctx a cid pidx psize width height s
  | .cpypa ctx a pidx psize width height => Sys2Proof.Machine.execCpypa ctx a pidx psize width height s

end Sys2Proof.Machine
end

