-- ==== Sys2Proof/Machine/Control.lean ====
section
/-! DEFINITION. The command port and the host's moves between commands (spec/45_external_interfaces.md R191,
spec/20_memory.md R66, spec/70_reset_and_hazards.md R220, R221). -/

namespace Sys2Proof.Machine

/-- The host takes the response, if one is pending (45_external_interfaces R191). -/
def State.takeResponse (s : State) : State :=
  match s.respPort with
  | none => s
  | some r => { s with respPort := none, responses := s.responses ++ [r] }

/-- The state in which the command a move presents begins, the move taken from the list: the port takes a
command only after the response to the previous one has been taken (45_external_interfaces R191,
70_reset_and_hazards R226; log entry 3). -/
def State.accept (s : State) (rest : List HostMove) : State :=
  { s.takeResponse with inputs := rest }

/-- Execute a command word the port has taken: an undecodable one is IllegalCommand (30_encoding R76, R77). -/
def runCommand (w : Command) (s : State) : Result :=
  match decode s.cfg w with
  | .ok i => exec i s
  | .error _ => raise .illegalCommand s

/-- A part of a command word arrives; the command begins with the third (30_encoding R70; log entry 15). -/
def runPart (w : CommandPart) (s : State) : Result :=
  match s.arrived with
  | .none => .next { s with arrived := .one w }
  | .one w2 => .next { s with arrived := .two w2 w }
  | .two w2 w1 => runCommand (joinParts w2 w1 w) { s with arrived := .none }

/-- Reset between commands: every context Uninitialized, no `Free` issued, nothing pending or in progress,
all memory contents unspecified; the platform resets the allocator with the unit
(70_reset_and_hazards R220, R221; log entries 9, 17). -/
def State.resetUnit (s : State) : State :=
  { s with ctxs := Vector.replicate 16 Context.uninit, rmem := [], pmem := [], respPort := none,
           arrived := .none, live := [], rEpoch := s.rEpoch + 1, pEpoch := s.pEpoch + 1 }

/-- One host move, already taken from the list of coming moves. -/
def runMove (m : HostMove) (s : State) (rest : List HostMove) : Result :=
  match m with
  | .command w => runCommand w (s.accept rest)
  | .commandPart w => runPart w (s.accept rest)
  | .takeResponse => .next { s.takeResponse with inputs := rest }
  | .writeResidual a v =>
    if s.owned a.toNat then .next { s.writeR [(a.toNat, v)] with inputs := rest }
    else .fault .hostAccessOutsideLiveRegion
  | .readResidual a =>
    if s.owned a.toNat then .next { s with inputs := rest }
    else .fault .hostAccessOutsideLiveRegion
  | .writePixel a v => .next { s.writeP [(a.toNat, truncTo s.cfg.pixw v)] with inputs := rest }
  | .setPixelBuffer pb d => .next { s.setPbuf pb d with inputs := rest }
  | .reset => .next { s.resetUnit with inputs := rest }

/-- One step: the host's next move, or idleness, which keeps all state (60_exceptions R212; log entry 16). -/
def stepMove (s : State) : Result :=
  match s.inputs with
  | [] => .next s
  | m :: rest => runMove m s rest

/-- Put a command first among the host's coming moves. -/
def State.presentFirst (s : State) (w : Command) : State :=
  { s with inputs := .command w :: s.inputs }

end Sys2Proof.Machine
end

