-- ==== Sys2Proof/Safety.lean ====
section
/-! DEFINITION. The terms claims are stated in: rectangles of cells (spec/41_addressing.md R129), the invariant of
the machine (spec/10_state.md R32 to R34, spec/20_memory.md R51), and the replay of a port trace on the allocator's record
(spec/45_external_interfaces.md R193). -/

namespace Sys2Proof.Machine

/-- `a` is a cell of `Rect(A, S, e.w, e.h)` (41_addressing R129). -/
abbrev InRect (A S : Nat) (e : Extent) (a : Nat) : Prop :=
  ∃ y < e.h, ∃ x < e.w, a = A + y * S + x

/-- `a` is a cell of the rectangle of plane `p` of `X` that a command addresses, its extent taken from `T`. -/
abbrev Context.rectHas (cfg : Config) (X : Context) (p : Plane) (pidx psize : Dim) (e : Extent) (a : Nat) : Prop :=
  InRect (X.addr cfg p pidx psize) (X.pw p).toNat e a

/-- The region of a plane of a context (10_state R29, R30). -/
def Context.region (X : Context) (p : Plane) : Region := { base := X.base p, size := X.samples p }

/-- The regions a context holds: three while Ready, else none (10_state R33). -/
def Context.regions (X : Context) : List Region :=
  if X.ready then [X.region .y, X.region .cb, X.region .cr] else []

/-- The regions all contexts hold. -/
def State.held (s : State) : List Region := s.ctxs.toList.flatMap Context.regions

/-- What CREATE and DESTROY leave in a context: all zero while Uninitialized (10_state R34); while Ready, the shifts
and CPRES of its colour space and the derived chroma dimensions (10_state R26, R27, R31). -/
abbrev Context.Ok (cfg : Config) (X : Context) : Prop :=
  if X.ready = true then
    cfg.cspShift X.csp = some { hShift := X.hshift, vShift := X.vshift, chroma := X.cpres } ∧
      X.cwidth = (if X.cpres then X.width >>> X.hshift.toNat else 0) ∧
      X.cheight = (if X.cpres then X.height >>> X.vshift.toNat else 0)
  else X = Context.uninit

/-- The invariant every step keeps. -/
structure State.Inv (s : State) : Prop where
  /-- Every context is as CREATE and DESTROY leave it. -/
  ctxOk : ∀ c : Id, (s.ctx c).Ok s.cfg
  /-- RMEM is in canonical form. -/
  rmemWf : s.rmem.wf
  /-- PMEM is in canonical form. -/
  pmemWf : s.pmem.wf
  /-- PMEM cells exist and hold PIXW bits (20_memory R50, R52). -/
  pmemCells : ∀ e ∈ s.pmem, e.1 < spaceSize ∧ e.2.toNat < 2 ^ s.cfg.pixw
  /-- The regions the allocator holds live are exactly those the contexts hold: none leaks (10_state R33). -/
  liveHeld : s.live.Perm s.held
  /-- Live regions share no cell (45_external_interfaces R192). -/
  liveApart : s.live.Pairwise fun q r => q.disjoint r = true
  /-- Live regions lie inside RMEM (45_external_interfaces R192). -/
  liveFits : ∀ r ∈ s.live, r.fits = true
  /-- Only cells of live regions are known (20_memory R51, R55). -/
  rmemLive : ∀ e ∈ s.rmem, ∃ r ∈ s.live, r.contains e.1 = true

/-- The bounds check of a command for one context, over the planes it works on (41_addressing R130). -/
def State.boundsOk (s : State) (X T : Context) (planes : List Plane) (pidx psize w h : Dim) : Bool :=
  (T.plan planes w h).all fun p => X.inBounds s.cfg p pidx psize (T.extent w h p)

/-- The allocator's record after a port trace: `Alloc` adds the region given out, `Free` must name a live region
and removes it; none where a `Free` names no live region (45_external_interfaces R193). -/
def replay : List Region → List PortEvent → Option (List Region)
  | live, [] => some live
  | live, .alloc n (some b) :: es => replay ({ base := b, size := n } :: live) es
  | live, .alloc _ none :: es => replay live es
  | live, .free b n :: es =>
    if ({ base := b, size := n } : Region) ∈ live then replay (live.erase { base := b, size := n }) es else none
  | live, .pixAddr .. :: es => replay live es
  | live, .kinvoke _ :: es => replay live es

end Sys2Proof.Machine
end

