-- ==== Sys2Proof/Certificates/Slice0/Obligations.lean ====
section
/-! DEFINITION. The statements for the provers, each `def Obligations.<Name> : Prop`. Reset and decoding first, then
each command's effect with its frame, then the errors, then the whole-machine rules. -/

open Sys2Proof Sys2Proof.Machine

namespace Sys2Proof.Claims

/-- A row of spec/opcode_table.json: the pattern and mask of its 96-bit words. -/
structure TableRow where
  pattern : Command
  mask : Command
deriving DecidableEq, Repr

/-- spec/opcode_table.json, in its order: CREATE, DESTROY, CLEAR, RDCTX, ADDR, SUB, ADDCLIP, CPYRL, CPYRC, CPYRA,
CPYPL, CPYPC, CPYPA. -/
def opcodeTable : List TableRow :=
  [ ⟨0x010000000000000000000000, 0xFF0FF0FF00000000FFFFFFFF⟩,
    ⟨0x020000000000000000000000, 0xFF0FFFFFFFFFFFFFFFFFFFFF⟩,
    ⟨0x030000000000000000000000, 0xFF0FFFFFFFFFFFFFFFFFFFFF⟩,
    ⟨0x040000000000000000000000, 0xFF0FF0FFFFFFFFFFFFFFFFFF⟩,
    ⟨0x080000000000000000000000, 0xFF0FF0FFFFFFFFFF00000000⟩,
    ⟨0x100000000000000000000000, 0xFF000FFFFFFFFFFF00000000⟩,
    ⟨0x110000000000000000000000, 0xFF000FFFFFFFFFFF00000000⟩,
    ⟨0x200000000000000000000000, 0xFF00FFFF0000000000000000⟩,
    ⟨0x210000000000000000000000, 0xFF00F0FF0000000000000000⟩,
    ⟨0x220000000000000000000000, 0xFF00FFFF0000000000000000⟩,
    ⟨0x240000000000000000000000, 0xFF00FFFF0000000000000000⟩,
    ⟨0x250000000000000000000000, 0xFF00F0FF0000000000000000⟩,
    ⟨0x260000000000000000000000, 0xFF00FFFF0000000000000000⟩ ]

/-- The operand ranges of 30_encoding R76 (c), (d), (e), read from a word's bits by its opcode. -/
def rangesOk (cfg : Config) (w : Command) : Prop :=
  let op := (w.extractLsb' 88 8).toNat
  let ctx := (w.extractLsb' 84 4).toNat
  let a := (w.extractLsb' 80 4).toNat
  let b := (w.extractLsb' 76 4).toNat
  let sel := w.extractLsb' 72 4
  let psize := (w.extractLsb' 16 16).toNat
  ctx < cfg.nctx ∧
    (op ∈ [0x11, 0x20, 0x21, 0x22] → a < cfg.nctx) ∧
    (op = 0x11 → b < cfg.nctx) ∧
    (op = 0x01 → cfg.cspShift sel ≠ none) ∧
    (op = 0x04 → sel.toNat ≤ 11) ∧
    (op = 0x08 → sel.toNat ≤ 2) ∧
    (op = 0x10 → psize ∈ [4, 8, 16, 32, 64])

/-- The residual contexts a command needs Ready (60_exceptions R203). -/
def needsReady : Instr → List Id
  | .create .. => []
  | .destroy _ => []
  | .rdctx .. => []
  | .clear c => [c]
  | .addr c _ _ _ => [c]
  | .sub c _ _ _ _ => [c]
  | .addclip c a b _ _ => [c, a, b]
  | .cpyrl c a _ _ _ _ => [c, a]
  | .cpyrc c a _ _ _ _ _ => [c, a]
  | .cpyra c a _ _ _ _ => [c, a]
  | .cpypl c _ _ _ _ _ => [c]
  | .cpypc c _ _ _ _ _ _ => [c]
  | .cpypa c _ _ _ _ _ => [c]

/-- The channel plan of 44_copy R161 for a `chromaId`. -/
def channels (cid : Id) : List Plane :=
  if cid = 0 then [.cb] else if cid = 1 then [.cr] else [.cb, .cr]

/-- The residual-to-residual copies with their channel plans (44_copy R161). -/
def residualCopies (c a cid : Id) (pidx psize w h : Dim) : List (Instr × List Plane) :=
  [ (.cpyrl c a pidx psize w h, [.y]),
    (.cpyrc c a cid pidx psize w h, channels cid),
    (.cpyra c a pidx psize w h, [.y, .cb, .cr]) ]

/-- The residual-to-pixel copies with their channel plans (44_copy R161). -/
def pixelCopies (c a cid : Id) (pidx psize w h : Dim) : List (Instr × List Plane) :=
  [ (.cpypl c a pidx psize w h, [.y]),
    (.cpypc c a cid pidx psize w h, channels cid),
    (.cpypa c a pidx psize w h, [.y, .cb, .cr]) ]

/-- A cell of the rectangle a pixel buffer's plane answers for (45_external_interfaces R189). -/
def pixelRectHas (cfg : Config) (d : PixelBuffer) (p : Plane) (pidx psize : Dim) (e : Extent) (a : Nat) : Prop :=
  InRect (d.pointer cfg p pidx psize) (d.plane p).stride.toNat e a

/-- Why a query of pixel buffer `pb` for a command of `T` faults: a plane is active and the id names no live buffer,
or the rectangle of some active plane is not in the buffer's plane (93_implementation_defined U3). -/
def pixelFault (s : State) (T : Context) (pb : Id) (planes : List Plane) (pidx psize w h : Dim) (f : Fault) : Prop :=
  (f = .noPixelBuffer ∧ s.pbuf pb = none ∧ T.plan planes w h ≠ []) ∨
    (f = .pixelRectOutsidePlane ∧ ∃ d, s.pbuf pb = some d ∧ ∃ p ∈ T.plan planes w h,
      d.holds s.cfg p pidx psize (T.extent w h p) = false)

/-- The source context, the pixel buffer and the partition of a residual-to-pixel copy. -/
def copyOperands : Instr → Option (Id × Id × Dim × Dim)
  | .cpypl c a pidx psize _ _ => some (c, a, pidx, psize)
  | .cpypc c a _ pidx psize _ _ => some (c, a, pidx, psize)
  | .cpypa c a pidx psize _ _ => some (c, a, pidx, psize)
  | _ => none

/-- What the RMEM side of a kernel record must be, for plane `p` of context `c` (45_external_interfaces R183 a): the
context is Ready, the rectangle is not empty and passed the bounds check, the address is that of its top-left
sample, the stride the plane's, and every cell of the rectangle lies in the plane's region. -/
def residualSide (s : State) (c : Id) (p : Plane) (pidx psize : Dim) (addr : Addr) (stride : Dim) (e : Extent) :
    Prop :=
  (s.ctx c).ready = true ∧ 0 < e.w ∧ 0 < e.h ∧ (s.ctx c).inBounds s.cfg p pidx psize e = true ∧
    addr.toNat = (s.ctx c).addr s.cfg p pidx psize ∧ stride = (s.ctx c).pw p ∧
    ∀ a, InRect addr.toNat stride.toNat e a → ((s.ctx c).region p).contains a = true

/-- The guarantees of 45_external_interfaces R183 for a record of command `i`, the command having made the port
requests `new`: RMEM sides are checked rectangles of the contexts the command names, PMEM sides are answers of the
pixel-buffer port for the command's partition and the phase's plane, the class is that of the command's size, the
colour space the context's, no rectangle is empty. -/
def recordGuaranteed (s : State) (i : Instr) (new : List PortEvent) : KRecord → Prop
  | .subLuma cls dst dstStride srcA strideA srcB strideB =>
    ∃ c a b pidx psize, i = .sub c a b pidx psize ∧
      psize.toNat ∈ [4, 8, 16, 32, 64] ∧ psize.toNat = 2 ^ (cls.toNat + 2) ∧
      residualSide s c .y pidx psize dst dstStride { w := psize.toNat, h := psize.toNat } ∧
      .pixAddr a .y pidx psize srcA strideA ∈ new ∧ .pixAddr b .y pidx psize srcB strideB ∈ new
  | .subChroma cls csp dst dstStride srcA strideA srcB strideB =>
    ∃ c a b pidx psize p, i = .sub c a b pidx psize ∧ p ≠ .y ∧
      psize.toNat ∈ [4, 8, 16, 32, 64] ∧ psize.toNat = 2 ^ (cls.toNat + 2) ∧ csp = (s.ctx c).csp ∧
      residualSide s c p pidx psize dst dstStride
        { w := psize.toNat >>> (s.ctx c).hshift.toNat, h := psize.toNat >>> (s.ctx c).vshift.toNat } ∧
      .pixAddr a p pidx psize srcA strideA ∈ new ∧ .pixAddr b p pidx psize srcB strideB ∈ new
  | .add w h dst dstStride srcA strideA srcB strideB =>
    ∃ c a b pidx psize p, i = .addclip c a b pidx psize ∧
      residualSide s c p pidx psize dst dstStride { w := w.toNat, h := h.toNat } ∧
      residualSide s a p pidx psize srcA strideA { w := w.toNat, h := h.toNat } ∧
      residualSide s b p pidx psize srcB strideB { w := w.toNat, h := h.toNat }
  | .copy w h dst dstStride src srcStride =>
    ∃ c pb pidx psize p, copyOperands i = some (c, pb, pidx, psize) ∧
      residualSide s c p pidx psize src srcStride { w := w.toNat, h := h.toNat } ∧
      .pixAddr pb p pidx psize dst dstStride ∈ new

end Sys2Proof.Claims

open Sys2Proof.Claims

/-! ### Reset, the command port, decoding -/

/-- 10_state R37, 70_reset_and_hazards R220: every context Uninitialized with all fields 0, no region held, no
command in progress, no response pending, nothing known of any cell. -/
def Obligations.ResetLeavesTheUnitUninitialized : Prop :=
  (∀ c, State.reset.ctx c =
      { ready := false, width := 0, height := 0, cwidth := 0, cheight := 0, hshift := 0, vshift := 0, csp := 0,
        cpres := false, baseY := 0, baseCb := 0, baseCr := 0 }) ∧
    State.reset.live = [] ∧ State.reset.arrived = .none ∧ State.reset.respPort = none ∧
    (∀ a, State.reset.rmem.read? a = none) ∧ ∀ a, State.reset.pmem.read? a = none

/-- The invariant of Safety.lean holds right after reset. -/
def Obligations.ResetMeetsTheInvariant : Prop := State.reset.Inv

/-- A step runs the decoded command: when the host's next move presents a word that decodes, as a whole or as the
last of its three parts, step is exec of that instruction in the state in which the port has taken the command (the
move is gone, the pending response has been taken). The last clause says it of withFetchWord. How the host's moves
come to the machine is the model's choice (log entry 3). -/
def Obligations.StepRunsTheDecodedCommand : Prop :=
  ∀ (s : State) (rest : List HostMove) (i : Instr),
    (∀ w, s.inputs = .command w :: rest → decode s.cfg w = .ok i →
      step s = exec i { s with
        inputs := rest, respPort := none, responses := s.responses ++ s.respPort.toList }) ∧
    (∀ w2 w1 w0, s.inputs = .commandPart w0 :: rest → s.arrived = .two w2 w1 →
      decode s.cfg (w2 ++ w1 ++ w0) = .ok i →
      step s = exec i { s with
        inputs := rest, arrived := .none, respPort := none,
        responses := s.responses ++ s.respPort.toList }) ∧
    (∀ nbits w, decode s.cfg (BitVec.ofNat 96 (w % 2 ^ nbits)) = .ok i →
      step (s.withFetchWord nbits w) =
        exec i { s with respPort := none, responses := s.responses ++ s.respPort.toList })

/-- 30_encoding R70: on a 32-bit path the command begins when W2, W1 and W0 have all arrived, not before. That the
first part takes the pending response is the model's reading of 45_external_interfaces R191 (log entry 3), the
places the parts wait in are the model's (log entry 15). -/
def Obligations.ThreePartsMakeOneCommand : Prop :=
  ∀ (s : State) (w2 w1 w0 : CommandPart) (rest : List HostMove) (i : Instr), s.arrived = .none →
    s.inputs = .commandPart w2 :: .commandPart w1 :: .commandPart w0 :: rest →
    decode s.cfg (w2 ++ w1 ++ w0) = .ok i →
    Sys2Proof.core.run 2 s = .next { s with
      inputs := .commandPart w0 :: rest, arrived := .two w2 w1, respPort := none,
      responses := s.responses ++ s.respPort.toList } ∧
    Sys2Proof.core.run 3 s = exec i { s with
      inputs := rest, respPort := none, responses := s.responses ++ s.respPort.toList }

/-- 60_exceptions R201 with 30_encoding R76: a word that does not decode, presented whole or as three parts
(30_encoding R70), and an instruction that is not well formed, answer status 4 and change nothing else. The last
clause is the model's choice (log entry 14). -/
def Obligations.IllegalCommandHasNoEffect : Prop :=
  (∀ (s : State) (w : Command) (rest : List HostMove) (e : DecodeError),
    s.inputs = .command w :: rest → decode s.cfg w = .error e →
    step s = .next { s with
      inputs := rest, respPort := some 0x4000000000000000,
      responses := s.responses ++ s.respPort.toList }) ∧
  (∀ (s : State) (w2 w1 w0 : CommandPart) (rest : List HostMove) (e : DecodeError),
    s.inputs = .commandPart w0 :: rest → s.arrived = .two w2 w1 → decode s.cfg (w2 ++ w1 ++ w0) = .error e →
    step s = .next { s with
      inputs := rest, arrived := .none, respPort := some 0x4000000000000000,
      responses := s.responses ++ s.respPort.toList }) ∧
  ∀ (s : State) (i : Instr), i.wf s.cfg = false →
    exec i s = .next { s with respPort := some 0x4000000000000000 }

/-- Decode and encode agree: a well-formed command's word decodes to it, every operand at every value. -/
def Obligations.DecodeOfEncodeIsTheCommand : Prop :=
  ∀ (cfg : Config) (i : Instr), i.wf cfg = true → decode cfg (encode i) = .ok i

/-- Encode and decode agree: a word that decodes to a command is that command's one word, and the command is well
formed. So no bit of a legal word is dropped. -/
def Obligations.EncodeOfDecodeIsTheWord : Prop :=
  ∀ (cfg : Config) (w : Command) (i : Instr), decode cfg w = .ok i → i.wf cfg = true ∧ encode i = w

/-- 30_encoding R76, over spec/opcode_table.json: a word is legal exactly when it matches a row of the table (the
opcode, and 0 in every unused field) and its ids, selector and size are in range. -/
def Obligations.LegalWordsMatchTheOpcodeTable : Prop :=
  ∀ (cfg : Config) (w : Command),
    (∃ i, decode cfg w = .ok i) ↔
      (∃ r ∈ opcodeTable, w &&& r.mask = r.pattern) ∧ rangesOk cfg w

/-- 30_encoding R80 and 95_test_vectors: words written out from the encoding tables decode to their commands. -/
def Obligations.WrittenWordsDecode : Prop :=
  decode Config.reference 0x100120000000000000100000 = .ok (.sub 0 1 2 0 16) ∧
    decode Config.reference 0x010001000010001000000000 = .ok (.create 0 1 16 16) ∧
    decode Config.reference 0x081001000000000000100005 = .ok (.addr 1 .cb 5 16) ∧
    decode Config.reference 0x112010000000000000040001 = .ok (.addclip 2 0 1 1 4) ∧
    decode Config.reference 0x210101000008001000100005 = .ok (.cpyrc 0 1 1 5 16 16 8) ∧
    decode Config.reference 0x260300000008001000100005 = .ok (.cpypa 0 3 5 16 16 8)

/-- 30_encoding R73: every command word that ends in a next state answers one response; its reserved field is 0;
with status not 0, value and aux are 0; with status OK, value and aux are ADDR's address and stride, RDCTX's field,
else 0; the status is at most 4. -/
def Obligations.EveryCommandAnswersOneResponse : Prop :=
  ∀ (s t : State) (w : Command), runCommand w s = .next t →
    t.responses = s.responses ∧
    ∃ r, t.respPort = some r ∧ r.extractLsb' 48 12 = (0 : BitVec 12) ∧ (r.extractLsb' 60 4 : BitVec 4).toNat ≤ 4 ∧
      (r.extractLsb' 60 4 ≠ (0 : BitVec 4) → r.extractLsb' 0 48 = (0 : BitVec 48)) ∧
      (r.extractLsb' 60 4 = (0 : BitVec 4) →
        match decode s.cfg w with
        | .ok (.addr c p pidx psize) =>
          r.extractLsb' 0 32 = (s.ctx c).addr32 s.cfg p pidx psize ∧ r.extractLsb' 32 16 = (s.ctx c).pw p
        | .ok (.rdctx c f) =>
          r.extractLsb' 0 32 = (s.ctx c).field f ∧ r.extractLsb' 32 16 = (0 : BitVec 16)
        | _ => r.extractLsb' 0 48 = (0 : BitVec 48))

/-! ### The address unit -/

/-- 41_addressing R123: the reference map; where the size divides the grid width, the familiar raster. The worked
values are the rule's. -/
def Obligations.ReferenceMapIsTheRaster : Prop :=
  (∀ (cfg : Config) (g : Nat) (pidx psize : Dim), cfg.partMap = .raster g →
    rowOf cfg pidx psize = pidx.toNat * psize.toNat / g * psize.toNat ∧
    colOf cfg pidx psize = pidx.toNat * psize.toNat % g ∧
    (psize = 0 → 0 < g → rowOf cfg pidx psize = 0 ∧ colOf cfg pidx psize = 0) ∧
    ∀ n, 0 < psize.toNat → g = n * psize.toNat →
      rowOf cfg pidx psize = pidx.toNat / n * psize.toNat ∧
      colOf cfg pidx psize = pidx.toNat % n * psize.toNat) ∧
  Config.reference.partMap = .raster 64 ∧
  [(0, 16), (1, 16), (4, 16), (5, 16), (15, 16), (16, 16), (3, 8), (9, 8), (2, 32), (3, 32), (1, 64), (255, 4),
    (3, 24)].map (fun q : Dim × Dim => (rowOf Config.reference q.1 q.2, colOf Config.reference q.1 q.2)) =
  [(0, 0), (0, 16), (16, 0), (16, 16), (48, 48), (64, 0), (0, 24), (8, 8), (32, 0), (32, 32), (64, 0), (60, 60),
    (24, 8)]

/-- 41_addressing R130, last part: every cell of a non-empty rectangle that passes the bounds check lies inside the
region of its plane. -/
def Obligations.InBoundsRectangleLiesInItsRegion : Prop :=
  ∀ (cfg : Config) (X : Context) (p : Plane) (pidx psize : Dim) (e : Extent) (a : Nat),
    X.inBounds cfg p pidx psize e = true → X.rectHas cfg p pidx psize e a →
    (X.base p).toNat ≤ a ∧ a < (X.base p).toNat + (X.pw p).toNat * (X.ph p).toNat

/-- Where a luma rectangle fits a created context's luma plane, the chroma rectangle of the same command fits its
chroma planes (41_addressing R125, R127 with 10_state R26). -/
def Obligations.LumaBoundsImplyChromaBounds : Prop :=
  ∀ (cfg : Config) (X : Context) (p : Plane) (pidx psize w h : Dim),
    X.Ok cfg → X.ready = true → X.cpres = true →
    X.inBounds cfg .y pidx psize (X.extent w h .y) = true →
    X.inBounds cfg p pidx psize (X.extent w h p) = true

/-- 41_addressing R135: with the same shifts, the unit and the Pixel Buffer address the same plane coordinates. -/
def Obligations.PixelBufferAddressesTheSameCoordinates : Prop :=
  ∀ (cfg : Config) (X : Context) (d : PixelBuffer) (p : Plane) (pidx psize : Dim),
    d.hShift = X.hshift → d.vShift = X.vshift →
    d.row cfg p pidx psize = X.row cfg p pidx psize ∧ d.col cfg p pidx psize = X.col cfg p pidx psize

/-- 20_memory R67: any two rectangles of one phase that passed the bounds check, of contexts of the unit, are the
same cells at the same addresses or share no cell. -/
def Obligations.RectanglesOfOnePhaseCoincideOrAreDisjoint : Prop :=
  ∀ (s : State) (c d : Id) (p : Plane) (pidx psize : Dim) (e : Extent), s.Inv →
    (s.ctx c).ready = true → (s.ctx d).ready = true →
    (s.ctx c).inBounds s.cfg p pidx psize e = true → (s.ctx d).inBounds s.cfg p pidx psize e = true →
    ((s.ctx c).addr s.cfg p pidx psize = (s.ctx d).addr s.cfg p pidx psize ∧ (s.ctx c).pw p = (s.ctx d).pw p) ∨
      ∀ a, ¬ ((s.ctx c).rectHas s.cfg p pidx psize e a ∧ (s.ctx d).rectHas s.cfg p pidx psize e a)

/-- 41_addressing R133: ADDR answers the exact address and the stride for a point of the plane, and changes nothing
else. -/
def Obligations.AddrAnswersTheAddress : Prop :=
  ∀ (s : State) (c : Id) (p : Plane) (pidx psize : Dim), s.Inv → c.toNat < s.cfg.nctx →
    (s.ctx c).ready = true →
    (s.ctx c).row s.cfg p pidx psize < ((s.ctx c).ph p).toNat →
    (s.ctx c).col s.cfg p pidx psize < ((s.ctx c).pw p).toNat →
    ∃ v : BitVec 32,
      v.toNat = ((s.ctx c).base p).toNat +
        (rowOf s.cfg pidx psize >>> (s.ctx c).vs p) * ((s.ctx c).pw p).toNat +
        colOf s.cfg pidx psize >>> (s.ctx c).hs p ∧
      exec (.addr c p pidx psize) s =
        .next { s with respPort := some (packResponse 0 v ((s.ctx c).pw p)) }

/-! ### Lifecycle -/

/-- 40_lifecycle R103: CREATE with a defined colour space, the allocator granting the three requests. A Ready
context's old regions are freed first (R105 a). The new regions' cells are unspecified (20_memory R55). The
allocator's answers stand in the model's script (log entry 8). -/
def Obligations.CreateMakesTheContextReady : Prop :=
  ∀ (s s0 : State) (c csp : Id) (w h : Dim) (row : CspRow) (bY bCb bCr : Addr) (rest : List (Option Addr)),
    c.toNat < s.cfg.nctx → s.cfg.cspShift csp = some row →
    s0 = (if (s.ctx c).ready then s.release c else s) →
    s.allocScript = some bY :: some bCb :: some bCr :: rest →
    ∀ cw ch : Dim, cw = (if row.chroma then w >>> row.hShift.toNat else 0) →
    ch = (if row.chroma then h >>> row.vShift.toNat else 0) →
    ∀ rY rCb rCr : Region, rY = { base := bY, size := w.toNat * h.toNat } →
    rCb = { base := bCb, size := cw.toNat * ch.toNat } → rCr = { base := bCr, size := cw.toNat * ch.toNat } →
    (rY.fits = true ∧ rCb.fits = true ∧ rCr.fits = true) →
    (rCb.disjoint rY = true ∧ rCr.disjoint rCb = true ∧ rCr.disjoint rY = true) →
    (∀ q ∈ s0.live, rY.disjoint q = true ∧ rCb.disjoint q = true ∧ rCr.disjoint q = true) →
    ∃ t, exec (.create c csp w h) s = .next t ∧ t.respPort = some 0 ∧
      t.ctx c = { ready := true, width := w, height := h, cwidth := cw, cheight := ch, hshift := row.hShift,
                  vshift := row.vShift, csp := csp, cpres := row.chroma, baseY := bY, baseCb := bCb,
                  baseCr := bCr } ∧
      (∀ d, d ≠ c → t.ctx d = s.ctx d) ∧
      t.trace = s0.trace ++ [.alloc rY.size (some bY), .alloc rCb.size (some bCb), .alloc rCr.size (some bCr)] ∧
      t.live = rCr :: rCb :: rY :: s0.live ∧ t.allocScript = rest ∧
      (∀ a, (rY.contains a || rCb.contains a || rCr.contains a) = true → t.rmem.read? a = none) ∧
      (∀ a, (rY.contains a || rCb.contains a || rCr.contains a) = false →
        t.rmem.read? a = s0.rmem.read? a) ∧
      t = { s with
        ctxs := t.ctxs, respPort := t.respPort, trace := t.trace, live := t.live, allocScript := t.allocScript,
        rmem := t.rmem, allocCount := t.allocCount, rEpoch := t.rEpoch }

/-- 40_lifecycle R104, 60_exceptions R202: whichever of CREATE's requests fails, what it obtained is freed again,
the context is Uninitialized, no cell is written, and the answer is AllocationError. In a state that meets the
invariant every cell's contents are those after the release of the old regions. -/
def Obligations.CreateFailureLeavesTheContextUninitialized : Prop :=
  ∀ (s s0 : State) (c csp : Id) (w h : Dim) (row : CspRow),
    c.toNat < s.cfg.nctx → s.cfg.cspShift csp = some row →
    s0 = (if (s.ctx c).ready then s.release c else s) →
    (s0.allocThree (w.toNat * h.toNat) ((chromaWidth row w).toNat * (chromaHeight row h).toNat)).1 = none →
    ∃ t, exec (.create c csp w h) s = .next t ∧ t.respPort = some 0x1000000000000000 ∧
      t.ctx c = Context.uninit ∧ (∀ d, d ≠ c → t.ctx d = s.ctx d) ∧ t.live = s0.live ∧
      (∃ nY nC : Nat, ∃ bY bCb : Addr, nY = w.toNat * h.toNat ∧
        nC = (chromaWidth row w).toNat * (chromaHeight row h).toNat ∧
        (t.trace = s0.trace ++ [.alloc nY none] ∨
          t.trace = s0.trace ++ [.alloc nY (some bY), .alloc nC none, .free bY nY] ∨
          t.trace = s0.trace ++ [.alloc nY (some bY), .alloc nC (some bCb), .alloc nC none, .free bY nY,
            .free bCb nC])) ∧
      (s.Inv → ∀ a, t.rmem.read? a = s0.rmem.read? a) ∧
      (∀ a, t.rmem.read? a = s0.rmem.read? a ∨ t.rmem.read? a = none) ∧
      t = { s with
        ctxs := t.ctxs, respPort := t.respPort, trace := t.trace, live := t.live, allocScript := t.allocScript,
        rmem := t.rmem, allocCount := t.allocCount, rEpoch := t.rEpoch }

/-- A legal CREATE always completes, with OK or AllocationError (40_lifecycle R103, R104), whatever the allocator
answers; OK exactly when the context ends Ready. -/
def Obligations.CreateAlwaysAnswers : Prop :=
  ∀ (s : State) (c csp : Id) (w h : Dim), (Instr.create c csp w h).wf s.cfg = true →
    ∃ t, exec (.create c csp w h) s = .next t ∧
      ((t.respPort = some 0 ∧ (t.ctx c).ready = true) ∨
        (t.respPort = some 0x1000000000000000 ∧ t.ctx c = Context.uninit))

/-- 40_lifecycle R106: DESTROY of a Ready context frees its three regions, zeroes its fields and forgets its cells;
of an Uninitialized one it does nothing; the answer is OK. -/
def Obligations.DestroyFreesTheThreeRegions : Prop :=
  ∀ (s : State) (c : Id), c.toNat < s.cfg.nctx →
    ((s.ctx c).ready = false → exec (.destroy c) s = .next { s with respPort := some 0 }) ∧
    ((s.ctx c).ready = true → ∃ t, exec (.destroy c) s = .next t ∧ t.respPort = some 0 ∧
      t.ctx c = Context.uninit ∧ (∀ d, d ≠ c → t.ctx d = s.ctx d) ∧
      t.trace = s.trace ++
        [.free (s.ctx c).baseY ((s.ctx c).width.toNat * (s.ctx c).height.toNat),
         .free (s.ctx c).baseCb ((s.ctx c).cwidth.toNat * (s.ctx c).cheight.toNat),
         .free (s.ctx c).baseCr ((s.ctx c).cwidth.toNat * (s.ctx c).cheight.toNat)] ∧
      t.live = ((s.live.erase ((s.ctx c).region .y)).erase ((s.ctx c).region .cb)).erase ((s.ctx c).region .cr) ∧
      (∀ a, t.rmem.read? a = if (s.ctx c).regions.any (fun r => r.contains a) then none else s.rmem.read? a) ∧
      t = { s with
        ctxs := t.ctxs, respPort := t.respPort, trace := t.trace, live := t.live, rmem := t.rmem,
        rEpoch := t.rEpoch })

/-- 40_lifecycle R107: CLEAR of a Ready context writes 0 to every cell of its three regions and to no other. -/
def Obligations.ClearZeroesTheThreePlanes : Prop :=
  ∀ (s : State) (c : Id), c.toNat < s.cfg.nctx → (s.ctx c).ready = true →
    ∃ t, exec (.clear c) s = .next t ∧ t = { s with rmem := t.rmem, respPort := some 0 } ∧
      (∀ a, (s.ctx c).regions.any (fun r => r.contains a) = true → t.rmem.read? a = some 0) ∧
      (∀ a, (s.ctx c).regions.any (fun r => r.contains a) = false → t.rmem.read? a = s.rmem.read? a)

/-- 40_lifecycle R112, 10_state R23: RDCTX answers the field its index names, zero-extended, in both lifecycle
states, and changes nothing else. -/
def Obligations.RdctxReadsTheIndexedField : Prop :=
  ∀ (s : State) (c : Id), c.toNat < s.cfg.nctx → ∀ n : Fin 12, ∃ f v,
    decode s.cfg (0x04#8 ++ c ++ 0#8 ++ BitVec.ofNat 4 n.val ++ 0#72) = .ok (.rdctx c f) ∧
    exec (.rdctx c f) s = .next { s with respPort := some (0#32 ++ v) } ∧
    [cond (s.ctx c).ready 1 0, (s.ctx c).width.toNat, (s.ctx c).height.toNat, (s.ctx c).cwidth.toNat,
      (s.ctx c).cheight.toNat, (s.ctx c).hshift.toNat, (s.ctx c).vshift.toNat, (s.ctx c).csp.toNat,
      cond (s.ctx c).cpres 1 0, (s.ctx c).baseY.toNat, (s.ctx c).baseCb.toNat,
      (s.ctx c).baseCr.toNat][n.val]? = some (v : BitVec 32).toNat

/-! ### SUB and ADDCLIP -/

/-- 42_subtract R145: SUB with every check passed and the pixel rectangles in their planes completes: each sample of
each active plane's rectangle is the exact difference of the two pixel samples, always for PIXW up to 15, for PIXW
16 where it fits 16 bits (where it does not, what is stored is unspecified), every other cell keeps its contents,
nothing else but the ports' trace, the response and the model's counter changes. -/
def Obligations.SubStoresTheDifference : Prop :=
  ∀ (s : State) (c a b : Id) (pidx psize : Dim) (dA dB : PixelBuffer), s.Inv →
    (Instr.sub c a b pidx psize).wf s.cfg = true → (s.ctx c).ready = true →
    s.boundsOk (s.ctx c) (s.ctx c) [.y, .cb, .cr] pidx psize psize psize = true →
    s.pbuf a = some dA → s.pbuf b = some dB →
    (∀ p ∈ (s.ctx c).plan [.y, .cb, .cr] psize psize,
      dA.holds s.cfg p pidx psize ((s.ctx c).extent psize psize p) = true ∧
      dB.holds s.cfg p pidx psize ((s.ctx c).extent psize psize p) = true) →
    ∃ t, exec (.sub c a b pidx psize) s = .next t ∧
      t = { s with rmem := t.rmem, draws := t.draws, trace := t.trace, respPort := some 0 } ∧
      (∀ p ∈ (s.ctx c).plan [.y, .cb, .cr] psize psize,
        ∀ y < psize.toNat >>> (s.ctx c).vs p, ∀ x < psize.toNat >>> (s.ctx c).hs p, ∀ vA vB : Int,
        vA = (s.readP (dA.pointer s.cfg p pidx psize + y * (dA.plane p).stride.toNat + x)).toNat →
        vB = (s.readP (dB.pointer s.cfg p pidx psize + y * (dB.plane p).stride.toNat + x)).toNat →
        (s.cfg.pixw ≤ 15 ∨ (-32768 ≤ vA - vB ∧ vA - vB ≤ 32767)) →
        (t.readR ((s.ctx c).addr s.cfg p pidx psize + y * ((s.ctx c).pw p).toNat + x)).toInt = vA - vB) ∧
      (∀ adr, (∀ p ∈ (s.ctx c).plan [.y, .cb, .cr] psize psize,
          ¬ (s.ctx c).rectHas s.cfg p pidx psize ((s.ctx c).extent psize psize p) adr) →
        t.rmem.read? adr = s.rmem.read? adr)

/-- 42_subtract R141 to R143: SUB's port requests: per active plane, in the order Y, Cb, Cr, the two address queries
and then one record, luma by the size class alone, chroma by the class of the luma size and the context's CSP. -/
def Obligations.SubPortTrace : Prop :=
  ∀ (s t : State) (c a b : Id) (pidx psize : Dim) (dA dB : PixelBuffer) (cls : BitVec 3),
    psize.toNat = 2 ^ (cls.toNat + 2) → s.pbuf a = some dA → s.pbuf b = some dB →
    exec (.sub c a b pidx psize) s = .next t → t.respPort = some 0 →
    t.trace = s.trace ++ ((s.ctx c).plan [.y, .cb, .cr] psize psize).flatMap fun p =>
      let pA : Addr := BitVec.ofNat 32 (dA.pointer s.cfg p pidx psize)
      let pB : Addr := BitVec.ofNat 32 (dB.pointer s.cfg p pidx psize)
      let sA := (dA.plane p).stride
      let sB := (dB.plane p).stride
      let dst := (s.ctx c).addr32 s.cfg p pidx psize
      [ .pixAddr a p pidx psize pA sA, .pixAddr b p pidx psize pB sB,
        .kinvoke (if p = .y then .subLuma cls dst (s.ctx c).width pA sA pB sB
          else .subChroma cls (s.ctx c).csp dst (s.ctx c).cwidth pA sA pB sB) ]

/-- 43_addclip R154: ADDCLIP with every check passed completes: each sample of each active plane's rectangle is the
exact sum of the two residual samples as they were, clipped to 0 .. 2^BIT_DEPTH - 1, where that is a wide sample
(always so for BIT_DEPTH up to 15; else the value is free within the range: log entry 7), and no stored sample is ever
outside 0 .. 2^BIT_DEPTH - 1; every other cell keeps its contents, and
nothing else but the ports' trace, the response and the model's counter changes. -/
def Obligations.AddclipStoresTheClippedSum : Prop :=
  ∀ (s : State) (c a b : Id) (pidx psize : Dim), s.Inv →
    (Instr.addclip c a b pidx psize).wf s.cfg = true →
    (s.ctx c).ready = true → (s.ctx a).ready = true → (s.ctx b).ready = true →
    s.boundsOk (s.ctx c) (s.ctx c) [.y, .cb, .cr] pidx psize psize psize = true →
    s.boundsOk (s.ctx a) (s.ctx c) [.y, .cb, .cr] pidx psize psize psize = true →
    s.boundsOk (s.ctx b) (s.ctx c) [.y, .cb, .cr] pidx psize psize psize = true →
    ∃ t, exec (.addclip c a b pidx psize) s = .next t ∧
      t = { s with rmem := t.rmem, draws := t.draws, trace := t.trace, respPort := some 0 } ∧
      (∀ p ∈ (s.ctx c).plan [.y, .cb, .cr] psize psize,
        ∀ y < psize.toNat >>> (s.ctx c).vs p, ∀ x < psize.toNat >>> (s.ctx c).hs p,
        (0 ≤ (t.readR ((s.ctx c).addr s.cfg p pidx psize + y * ((s.ctx c).pw p).toNat + x)).toInt ∧
          (t.readR ((s.ctx c).addr s.cfg p pidx psize + y * ((s.ctx c).pw p).toNat + x)).toInt ≤
            2 ^ s.cfg.bitDepth - 1) ∧
        ∀ sum : Int,
        sum = (s.readR ((s.ctx a).addr s.cfg p pidx psize + y * ((s.ctx a).pw p).toNat + x)).toInt +
          (s.readR ((s.ctx b).addr s.cfg p pidx psize + y * ((s.ctx b).pw p).toNat + x)).toInt →
        (s.cfg.bitDepth ≤ 15 ∨ sum ≤ 32767) →
        (t.readR ((s.ctx c).addr s.cfg p pidx psize + y * ((s.ctx c).pw p).toNat + x)).toInt =
          max 0 (min (2 ^ s.cfg.bitDepth - 1) sum)) ∧
      (∀ adr, (∀ p ∈ (s.ctx c).plan [.y, .cb, .cr] psize psize,
          ¬ (s.ctx c).rectHas s.cfg p pidx psize ((s.ctx c).extent psize psize p) adr) →
        t.rmem.read? adr = s.rmem.read? adr)

/-- 43_addclip R151, R152: ADDCLIP's port requests: one ADD record per active plane, in the order Y, Cb, Cr, with the
rectangle's width and height, every context's own address and stride. -/
def Obligations.AddclipPortTrace : Prop :=
  ∀ (s t : State) (c a b : Id) (pidx psize : Dim),
    exec (.addclip c a b pidx psize) s = .next t → t.respPort = some 0 →
    t.trace = s.trace ++ ((s.ctx c).plan [.y, .cb, .cr] psize psize).map fun p =>
      .kinvoke (.add (psize >>> (s.ctx c).hs p) (psize >>> (s.ctx c).vs p)
        ((s.ctx c).addr32 s.cfg p pidx psize) ((s.ctx c).pw p)
        ((s.ctx a).addr32 s.cfg p pidx psize) ((s.ctx a).pw p)
        ((s.ctx b).addr32 s.cfg p pidx psize) ((s.ctx b).pw p))

/-- The round-trip law, derived from 42_subtract R145 and 43_addclip R154, R156: SUB of pixel buffers A and B into R,
then ADDCLIP of R with a context W that holds B's samples as wide samples, leaves A's samples in D, for every
supported size, the three contexts having one chroma layout, A's samples at most maxSample and, at BIT_DEPTH 16, at
most 32767, the largest sum a cell holds exactly (log entry 7). -/
def Obligations.SubThenAddclipReconstructs : Prop :=
  ∀ (s : State) (r w d a b : Id) (pidx psize : Dim) (dA dB : PixelBuffer), s.Inv →
    (Instr.sub r a b pidx psize).wf s.cfg = true → (Instr.addclip d r w pidx psize).wf s.cfg = true →
    (s.ctx r).ready = true → (s.ctx w).ready = true → (s.ctx d).ready = true → r ≠ w →
    (∀ k, k = w ∨ k = d → (s.ctx k).hshift = (s.ctx r).hshift ∧ (s.ctx k).vshift = (s.ctx r).vshift ∧
      (s.ctx k).cpres = (s.ctx r).cpres) →
    (∀ k, k = r ∨ k = w ∨ k = d →
      s.boundsOk (s.ctx k) (s.ctx r) [.y, .cb, .cr] pidx psize psize psize = true) →
    s.pbuf a = some dA → s.pbuf b = some dB →
    (∀ p ∈ (s.ctx r).plan [.y, .cb, .cr] psize psize,
      dA.holds s.cfg p pidx psize ((s.ctx r).extent psize psize p) = true ∧
      dB.holds s.cfg p pidx psize ((s.ctx r).extent psize psize p) = true ∧
      ∀ y < psize.toNat >>> (s.ctx r).vs p, ∀ x < psize.toNat >>> (s.ctx r).hs p, ∀ vA vB : Int,
        vA = (s.readP (dA.pointer s.cfg p pidx psize + y * (dA.plane p).stride.toNat + x)).toNat →
        vB = (s.readP (dB.pointer s.cfg p pidx psize + y * (dB.plane p).stride.toNat + x)).toNat →
        vA ≤ 2 ^ s.cfg.bitDepth - 1 ∧ vA ≤ 32767 ∧ -32768 ≤ vA - vB ∧
        (s.readR ((s.ctx w).addr s.cfg p pidx psize + y * ((s.ctx w).pw p).toNat + x)).toInt = vB) →
    ∃ t1 t2, exec (.sub r a b pidx psize) s = .next t1 ∧ exec (.addclip d r w pidx psize) t1 = .next t2 ∧
      t2.respPort = some 0 ∧
      ∀ p ∈ (s.ctx r).plan [.y, .cb, .cr] psize psize,
        ∀ y < psize.toNat >>> (s.ctx r).vs p, ∀ x < psize.toNat >>> (s.ctx r).hs p,
        (t2.readR ((s.ctx d).addr s.cfg p pidx psize + y * ((s.ctx d).pw p).toNat + x)).toInt =
          ((s.readP (dA.pointer s.cfg p pidx psize + y * (dA.plane p).stride.toNat + x)).toNat : Int)

/-! ### The copies -/

/-- 44_copy R163, R165 to R167: CPYRL, CPYRC and CPYRA with every check passed complete: the destination rectangle of
each active plane equals the source rectangle as it was, sample for sample; every other cell keeps its contents; no
port request is made and nothing else but the response changes. -/
def Obligations.ResidualCopyCopiesTheRectangle : Prop :=
  ∀ (s : State) (c a cid : Id) (pidx psize w h : Dim), s.Inv →
    ∀ ip ∈ residualCopies c a cid pidx psize w h, ip.1.wf s.cfg = true →
    (s.ctx c).ready = true → (s.ctx a).ready = true →
    s.boundsOk (s.ctx c) (s.ctx c) ip.2 pidx psize w h = true →
    s.boundsOk (s.ctx a) (s.ctx c) ip.2 pidx psize w h = true →
    ∃ t, exec ip.1 s = .next t ∧ t = { s with rmem := t.rmem, respPort := some 0 } ∧
      (∀ p ∈ (s.ctx c).plan ip.2 w h,
        ∀ y < h.toNat >>> (s.ctx c).vs p, ∀ x < w.toNat >>> (s.ctx c).hs p,
        t.readR ((s.ctx a).addr s.cfg p pidx psize + y * ((s.ctx a).pw p).toNat + x) =
          s.readR ((s.ctx c).addr s.cfg p pidx psize + y * ((s.ctx c).pw p).toNat + x)) ∧
      (∀ adr, (∀ p ∈ (s.ctx c).plan ip.2 w h,
          ¬ (s.ctx a).rectHas s.cfg p pidx psize ((s.ctx c).extent w h p) adr) →
        t.rmem.read? adr = s.rmem.read? adr)

/-- 44_copy R164: a self-copy that passes its checks reads nothing, writes nothing and answers OK; and for a non-empty
in-bounds rectangle the two addresses coincide exactly when source and destination are the same context. -/
def Obligations.SelfCopyIsANoOp : Prop :=
  (∀ (s : State) (c cid : Id) (pidx psize w h : Dim), ∀ ip ∈ residualCopies c c cid pidx psize w h,
    ip.1.wf s.cfg = true → (s.ctx c).ready = true →
    s.boundsOk (s.ctx c) (s.ctx c) ip.2 pidx psize w h = true →
    exec ip.1 s = .next { s with respPort := some 0 }) ∧
  ∀ (s : State) (c d : Id) (p : Plane) (pidx psize : Dim) (e : Extent), s.Inv →
    (s.ctx c).ready = true → (s.ctx d).ready = true → 0 < e.w → 0 < e.h →
    (s.ctx c).inBounds s.cfg p pidx psize e = true → (s.ctx d).inBounds s.cfg p pidx psize e = true →
    ((s.ctx c).addr s.cfg p pidx psize = (s.ctx d).addr s.cfg p pidx psize ↔ c = d)

/-- 44_copy R166: a single-channel chroma copy leaves the destination's luma and its other chroma channel as they
were, and every cell of a source that is another context. -/
def Obligations.SingleChannelCopyTouchesOneChannel : Prop :=
  ∀ (s t : State) (c a cid : Id) (pidx psize w h : Dim), s.Inv →
    exec (.cpyrc c a cid pidx psize w h) s = .next t → (s.ctx a).ready = true →
    (cid = 0 → ∀ adr, ((s.ctx a).region .y).contains adr = true ∨ ((s.ctx a).region .cr).contains adr = true →
      t.rmem.read? adr = s.rmem.read? adr) ∧
    (cid = 1 → ∀ adr, ((s.ctx a).region .y).contains adr = true ∨ ((s.ctx a).region .cb).contains adr = true →
      t.rmem.read? adr = s.rmem.read? adr) ∧
    (∀ d p adr, d ≠ a → (s.ctx d).ready = true → ((s.ctx d).region p).contains adr = true →
      t.rmem.read? adr = s.rmem.read? adr)

/-- 44_copy R167: where CPYRA completes with OK, CPYRL followed by CPYRC with `chromaId` "both" completes with OK in
the same state. -/
def Obligations.CopyAllIsLumaThenBothChroma : Prop :=
  ∀ (s t : State) (c a cid : Id) (pidx psize w h : Dim), cid ≠ 0 → cid ≠ 1 →
    exec (.cpyra c a pidx psize w h) s = .next t → t.respPort = some 0 →
    ∃ t1, exec (.cpyrl c a pidx psize w h) s = .next t1 ∧ t1.respPort = some 0 ∧
      exec (.cpyrc c a cid pidx psize w h) t1 = .next t

/-- 44_copy R168, R170 to R173: CPYPL, CPYPC and CPYPA with every check passed and the pixel rectangles in their
planes, those of different planes sharing no cell (log entry 10), complete: a destination cell to which one sample
goes is the low PIXW bits of that sample, and where rows overlap (a stride less than the width) a cell is the low
PIXW bits of one of the samples that go to it (log entry 23); every other pixel cell and all of RMEM keep their
contents; nothing else but the ports' trace, the response and the model's counter changes. -/
def Obligations.PixelCopyTruncates : Prop :=
  ∀ (s : State) (c a cid : Id) (pidx psize w h : Dim) (d : PixelBuffer), s.Inv →
    ∀ ip ∈ pixelCopies c a cid pidx psize w h, ip.1.wf s.cfg = true → (s.ctx c).ready = true →
    s.boundsOk (s.ctx c) (s.ctx c) ip.2 pidx psize w h = true → s.pbuf a = some d →
    (∀ p ∈ (s.ctx c).plan ip.2 w h, d.holds s.cfg p pidx psize ((s.ctx c).extent w h p) = true) →
    (∀ p ∈ (s.ctx c).plan ip.2 w h, ∀ q ∈ (s.ctx c).plan ip.2 w h, p ≠ q → ∀ adr,
      ¬ (pixelRectHas s.cfg d p pidx psize ((s.ctx c).extent w h p) adr ∧
        pixelRectHas s.cfg d q pidx psize ((s.ctx c).extent w h q) adr)) →
    ∃ t, exec ip.1 s = .next t ∧
      t = { s with pmem := t.pmem, draws := t.draws, trace := t.trace, respPort := some 0 } ∧
      (∀ p ∈ (s.ctx c).plan ip.2 w h,
        ∀ y < h.toNat >>> (s.ctx c).vs p, ∀ x < w.toNat >>> (s.ctx c).hs p,
        (∀ y' < h.toNat >>> (s.ctx c).vs p, ∀ x' < w.toNat >>> (s.ctx c).hs p,
          y' * (d.plane p).stride.toNat + x' = y * (d.plane p).stride.toNat + x → y' = y ∧ x' = x) →
        (t.readP (d.pointer s.cfg p pidx psize + y * (d.plane p).stride.toNat + x)).toNat =
          (s.readR ((s.ctx c).addr s.cfg p pidx psize + y * ((s.ctx c).pw p).toNat + x)).toNat %
            2 ^ s.cfg.pixw) ∧
      (∀ p ∈ (s.ctx c).plan ip.2 w h, ∀ adr, pixelRectHas s.cfg d p pidx psize ((s.ctx c).extent w h p) adr →
        ∃ y < h.toNat >>> (s.ctx c).vs p, ∃ x < w.toNat >>> (s.ctx c).hs p,
          adr = d.pointer s.cfg p pidx psize + y * (d.plane p).stride.toNat + x ∧
          (t.readP adr).toNat =
            (s.readR ((s.ctx c).addr s.cfg p pidx psize + y * ((s.ctx c).pw p).toNat + x)).toNat %
              2 ^ s.cfg.pixw) ∧
      (∀ adr, (∀ p ∈ (s.ctx c).plan ip.2 w h,
          ¬ pixelRectHas s.cfg d p pidx psize ((s.ctx c).extent w h p) adr) →
        t.pmem.read? adr = s.pmem.read? adr)

/-- 44_copy R168, R173: the port requests of a residual-to-pixel copy: per active plane, in the order Y, Cb, Cr, the
address query and then one COPY record with the rectangle's width and height. -/
def Obligations.PixelCopyPortTrace : Prop :=
  ∀ (s t : State) (c a cid : Id) (pidx psize w h : Dim) (d : PixelBuffer), s.pbuf a = some d →
    ∀ ip ∈ pixelCopies c a cid pidx psize w h, exec ip.1 s = .next t → t.respPort = some 0 →
    t.trace = s.trace ++ ((s.ctx c).plan ip.2 w h).flatMap fun p =>
      let ptr : Addr := BitVec.ofNat 32 (d.pointer s.cfg p pidx psize)
      [ .pixAddr a p pidx psize ptr (d.plane p).stride,
        .kinvoke (.copy (w >>> (s.ctx c).hs p) (h >>> (s.ctx c).vs p) ptr (d.plane p).stride
          ((s.ctx c).addr32 s.cfg p pidx psize) ((s.ctx c).pw p)) ]

/-- 44_copy R170: narrowing keeps the low PIXW bits of the two's complement pattern, the remainder of the sample's
value by 2^N; the rule's examples at 8 and 16 bits. -/
def Obligations.NarrowingIsTruncation : Prop :=
  (∀ (n : Nat) (v : Sample), n ≤ 16 → ((truncTo n v).toNat : Int) = v.toInt % 2 ^ n) ∧
  [0, 100, 255, 256, 300, -1, -70, 32767, -32768].map (fun v => (truncTo 8 (BitVec.ofInt 16 v)).toNat) =
    [0, 100, 255, 0, 44, 255, 186, 255, 0] ∧
  [0, 100, 32767, -1, -32768].map (fun v => (truncTo 16 (BitVec.ofInt 16 v)).toNat) =
    [0, 100, 32767, 65535, 32768]

/-! ### Errors -/

/-- 60_exceptions R203: a legal command that names a residual context that is not Ready answers status 2 and changes
nothing else, whatever else is wrong with it; CREATE, DESTROY and RDCTX never do. -/
def Obligations.UseBeforeCreateIsInvalidState : Prop :=
  ∀ (s : State) (i : Instr), i.wf s.cfg = true →
    ((∃ c ∈ needsReady i, (s.ctx c).ready = false) →
      exec i s = .next { s with respPort := some 0x2000000000000000 }) ∧
    ∀ t, exec i s = .next t → t.respPort = some 0x2000000000000000 →
      ∃ c ∈ needsReady i, (s.ctx c).ready = false

/-- 60_exceptions R204 with 41_addressing R130, R133: a legal command whose contexts are all Ready answers status 3
and changes nothing else exactly when a bounds check of a phase that is neither skipped nor empty fails, or ADDR's
point is no sample of the plane. -/
def Obligations.BoundsFailureIsDimensionMismatch : Prop :=
  ∀ (s : State) (i : Instr), i.wf s.cfg = true → (∀ c ∈ needsReady i, (s.ctx c).ready = true) →
    let bad : Prop := match i with
      | .addr c p pidx psize =>
        ¬ ((s.ctx c).row s.cfg p pidx psize < ((s.ctx c).ph p).toNat ∧
          (s.ctx c).col s.cfg p pidx psize < ((s.ctx c).pw p).toNat)
      | .sub c _ _ pidx psize =>
        s.boundsOk (s.ctx c) (s.ctx c) [.y, .cb, .cr] pidx psize psize psize = false
      | .addclip c a b pidx psize =>
        ∃ k ∈ [c, a, b], s.boundsOk (s.ctx k) (s.ctx c) [.y, .cb, .cr] pidx psize psize psize = false
      | .cpyrl c a pidx psize w h =>
        ∃ k ∈ [c, a], s.boundsOk (s.ctx k) (s.ctx c) [.y] pidx psize w h = false
      | .cpyrc c a cid pidx psize w h =>
        ∃ k ∈ [c, a], s.boundsOk (s.ctx k) (s.ctx c) (channels cid) pidx psize w h = false
      | .cpyra c a pidx psize w h =>
        ∃ k ∈ [c, a], s.boundsOk (s.ctx k) (s.ctx c) [.y, .cb, .cr] pidx psize w h = false
      | .cpypl c _ pidx psize w h => s.boundsOk (s.ctx c) (s.ctx c) [.y] pidx psize w h = false
      | .cpypc c _ cid pidx psize w h => s.boundsOk (s.ctx c) (s.ctx c) (channels cid) pidx psize w h = false
      | .cpypa c _ pidx psize w h => s.boundsOk (s.ctx c) (s.ctx c) [.y, .cb, .cr] pidx psize w h = false
      | .create .. => False
      | .destroy _ => False
      | .clear _ => False
      | .rdctx .. => False
    (bad → exec i s = .next { s with respPort := some 0x3000000000000000 }) ∧
    (∀ t, exec i s = .next t → t.respPort = some 0x3000000000000000 → bad)

/-- 60_exceptions R206: a command that reports status 2, 3 or 4 leaves the whole state as it was but for the response;
status 1 is reported by CREATE alone. -/
def Obligations.ErrorsArePrecise : Prop :=
  ∀ (s t : State) (i : Instr) (e : CmdError), exec i s = .next t →
    t.respPort = some (packResponse e.code 0 0) →
    (e ≠ .allocation → t = { s with respPort := some (packResponse e.code 0 0) }) ∧
    (e = .allocation → ∃ c csp w h, i = .create c csp w h)

/-- 41_addressing R128 (c), 44_copy R175 (a): a command all of whose phases are skipped or empty answers OK and does
nothing, even where its partition lies outside the plane. -/
def Obligations.EmptyPlanIsANoOp : Prop :=
  ∀ (s : State) (i : Instr), i.wf s.cfg = true → (∀ c ∈ needsReady i, (s.ctx c).ready = true) →
    (match i with
      | .addclip c _ _ _ psize => (s.ctx c).plan [.y, .cb, .cr] psize psize = []
      | .cpyrl c _ _ _ w h => (s.ctx c).plan [.y] w h = []
      | .cpyrc c _ cid _ _ w h => (s.ctx c).plan (channels cid) w h = []
      | .cpyra c _ _ _ w h => (s.ctx c).plan [.y, .cb, .cr] w h = []
      | .cpypl c _ _ _ w h => (s.ctx c).plan [.y] w h = []
      | .cpypc c _ cid _ _ w h => (s.ctx c).plan (channels cid) w h = []
      | .cpypa c _ _ _ w h => (s.ctx c).plan [.y, .cb, .cr] w h = []
      | _ => False) →
    exec i s = .next { s with respPort := some 0 }

/-- 45_external_interfaces R190, 93_implementation_defined U3: in a state that meets the invariant exec never refuses,
and faults only in SUB and the residual-to-pixel copies, on a dead pixel-buffer id or a rectangle outside its
plane. What a plane holds is the model's reading (log entries 10, 11). -/
def Obligations.OnlyThePixelSideFaults : Prop :=
  ∀ (s : State) (i : Instr),
    (∀ r, exec i s ≠ .refused r) ∧
    ∀ f, s.Inv → exec i s = .fault f →
      match i with
      | .sub c a b pidx psize =>
        pixelFault s (s.ctx c) a [.y, .cb, .cr] pidx psize psize psize f ∨
          pixelFault s (s.ctx c) b [.y, .cb, .cr] pidx psize psize psize f
      | .cpypl c a pidx psize w h => pixelFault s (s.ctx c) a [.y] pidx psize w h f
      | .cpypc c a cid pidx psize w h => pixelFault s (s.ctx c) a (channels cid) pidx psize w h f
      | .cpypa c a pidx psize w h => pixelFault s (s.ctx c) a [.y, .cb, .cr] pidx psize w h f
      | _ => False

/-- 45_external_interfaces R190, 93_implementation_defined U3, the other direction: where every check passes and a
pixel-buffer id that names no live buffer is queried, or the rectangle of an active plane is not in its pixel plane,
the command faults: a residual-to-pixel copy for that reason, SUB for that reason or, having two pixel buffers, for
the other one's. What a plane holds is the model's reading (log entries 10, 11). -/
def Obligations.DeadOrOutsidePixelRectanglesFault : Prop :=
  (∀ (s : State) (c a b : Id) (pidx psize : Dim) (pb : Id) (f : Fault), s.Inv →
    (Instr.sub c a b pidx psize).wf s.cfg = true → (s.ctx c).ready = true →
    s.boundsOk (s.ctx c) (s.ctx c) [.y, .cb, .cr] pidx psize psize psize = true → pb = a ∨ pb = b →
    pixelFault s (s.ctx c) pb [.y, .cb, .cr] pidx psize psize psize f →
    ∃ g, exec (.sub c a b pidx psize) s = .fault g ∧
      (pixelFault s (s.ctx c) a [.y, .cb, .cr] pidx psize psize psize g ∨
        pixelFault s (s.ctx c) b [.y, .cb, .cr] pidx psize psize psize g)) ∧
  ∀ (s : State) (c a cid : Id) (pidx psize w h : Dim) (f : Fault),
    ∀ ip ∈ pixelCopies c a cid pidx psize w h, ip.1.wf s.cfg = true → (s.ctx c).ready = true →
    s.boundsOk (s.ctx c) (s.ctx c) ip.2 pidx psize w h = true →
    pixelFault s (s.ctx c) a ip.2 pidx psize w h f → exec ip.1 s = .fault f

/-! ### Whole-machine rules -/

/-- Every step keeps the invariant of Safety.lean: context fields as CREATE derives them, memories in canonical form,
pixel cells within PIXW bits, live regions inside RMEM, apart, and exactly those the contexts hold. -/
def Obligations.EveryStepKeepsTheInvariant : Prop :=
  ∀ s t : State, s.Inv → step s = .next t → t.Inv

/-- 10_state R32: in a state that meets the invariant, a Ready context's chroma is no larger than its luma, and its
three regions lie inside RMEM and share no cell with each other or with another Ready context's. -/
def Obligations.ReadyContextsKeepTheirGeometryAndRegions : Prop :=
  ∀ (s : State) (c : Id), s.Inv → (s.ctx c).ready = true →
    (s.ctx c).cwidth.toNat * (s.ctx c).cheight.toNat ≤ (s.ctx c).width.toNat * (s.ctx c).height.toNat ∧
    (s.ctx c).cwidth.toNat ≤ (s.ctx c).width.toNat ∧ (s.ctx c).cheight.toNat ≤ (s.ctx c).height.toNat ∧
    (∀ p, ((s.ctx c).base p).toNat + ((s.ctx c).pw p).toNat * ((s.ctx c).ph p).toNat ≤ 2 ^ 32) ∧
    ∀ (d : Id) (p q : Plane), (s.ctx d).ready = true → (c, p) ≠ (d, q) → ∀ a,
      ¬ (((s.ctx c).base p).toNat ≤ a ∧
          a < ((s.ctx c).base p).toNat + ((s.ctx c).pw p).toNat * ((s.ctx c).ph p).toNat ∧
        ((s.ctx d).base q).toNat ≤ a ∧
          a < ((s.ctx d).base q).toNat + ((s.ctx d).pw q).toNat * ((s.ctx d).ph q).toNat)

/-- 10_state R23, R35: context fields change only by CREATE and DESTROY, and only in the context these name, which is
Ready after a CREATE that answers OK and Uninitialized after one that fails and after DESTROY. -/
def Obligations.OnlyCreateAndDestroyChangeContexts : Prop :=
  ∀ (s t : State) (i : Instr), i.wf s.cfg = true → exec i s = .next t →
    match i with
    | .create c .. =>
      (∀ d, d ≠ c → t.ctx d = s.ctx d) ∧
        ((t.ctx c).ready = true ↔ t.respPort = some 0) ∧ ((t.ctx c).ready = false → t.ctx c = Context.uninit)
    | .destroy c =>
      (∀ d, d ≠ c → t.ctx d = s.ctx d) ∧ (t.ctx c).ready = false
    | _ => t.ctxs = s.ctxs

/-- 20_memory R53: which command writes which memory. CREATE and DESTROY write no cell (they make the cells of the
regions their context held unspecified, and, in a state that meets the invariant, no other known cell); ADDR and
RDCTX and the residual-to-pixel copies leave RMEM alone; only the residual-to-pixel copies touch PMEM. No command
touches the parameters, the pixel-buffer descriptors, the host's moves, a partly arrived word or the taken
responses. -/
def Obligations.CommandsReachOnlyTheirMemories : Prop :=
  ∀ (s t : State) (i : Instr), exec i s = .next t →
    (match i with
      | .create c .. => t.pmem = s.pmem ∧ (∀ a, t.rmem.read? a = s.rmem.read? a ∨ t.rmem.read? a = none) ∧
        (s.Inv → ∀ a, (s.ctx c).regions.any (fun r => r.contains a) = false → t.rmem.read? a = s.rmem.read? a)
      | .destroy c => t.pmem = s.pmem ∧ (∀ a, t.rmem.read? a = s.rmem.read? a ∨ t.rmem.read? a = none) ∧
        ∀ a, (s.ctx c).regions.any (fun r => r.contains a) = false → t.rmem.read? a = s.rmem.read? a
      | .rdctx .. => t.pmem = s.pmem ∧ t.rmem = s.rmem
      | .addr .. => t.pmem = s.pmem ∧ t.rmem = s.rmem
      | .cpypl .. => t.rmem = s.rmem
      | .cpypc .. => t.rmem = s.rmem
      | .cpypa .. => t.rmem = s.rmem
      | _ => t.pmem = s.pmem) ∧
    t.cfg = s.cfg ∧ t.pbufs = s.pbufs ∧ t.inputs = s.inputs ∧ t.arrived = s.arrived ∧
    t.responses = s.responses ∧ t.pEpoch = s.pEpoch

/-- 45_external_interfaces R193: in a state that meets the invariant, replaying a command's port requests on the
allocator's record succeeds and gives the record after the command: every Free names a region that is live then, so
none is freed twice and none is freed that is not held. -/
def Obligations.FreesNameLiveRegions : Prop :=
  ∀ (s t : State) (i : Instr), s.Inv → exec i s = .next t →
    ∃ new, t.trace = s.trace ++ new ∧ replay s.live new = some t.live

/-- 45_external_interfaces R192: a base the allocator gives is one the contract admits, the region is then live, and
its cells are unspecified; and every admitted base, and failure, is an answer it may give (through the model's script:
log entry 8). -/
def Obligations.AllocatorGivesDisjointRegions : Prop :=
  (∀ (s t : State) (n : Nat) (b : Addr), s.alloc n = (some b, t) →
    b.toNat + n ≤ 2 ^ 32 ∧ t.live = { base := b, size := n } :: s.live ∧
    (∀ q ∈ s.live, ∀ a, ¬ (b.toNat ≤ a ∧ a < b.toNat + n ∧ q.base.toNat ≤ a ∧ a < q.base.toNat + q.size)) ∧
    ∀ a, t.rmem.read? a = if b.toNat ≤ a ∧ a < b.toNat + n then none else s.rmem.read? a) ∧
  ∀ (s : State) (n : Nat),
    (∀ b : Addr, b.toNat + n ≤ 2 ^ 32 →
      (∀ q ∈ s.live, n = 0 ∨ q.size = 0 ∨ b.toNat + n ≤ q.base.toNat ∨ q.base.toNat + q.size ≤ b.toNat) →
      ∃ t, ({ s with allocScript := [some b] } : State).alloc n = (some b, t)) ∧
    ∃ t, ({ s with allocScript := [none] } : State).alloc n = (none, t) ∧ t.live = s.live

/-- 45_external_interfaces R183: in a state that meets the invariant, every kernel record a command sends meets the
unit's guarantees. -/
def Obligations.KernelRecordsAreGuaranteed : Prop :=
  ∀ (s t : State) (i : Instr), s.Inv → exec i s = .next t →
    ∃ new, t.trace = s.trace ++ new ∧ ∀ r, .kinvoke r ∈ new → recordGuaranteed s i new r

/-- No step changes the static parameters (70_reset_and_hazards R222, log entry 1). -/
def Obligations.StepsKeepTheConfiguration : Prop :=
  ∀ s t : State, step s = .next t → t.cfg = s.cfg

/-- 20_memory R66, 93_implementation_defined U7: between commands the host writes and reads any cell of a Ready
context's regions and no other cell is touched; an access to any other residual cell is a fault (log entry 13). -/
def Obligations.HostReachesReadyRegionsOnly : Prop :=
  ∀ (s : State) (a : Addr) (v : Sample) (rest : List HostMove),
    ((∃ c p, (s.ctx c).ready = true ∧ ((s.ctx c).region p).contains a.toNat = true) →
      (s.inputs = .readResidual a :: rest → step s = .next { s with inputs := rest }) ∧
      (s.inputs = .writeResidual a v :: rest → ∃ t, step s = .next t ∧
        t = { s with inputs := rest, rmem := t.rmem } ∧
        ∀ b, t.rmem.read? b = if b = a.toNat then some v else s.rmem.read? b)) ∧
    ((∀ c p, (s.ctx c).ready = true → ((s.ctx c).region p).contains a.toNat = false) →
      (s.inputs = .readResidual a :: rest ∨ s.inputs = .writeResidual a v :: rest) →
      step s = .fault .hostAccessOutsideLiveRegion)

/-- 70_reset_and_hazards R220, R221: a reset between commands leaves every context Uninitialized, no response pending
and no command in progress, all memory contents unspecified, and issues no Free; the descriptors, the parameters and
the logs stay (log entry 17). -/
def Obligations.ResetMoveUninitializesTheUnit : Prop :=
  ∀ (s : State) (rest : List HostMove), s.inputs = .reset :: rest →
    ∃ t, step s = .next t ∧ (∀ c, t.ctx c = Context.uninit) ∧ t.respPort = none ∧ t.arrived = .none ∧
      t.live = [] ∧ (∀ a, t.rmem.read? a = none) ∧ (∀ a, t.pmem.read? a = none) ∧ t.trace = s.trace ∧
      t.responses = s.responses ∧ t.pbufs = s.pbufs ∧ t.cfg = s.cfg ∧ t.inputs = rest ∧
      t.allocScript = s.allocScript

/-- The other moves (log entries 3, 10, 13, 16): idleness keeps all state (60_exceptions R212); the host takes a
response (45_external_interfaces R191); a pixel client writes one pixel cell (20_memory R54); a descriptor changes
(70_reset_and_hazards R229). -/
def Obligations.OtherMovesTouchOnlyTheirOwn : Prop :=
  ∀ (s : State) (rest : List HostMove),
    (s.inputs = [] → step s = .next s) ∧
    (s.inputs = .takeResponse :: rest → step s = .next { s with
      inputs := rest, respPort := none, responses := s.responses ++ s.respPort.toList }) ∧
    (∀ a v, s.inputs = .writePixel a v :: rest → ∃ t, step s = .next t ∧
      t = { s with inputs := rest, pmem := t.pmem } ∧
      ∀ b, t.pmem.read? b = if b = a.toNat then some (truncTo s.cfg.pixw v) else s.pmem.read? b) ∧
    (∀ pb d, s.inputs = .setPixelBuffer pb d :: rest → ∃ t, step s = .next t ∧
      t = { s with inputs := rest, pbufs := t.pbufs } ∧
      ∀ q, t.pbuf q = if q = pb then d else s.pbuf q)

/-- 20_memory R56: the byte view of RMEM: sample `a` is byte `2a`, its low half, and byte `2a + 1`, its high half (the
model's function of the cells: log entry 5). -/
def Obligations.ByteViewIsLittleEndian : Prop :=
  ∀ (s : State) (a : Nat), s.residualByte (2 * a + 1) ++ s.residualByte (2 * a) = s.readR a
end

