-- ==== Sys2Proof/Laws/State.lean ====
section
/-! SUPPORT. Beside State: one lemma per field per update, so that no proof unfolds a record update. -/

namespace Sys2Proof.Machine

section

variable (s : State) (c : Id) (X : Context)

@[simp] theorem State.setCtx_cfg : (s.setCtx c X).cfg = s.cfg := rfl
@[simp] theorem State.setCtx_ctxs : (s.setCtx c X).ctxs = s.ctxs.set c.toNat X c.isLt := rfl
@[simp] theorem State.setCtx_rmem : (s.setCtx c X).rmem = s.rmem := rfl
@[simp] theorem State.setCtx_pmem : (s.setCtx c X).pmem = s.pmem := rfl
@[simp] theorem State.setCtx_respPort : (s.setCtx c X).respPort = s.respPort := rfl
@[simp] theorem State.setCtx_arrived : (s.setCtx c X).arrived = s.arrived := rfl
@[simp] theorem State.setCtx_live : (s.setCtx c X).live = s.live := rfl
@[simp] theorem State.setCtx_allocScript : (s.setCtx c X).allocScript = s.allocScript := rfl
@[simp] theorem State.setCtx_pbufs : (s.setCtx c X).pbufs = s.pbufs := rfl
@[simp] theorem State.setCtx_inputs : (s.setCtx c X).inputs = s.inputs := rfl
@[simp] theorem State.setCtx_allocCount : (s.setCtx c X).allocCount = s.allocCount := rfl
@[simp] theorem State.setCtx_rEpoch : (s.setCtx c X).rEpoch = s.rEpoch := rfl
@[simp] theorem State.setCtx_pEpoch : (s.setCtx c X).pEpoch = s.pEpoch := rfl
@[simp] theorem State.setCtx_draws : (s.setCtx c X).draws = s.draws := rfl
@[simp] theorem State.setCtx_responses : (s.setCtx c X).responses = s.responses := rfl
@[simp] theorem State.setCtx_trace : (s.setCtx c X).trace = s.trace := rfl

@[simp] theorem State.setCtx_pbuf (p' : Id) : (s.setCtx c X).pbuf p' = s.pbuf p' := rfl
@[simp] theorem State.setCtx_readR (a : Nat) : (s.setCtx c X).readR a = s.readR a := rfl
@[simp] theorem State.setCtx_readP (a : Nat) : (s.setCtx c X).readP a = s.readP a := rfl

end

section

variable (s : State) (pb : Id) (d : Option PixelBuffer)

@[simp] theorem State.setPbuf_cfg : (s.setPbuf pb d).cfg = s.cfg := rfl
@[simp] theorem State.setPbuf_ctxs : (s.setPbuf pb d).ctxs = s.ctxs := rfl
@[simp] theorem State.setPbuf_rmem : (s.setPbuf pb d).rmem = s.rmem := rfl
@[simp] theorem State.setPbuf_pmem : (s.setPbuf pb d).pmem = s.pmem := rfl
@[simp] theorem State.setPbuf_respPort : (s.setPbuf pb d).respPort = s.respPort := rfl
@[simp] theorem State.setPbuf_arrived : (s.setPbuf pb d).arrived = s.arrived := rfl
@[simp] theorem State.setPbuf_live : (s.setPbuf pb d).live = s.live := rfl
@[simp] theorem State.setPbuf_allocScript : (s.setPbuf pb d).allocScript = s.allocScript := rfl
@[simp] theorem State.setPbuf_pbufs : (s.setPbuf pb d).pbufs = s.pbufs.set pb.toNat d pb.isLt := rfl
@[simp] theorem State.setPbuf_inputs : (s.setPbuf pb d).inputs = s.inputs := rfl
@[simp] theorem State.setPbuf_allocCount : (s.setPbuf pb d).allocCount = s.allocCount := rfl
@[simp] theorem State.setPbuf_rEpoch : (s.setPbuf pb d).rEpoch = s.rEpoch := rfl
@[simp] theorem State.setPbuf_pEpoch : (s.setPbuf pb d).pEpoch = s.pEpoch := rfl
@[simp] theorem State.setPbuf_draws : (s.setPbuf pb d).draws = s.draws := rfl
@[simp] theorem State.setPbuf_responses : (s.setPbuf pb d).responses = s.responses := rfl
@[simp] theorem State.setPbuf_trace : (s.setPbuf pb d).trace = s.trace := rfl

@[simp] theorem State.setPbuf_ctx (c' : Id) : (s.setPbuf pb d).ctx c' = s.ctx c' := rfl
@[simp] theorem State.setPbuf_readR (a : Nat) : (s.setPbuf pb d).readR a = s.readR a := rfl
@[simp] theorem State.setPbuf_readP (a : Nat) : (s.setPbuf pb d).readP a = s.readP a := rfl

end

section

variable (s : State) (st : BitVec 4) (v : BitVec 32) (x : BitVec 16)

@[simp] theorem State.respond_cfg : (s.respond st v x).cfg = s.cfg := rfl
@[simp] theorem State.respond_ctxs : (s.respond st v x).ctxs = s.ctxs := rfl
@[simp] theorem State.respond_rmem : (s.respond st v x).rmem = s.rmem := rfl
@[simp] theorem State.respond_pmem : (s.respond st v x).pmem = s.pmem := rfl
@[simp] theorem State.respond_respPort : (s.respond st v x).respPort = some (packResponse st v x) := rfl
@[simp] theorem State.respond_arrived : (s.respond st v x).arrived = s.arrived := rfl
@[simp] theorem State.respond_live : (s.respond st v x).live = s.live := rfl
@[simp] theorem State.respond_allocScript : (s.respond st v x).allocScript = s.allocScript := rfl
@[simp] theorem State.respond_pbufs : (s.respond st v x).pbufs = s.pbufs := rfl
@[simp] theorem State.respond_inputs : (s.respond st v x).inputs = s.inputs := rfl
@[simp] theorem State.respond_allocCount : (s.respond st v x).allocCount = s.allocCount := rfl
@[simp] theorem State.respond_rEpoch : (s.respond st v x).rEpoch = s.rEpoch := rfl
@[simp] theorem State.respond_pEpoch : (s.respond st v x).pEpoch = s.pEpoch := rfl
@[simp] theorem State.respond_draws : (s.respond st v x).draws = s.draws := rfl
@[simp] theorem State.respond_responses : (s.respond st v x).responses = s.responses := rfl
@[simp] theorem State.respond_trace : (s.respond st v x).trace = s.trace := rfl

@[simp] theorem State.respond_ctx (c' : Id) : (s.respond st v x).ctx c' = s.ctx c' := rfl
@[simp] theorem State.respond_pbuf (p' : Id) : (s.respond st v x).pbuf p' = s.pbuf p' := rfl
@[simp] theorem State.respond_readR (a : Nat) : (s.respond st v x).readR a = s.readR a := rfl
@[simp] theorem State.respond_readP (a : Nat) : (s.respond st v x).readP a = s.readP a := rfl

end

section

variable (s : State)

@[simp] theorem State.done_cfg : s.done.cfg = s.cfg := rfl
@[simp] theorem State.done_ctxs : s.done.ctxs = s.ctxs := rfl
@[simp] theorem State.done_rmem : s.done.rmem = s.rmem := rfl
@[simp] theorem State.done_pmem : s.done.pmem = s.pmem := rfl
@[simp] theorem State.done_respPort : s.done.respPort = some okResponse := rfl
@[simp] theorem State.done_arrived : s.done.arrived = s.arrived := rfl
@[simp] theorem State.done_live : s.done.live = s.live := rfl
@[simp] theorem State.done_allocScript : s.done.allocScript = s.allocScript := rfl
@[simp] theorem State.done_pbufs : s.done.pbufs = s.pbufs := rfl
@[simp] theorem State.done_inputs : s.done.inputs = s.inputs := rfl
@[simp] theorem State.done_allocCount : s.done.allocCount = s.allocCount := rfl
@[simp] theorem State.done_rEpoch : s.done.rEpoch = s.rEpoch := rfl
@[simp] theorem State.done_pEpoch : s.done.pEpoch = s.pEpoch := rfl
@[simp] theorem State.done_draws : s.done.draws = s.draws := rfl
@[simp] theorem State.done_responses : s.done.responses = s.responses := rfl
@[simp] theorem State.done_trace : s.done.trace = s.trace := rfl

@[simp] theorem State.done_ctx (c' : Id) : s.done.ctx c' = s.ctx c' := rfl
@[simp] theorem State.done_pbuf (p' : Id) : s.done.pbuf p' = s.pbuf p' := rfl
@[simp] theorem State.done_readR (a : Nat) : s.done.readR a = s.readR a := rfl
@[simp] theorem State.done_readP (a : Nat) : s.done.readP a = s.readP a := rfl

end

section

variable (s : State) (e : PortEvent)

@[simp] theorem State.record_cfg : (s.record e).cfg = s.cfg := rfl
@[simp] theorem State.record_ctxs : (s.record e).ctxs = s.ctxs := rfl
@[simp] theorem State.record_rmem : (s.record e).rmem = s.rmem := rfl
@[simp] theorem State.record_pmem : (s.record e).pmem = s.pmem := rfl
@[simp] theorem State.record_respPort : (s.record e).respPort = s.respPort := rfl
@[simp] theorem State.record_arrived : (s.record e).arrived = s.arrived := rfl
@[simp] theorem State.record_live : (s.record e).live = s.live := rfl
@[simp] theorem State.record_allocScript : (s.record e).allocScript = s.allocScript := rfl
@[simp] theorem State.record_pbufs : (s.record e).pbufs = s.pbufs := rfl
@[simp] theorem State.record_inputs : (s.record e).inputs = s.inputs := rfl
@[simp] theorem State.record_allocCount : (s.record e).allocCount = s.allocCount := rfl
@[simp] theorem State.record_rEpoch : (s.record e).rEpoch = s.rEpoch := rfl
@[simp] theorem State.record_pEpoch : (s.record e).pEpoch = s.pEpoch := rfl
@[simp] theorem State.record_draws : (s.record e).draws = s.draws := rfl
@[simp] theorem State.record_responses : (s.record e).responses = s.responses := rfl
@[simp] theorem State.record_trace : (s.record e).trace = s.trace ++ [e] := rfl

@[simp] theorem State.record_ctx (c' : Id) : (s.record e).ctx c' = s.ctx c' := rfl
@[simp] theorem State.record_pbuf (p' : Id) : (s.record e).pbuf p' = s.pbuf p' := rfl
@[simp] theorem State.record_readR (a : Nat) : (s.record e).readR a = s.readR a := rfl
@[simp] theorem State.record_readP (a : Nat) : (s.record e).readP a = s.readP a := rfl

end

section

variable (s : State) (b : Addr) (n : Nat)

@[simp] theorem State.forgetRegion_cfg : (s.forgetRegion b n).cfg = s.cfg := rfl
@[simp] theorem State.forgetRegion_ctxs : (s.forgetRegion b n).ctxs = s.ctxs := rfl
@[simp] theorem State.forgetRegion_rmem : (s.forgetRegion b n).rmem = s.rmem.forget b.toNat n := rfl
@[simp] theorem State.forgetRegion_pmem : (s.forgetRegion b n).pmem = s.pmem := rfl
@[simp] theorem State.forgetRegion_respPort : (s.forgetRegion b n).respPort = s.respPort := rfl
@[simp] theorem State.forgetRegion_arrived : (s.forgetRegion b n).arrived = s.arrived := rfl
@[simp] theorem State.forgetRegion_live : (s.forgetRegion b n).live = s.live := rfl
@[simp] theorem State.forgetRegion_allocScript : (s.forgetRegion b n).allocScript = s.allocScript := rfl
@[simp] theorem State.forgetRegion_pbufs : (s.forgetRegion b n).pbufs = s.pbufs := rfl
@[simp] theorem State.forgetRegion_inputs : (s.forgetRegion b n).inputs = s.inputs := rfl
@[simp] theorem State.forgetRegion_allocCount : (s.forgetRegion b n).allocCount = s.allocCount := rfl
@[simp] theorem State.forgetRegion_rEpoch : (s.forgetRegion b n).rEpoch = s.rEpoch + 1 := rfl
@[simp] theorem State.forgetRegion_pEpoch : (s.forgetRegion b n).pEpoch = s.pEpoch := rfl
@[simp] theorem State.forgetRegion_draws : (s.forgetRegion b n).draws = s.draws := rfl
@[simp] theorem State.forgetRegion_responses : (s.forgetRegion b n).responses = s.responses := rfl
@[simp] theorem State.forgetRegion_trace : (s.forgetRegion b n).trace = s.trace := rfl

@[simp] theorem State.forgetRegion_ctx (c' : Id) : (s.forgetRegion b n).ctx c' = s.ctx c' := rfl
@[simp] theorem State.forgetRegion_pbuf (p' : Id) : (s.forgetRegion b n).pbuf p' = s.pbuf p' := rfl
@[simp] theorem State.forgetRegion_readP (a : Nat) : (s.forgetRegion b n).readP a = s.readP a := rfl

end

section

variable (s : State) (ws : List (Nat × Sample))

@[simp] theorem State.writeR_cfg : (s.writeR ws).cfg = s.cfg := rfl
@[simp] theorem State.writeR_ctxs : (s.writeR ws).ctxs = s.ctxs := rfl
@[simp] theorem State.writeR_rmem : (s.writeR ws).rmem = s.rmem.writeAll ws := rfl
@[simp] theorem State.writeR_pmem : (s.writeR ws).pmem = s.pmem := rfl
@[simp] theorem State.writeR_respPort : (s.writeR ws).respPort = s.respPort := rfl
@[simp] theorem State.writeR_arrived : (s.writeR ws).arrived = s.arrived := rfl
@[simp] theorem State.writeR_live : (s.writeR ws).live = s.live := rfl
@[simp] theorem State.writeR_allocScript : (s.writeR ws).allocScript = s.allocScript := rfl
@[simp] theorem State.writeR_pbufs : (s.writeR ws).pbufs = s.pbufs := rfl
@[simp] theorem State.writeR_inputs : (s.writeR ws).inputs = s.inputs := rfl
@[simp] theorem State.writeR_allocCount : (s.writeR ws).allocCount = s.allocCount := rfl
@[simp] theorem State.writeR_rEpoch : (s.writeR ws).rEpoch = s.rEpoch := rfl
@[simp] theorem State.writeR_pEpoch : (s.writeR ws).pEpoch = s.pEpoch := rfl
@[simp] theorem State.writeR_draws : (s.writeR ws).draws = s.draws := rfl
@[simp] theorem State.writeR_responses : (s.writeR ws).responses = s.responses := rfl
@[simp] theorem State.writeR_trace : (s.writeR ws).trace = s.trace := rfl

@[simp] theorem State.writeR_ctx (c' : Id) : (s.writeR ws).ctx c' = s.ctx c' := rfl
@[simp] theorem State.writeR_pbuf (p' : Id) : (s.writeR ws).pbuf p' = s.pbuf p' := rfl
@[simp] theorem State.writeR_readP (a : Nat) : (s.writeR ws).readP a = s.readP a := rfl

end

section

variable (s : State) (ws : List (Nat × Sample))

@[simp] theorem State.writeP_cfg : (s.writeP ws).cfg = s.cfg := rfl
@[simp] theorem State.writeP_ctxs : (s.writeP ws).ctxs = s.ctxs := rfl
@[simp] theorem State.writeP_rmem : (s.writeP ws).rmem = s.rmem := rfl
@[simp] theorem State.writeP_pmem : (s.writeP ws).pmem = s.pmem.writeAll ws := rfl
@[simp] theorem State.writeP_respPort : (s.writeP ws).respPort = s.respPort := rfl
@[simp] theorem State.writeP_arrived : (s.writeP ws).arrived = s.arrived := rfl
@[simp] theorem State.writeP_live : (s.writeP ws).live = s.live := rfl
@[simp] theorem State.writeP_allocScript : (s.writeP ws).allocScript = s.allocScript := rfl
@[simp] theorem State.writeP_pbufs : (s.writeP ws).pbufs = s.pbufs := rfl
@[simp] theorem State.writeP_inputs : (s.writeP ws).inputs = s.inputs := rfl
@[simp] theorem State.writeP_allocCount : (s.writeP ws).allocCount = s.allocCount := rfl
@[simp] theorem State.writeP_rEpoch : (s.writeP ws).rEpoch = s.rEpoch := rfl
@[simp] theorem State.writeP_pEpoch : (s.writeP ws).pEpoch = s.pEpoch := rfl
@[simp] theorem State.writeP_draws : (s.writeP ws).draws = s.draws := rfl
@[simp] theorem State.writeP_responses : (s.writeP ws).responses = s.responses := rfl
@[simp] theorem State.writeP_trace : (s.writeP ws).trace = s.trace := rfl

@[simp] theorem State.writeP_ctx (c' : Id) : (s.writeP ws).ctx c' = s.ctx c' := rfl
@[simp] theorem State.writeP_pbuf (p' : Id) : (s.writeP ws).pbuf p' = s.pbuf p' := rfl
@[simp] theorem State.writeP_readR (a : Nat) : (s.writeP ws).readR a = s.readR a := rfl

end

section

variable (s : State) (ws : List (Nat × Sample))

@[simp] theorem State.storeResults_cfg : (s.storeResults ws).cfg = s.cfg := rfl
@[simp] theorem State.storeResults_ctxs : (s.storeResults ws).ctxs = s.ctxs := rfl
@[simp] theorem State.storeResults_rmem : (s.storeResults ws).rmem = s.rmem.writeAll ws := rfl
@[simp] theorem State.storeResults_pmem : (s.storeResults ws).pmem = s.pmem := rfl
@[simp] theorem State.storeResults_respPort : (s.storeResults ws).respPort = s.respPort := rfl
@[simp] theorem State.storeResults_arrived : (s.storeResults ws).arrived = s.arrived := rfl
@[simp] theorem State.storeResults_live : (s.storeResults ws).live = s.live := rfl
@[simp] theorem State.storeResults_allocScript : (s.storeResults ws).allocScript = s.allocScript := rfl
@[simp] theorem State.storeResults_pbufs : (s.storeResults ws).pbufs = s.pbufs := rfl
@[simp] theorem State.storeResults_inputs : (s.storeResults ws).inputs = s.inputs := rfl
@[simp] theorem State.storeResults_allocCount : (s.storeResults ws).allocCount = s.allocCount := rfl
@[simp] theorem State.storeResults_rEpoch : (s.storeResults ws).rEpoch = s.rEpoch := rfl
@[simp] theorem State.storeResults_pEpoch : (s.storeResults ws).pEpoch = s.pEpoch := rfl
@[simp] theorem State.storeResults_draws : (s.storeResults ws).draws = s.draws + 1 := rfl
@[simp] theorem State.storeResults_responses : (s.storeResults ws).responses = s.responses := rfl
@[simp] theorem State.storeResults_trace : (s.storeResults ws).trace = s.trace := rfl

@[simp] theorem State.storeResults_ctx (c' : Id) : (s.storeResults ws).ctx c' = s.ctx c' := rfl
@[simp] theorem State.storeResults_pbuf (p' : Id) : (s.storeResults ws).pbuf p' = s.pbuf p' := rfl
@[simp] theorem State.storeResults_readP (a : Nat) : (s.storeResults ws).readP a = s.readP a := rfl

end

section

variable (s : State) (ws : List (Nat × Sample))

@[simp] theorem State.storePixels_cfg : (s.storePixels ws).cfg = s.cfg := rfl
@[simp] theorem State.storePixels_ctxs : (s.storePixels ws).ctxs = s.ctxs := rfl
@[simp] theorem State.storePixels_rmem : (s.storePixels ws).rmem = s.rmem := rfl
@[simp] theorem State.storePixels_pmem : (s.storePixels ws).pmem = s.pmem.writeAll ws := rfl
@[simp] theorem State.storePixels_respPort : (s.storePixels ws).respPort = s.respPort := rfl
@[simp] theorem State.storePixels_arrived : (s.storePixels ws).arrived = s.arrived := rfl
@[simp] theorem State.storePixels_live : (s.storePixels ws).live = s.live := rfl
@[simp] theorem State.storePixels_allocScript : (s.storePixels ws).allocScript = s.allocScript := rfl
@[simp] theorem State.storePixels_pbufs : (s.storePixels ws).pbufs = s.pbufs := rfl
@[simp] theorem State.storePixels_inputs : (s.storePixels ws).inputs = s.inputs := rfl
@[simp] theorem State.storePixels_allocCount : (s.storePixels ws).allocCount = s.allocCount := rfl
@[simp] theorem State.storePixels_rEpoch : (s.storePixels ws).rEpoch = s.rEpoch := rfl
@[simp] theorem State.storePixels_pEpoch : (s.storePixels ws).pEpoch = s.pEpoch := rfl
@[simp] theorem State.storePixels_draws : (s.storePixels ws).draws = s.draws + 1 := rfl
@[simp] theorem State.storePixels_responses : (s.storePixels ws).responses = s.responses := rfl
@[simp] theorem State.storePixels_trace : (s.storePixels ws).trace = s.trace := rfl

@[simp] theorem State.storePixels_ctx (c' : Id) : (s.storePixels ws).ctx c' = s.ctx c' := rfl
@[simp] theorem State.storePixels_pbuf (p' : Id) : (s.storePixels ws).pbuf p' = s.pbuf p' := rfl
@[simp] theorem State.storePixels_readR (a : Nat) : (s.storePixels ws).readR a = s.readR a := rfl

end

section

variable (s : State) (b : Addr) (n : Nat)

@[simp] theorem State.free_cfg : (s.free b n).cfg = s.cfg := rfl
@[simp] theorem State.free_ctxs : (s.free b n).ctxs = s.ctxs := rfl
@[simp] theorem State.free_rmem : (s.free b n).rmem = s.rmem.forget b.toNat n := rfl
@[simp] theorem State.free_pmem : (s.free b n).pmem = s.pmem := rfl
@[simp] theorem State.free_respPort : (s.free b n).respPort = s.respPort := rfl
@[simp] theorem State.free_arrived : (s.free b n).arrived = s.arrived := rfl
@[simp] theorem State.free_live : (s.free b n).live = s.live.erase { base := b, size := n } := rfl
@[simp] theorem State.free_allocScript : (s.free b n).allocScript = s.allocScript := rfl
@[simp] theorem State.free_pbufs : (s.free b n).pbufs = s.pbufs := rfl
@[simp] theorem State.free_inputs : (s.free b n).inputs = s.inputs := rfl
@[simp] theorem State.free_allocCount : (s.free b n).allocCount = s.allocCount := rfl
@[simp] theorem State.free_rEpoch : (s.free b n).rEpoch = s.rEpoch + 1 := rfl
@[simp] theorem State.free_pEpoch : (s.free b n).pEpoch = s.pEpoch := rfl
@[simp] theorem State.free_draws : (s.free b n).draws = s.draws := rfl
@[simp] theorem State.free_responses : (s.free b n).responses = s.responses := rfl
@[simp] theorem State.free_trace : (s.free b n).trace = s.trace ++ [.free b n] := rfl

@[simp] theorem State.free_ctx (c' : Id) : (s.free b n).ctx c' = s.ctx c' := rfl
@[simp] theorem State.free_pbuf (p' : Id) : (s.free b n).pbuf p' = s.pbuf p' := rfl
@[simp] theorem State.free_readP (a : Nat) : (s.free b n).readP a = s.readP a := rfl

end

/-- A bank reads as it was last set; the other banks keep their fields (10_state R20). -/
theorem State.ctx_setCtx (s : State) (c d : Id) (X : Context) :
    (s.setCtx c X).ctx d = if c = d then X else s.ctx d := by
  simp only [State.ctx, State.setCtx, Vector.getElem_set, BitVec.toNat_inj]

@[simp] theorem State.ctx_setCtx_self (s : State) (c : Id) (X : Context) : (s.setCtx c X).ctx c = X := by
  simp [State.ctx_setCtx]

theorem State.ctx_setCtx_of_ne (s : State) {c d : Id} (X : Context) (h : c ≠ d) :
    (s.setCtx c X).ctx d = s.ctx d := by
  simp [State.ctx_setCtx, h]

/-- A descriptor reads as it was last set. -/
theorem State.pbuf_setPbuf (s : State) (p q : Id) (d : Option PixelBuffer) :
    (s.setPbuf p d).pbuf q = if p = q then d else s.pbuf q := by
  simp only [State.pbuf, State.setPbuf, Vector.getElem_set, BitVec.toNat_inj]

/-- Taking the response touches the response port and the list of taken responses only. -/
theorem State.takeResponse_eq (s : State) :
    s.takeResponse =
      { s with respPort := none, responses := s.responses ++ s.respPort.toList } := by
  cases s with
  | mk cfg ctxs rmem pmem respPort => cases respPort <;> simp [State.takeResponse]

/-- After reset every bank is Uninitialized. -/
@[simp] theorem State.reset_ctx (c : Id) : State.reset.ctx c = Context.uninit := by
  simp [State.ctx, State.reset]

/-- After a reset of the unit every bank is Uninitialized. -/
@[simp] theorem State.resetUnit_ctx (s : State) (c : Id) : s.resetUnit.ctx c = Context.uninit := by
  simp [State.ctx, State.resetUnit]

end Sys2Proof.Machine
end

