-- ==== Sys2Proof/Laws/Codec.lean ====
section
/-! SUPPORT. Words and their fields: the command word (spec/30_encoding.md R71) and the response word (R73). -/

namespace Sys2Proof

/-- The fields of the word with given fields are those fields. -/
@[simp] theorem fieldsOf_word (f : Fields) : fieldsOf f.word = f := by
  obtain ⟨op, ctx, a, b, sel, rsv, height, width, psize, pidx⟩ := f
  simp (disch := omega) only [fieldsOf, Fields.word, BitVec.extractLsb'_append_eq_of_le,
    BitVec.extractLsb'_append_eq_of_add_le, Nat.reduceSub, BitVec.extractLsb'_eq_self]

/-- A word is the word of its fields: the fields cover every bit. -/
@[simp] theorem word_fieldsOf (w : Command) : (fieldsOf w).word = w := by
  simp only [fieldsOf, Fields.word]
  repeat rw [BitVec.extractLsb'_append_extractLsb'_eq_extractLsb' (by rfl)]
  exact BitVec.extractLsb'_eq_self

/-- The fields of an encoded command. -/
@[simp] theorem fieldsOf_encode (i : Instr) : fieldsOf (encode i) = fieldsOfInstr i := by
  simp [encode]

/-- Two words with the same fields are the same word. -/
theorem command_ext {v w : Command} (h : fieldsOf v = fieldsOf w) : v = w := by
  rw [← word_fieldsOf v, ← word_fieldsOf w, h]

namespace Machine

/-- The fields of a response word (30_encoding R73). -/
theorem fields_packResponse (st : BitVec 4) (v : BitVec 32) (x : BitVec 16) :
    responseStatus (packResponse st v x) = st ∧ responseRsv (packResponse st v x) = 0 ∧
      responseAux (packResponse st v x) = x ∧ responseValue (packResponse st v x) = v := by
  simp (disch := omega) only [responseStatus, responseRsv, responseAux, responseValue, packResponse,
    BitVec.extractLsb'_append_eq_of_le, BitVec.extractLsb'_append_eq_of_add_le, Nat.reduceSub,
    BitVec.extractLsb'_eq_self, and_self]

@[simp] theorem responseStatus_packResponse (st : BitVec 4) (v : BitVec 32) (x : BitVec 16) :
    responseStatus (packResponse st v x) = st := (fields_packResponse st v x).1

@[simp] theorem responseRsv_packResponse (st : BitVec 4) (v : BitVec 32) (x : BitVec 16) :
    responseRsv (packResponse st v x) = 0 := (fields_packResponse st v x).2.1

@[simp] theorem responseAux_packResponse (st : BitVec 4) (v : BitVec 32) (x : BitVec 16) :
    responseAux (packResponse st v x) = x := (fields_packResponse st v x).2.2.1

@[simp] theorem responseValue_packResponse (st : BitVec 4) (v : BitVec 32) (x : BitVec 16) :
    responseValue (packResponse st v x) = v := (fields_packResponse st v x).2.2.2

end Machine

end Sys2Proof
end

