-- ==== Sys2Proof/Laws/Memory.lean ====
section
/-! SUPPORT. The laws of the sample memories: what a read gives after each operation, and that every operation
keeps the canonical form. -/

namespace Sys2Proof.Machine

/-- A read after a write: the value at the written cell, the old contents elsewhere. -/
theorem Mem.read?_write (m : Mem) (a : Nat) (v : Sample) (c : Nat) :
    (m.write a v).read? c = if a = c then some v else m.read? c := by
  induction m with
  | nil => simp [Mem.write, Mem.read?]
  | cons e m ih =>
    simp only [Mem.write]
    split
    · simp [Mem.read?]
    · split
      · next h => subst h; simp only [Mem.read?]; split <;> simp
      · next h₁ h₂ =>
        simp only [Mem.read?, ih]
        by_cases hc : e.1 = c
        · have : a ≠ c := by omega
          simp [hc, this]
        · simp [hc]

/-- Reading after a list of writes whose addresses avoid the cell. -/
theorem Mem.read?_writeAll_of_notMem (ws : List (Nat × Sample)) :
    ∀ (m : Mem) (c : Nat), (∀ e ∈ ws, e.1 ≠ c) → (m.writeAll ws).read? c = m.read? c := by
  induction ws with
  | nil => intro m c _; rfl
  | cons e ws ih =>
    intro m c h
    have h1 := ih (m.write e.1 e.2) c (fun e' he' => h e' (List.mem_cons_of_mem _ he'))
    have h2 : e.1 ≠ c := h e List.mem_cons_self
    simp only [Mem.writeAll, List.foldl_cons] at h1 ⊢
    rw [h1, Mem.read?_write, if_neg h2]

/-- Reading after a list of writes that agree on the value of the cell. -/
theorem Mem.read?_writeAll_of_mem (ws : List (Nat × Sample)) :
    ∀ (m : Mem) (c : Nat) (v : Sample), (∃ e ∈ ws, e.1 = c) → (∀ e ∈ ws, e.1 = c → e.2 = v) →
      (m.writeAll ws).read? c = some v := by
  induction ws with
  | nil => intro m c v h _; simp at h
  | cons e ws ih =>
    intro m c v hex hall
    have step : (m.writeAll (e :: ws)) = (m.write e.1 e.2).writeAll ws := rfl
    rw [step]
    by_cases hin : ∃ e' ∈ ws, e'.1 = c
    · exact ih _ c v hin (fun e' he' => hall e' (List.mem_cons_of_mem _ he'))
    · have hno : ∀ e' ∈ ws, e'.1 ≠ c := fun e' he' hc => hin ⟨e', he', hc⟩
      rw [Mem.read?_writeAll_of_notMem ws _ c hno, Mem.read?_write]
      obtain ⟨e', he', hc⟩ := hex
      rcases List.mem_cons.mp he' with rfl | hmem
      · simp [hc, hall e' List.mem_cons_self hc]
      · exact absurd hc (hno e' hmem)

/-- A forgotten cell has no value; the other cells keep theirs. -/
theorem Mem.read?_forget (m : Mem) (b n c : Nat) :
    (m.forget b n).read? c = if inRange b n c then none else m.read? c := by
  induction m with
  | nil => simp [Mem.forget, Mem.read?]
  | cons e m ih =>
    simp only [Mem.forget, List.filter_cons] at ih ⊢
    by_cases he : inRange b n e.1
    · simp only [he, Bool.not_true, Bool.false_eq_true, if_false, ih, Mem.read?]
      by_cases hc : e.1 = c
      · subst hc; simp [he]
      · simp [hc]
    · simp only [he, Bool.not_false, if_true, Mem.read?, ih]
      by_cases hc : e.1 = c
      · subst hc; simp [he]
      · simp [hc]

/-- Membership after a write. -/
theorem Mem.mem_write {m : Mem} {a : Nat} {v : Sample} {e : Nat × Sample} (h : e ∈ m.write a v) :
    e = (a, v) ∨ e ∈ m := by
  induction m with
  | nil => simpa [Mem.write] using h
  | cons d m ih =>
    simp only [Mem.write] at h
    split at h
    · simpa using h
    · split at h
      · rcases List.mem_cons.mp h with h | h
        · exact .inl h
        · exact .inr (List.mem_cons_of_mem _ h)
      · rcases List.mem_cons.mp h with h | h
        · exact .inr (h ▸ List.mem_cons_self)
        · exact (ih h).imp id (List.mem_cons_of_mem _)

/-- Membership after a list of writes. -/
theorem Mem.mem_writeAll {ws : List (Nat × Sample)} :
    ∀ {m : Mem} {e : Nat × Sample}, e ∈ m.writeAll ws → e ∈ ws ∨ e ∈ m := by
  induction ws with
  | nil => intro m e h; exact .inr h
  | cons d ws ih =>
    intro m e h
    rcases ih (m := m.write d.1 d.2) h with h | h
    · exact .inl (List.mem_cons_of_mem _ h)
    · rcases Mem.mem_write h with h | h
      · exact .inl (by rw [h]; exact List.mem_cons_self)
      · exact .inr h

/-- A write keeps the canonical form. -/
theorem Mem.wf_write {m : Mem} (h : m.wf) (a : Nat) (v : Sample) : (m.write a v).wf := by
  induction m with
  | nil => simp [Mem.write, Mem.wf]
  | cons d m ih =>
    have hd := List.pairwise_cons.mp h
    simp only [Mem.write]
    split
    · next hlt =>
      refine List.pairwise_cons.mpr ⟨fun e he => ?_, h⟩
      rcases List.mem_cons.mp he with rfl | he
      · exact hlt
      · have := hd.1 e he
        simp only at this ⊢; omega
    · split
      · next heq => exact List.pairwise_cons.mpr ⟨fun e he => by simpa [heq] using hd.1 e he, hd.2⟩
      · next h1 h2 =>
        refine List.pairwise_cons.mpr ⟨fun e he => ?_, ih hd.2⟩
        rcases Mem.mem_write he with rfl | he
        · simp only; omega
        · exact hd.1 e he

/-- A list of writes keeps the canonical form. -/
theorem Mem.wf_writeAll (ws : List (Nat × Sample)) : ∀ {m : Mem}, m.wf → (m.writeAll ws).wf := by
  induction ws with
  | nil => exact fun h => h
  | cons e ws ih => exact fun h => ih (Mem.wf_write h e.1 e.2)

/-- Forgetting keeps the canonical form. -/
theorem Mem.wf_forget {m : Mem} (h : m.wf) (b n : Nat) : (m.forget b n).wf :=
  List.Pairwise.filter _ h

/-- A known cell is listed. -/
theorem Mem.mem_of_read? {m : Mem} {a : Nat} {v : Sample} (h : m.read? a = some v) : (a, v) ∈ m := by
  induction m with
  | nil => cases h
  | cons e m ih =>
    simp only [Mem.read?] at h
    split at h
    · next he => cases h; exact he ▸ List.mem_cons_self
    · exact List.mem_cons_of_mem _ (ih h)

/-- Membership after forgetting. -/
theorem Mem.mem_forget {m : Mem} {b n : Nat} {e : Nat × Sample} :
    e ∈ m.forget b n ↔ e ∈ m ∧ inRange b n e.1 = false := by
  simp [Mem.forget]

/-- `inRange` in arithmetic. -/
theorem inRange_iff {b n a : Nat} : inRange b n a = true ↔ b ≤ a ∧ a < b + n := by
  simp [inRange]

/-- The cells of a fill: every address of the run, each with the value. -/
theorem mem_fillCells {b n : Nat} {v : Sample} {e : Nat × Sample} :
    e ∈ fillCells b n v ↔ (b ≤ e.1 ∧ e.1 < b + n) ∧ e.2 = v := by
  obtain ⟨a, w⟩ := e
  simp only [fillCells, List.mem_map, List.mem_range, Prod.mk.injEq]
  constructor
  · rintro ⟨k, hk, rfl, rfl⟩; exact ⟨⟨by omega, by omega⟩, rfl⟩
  · rintro ⟨⟨h1, h2⟩, rfl⟩; exact ⟨a - b, by omega, by omega, rfl⟩

/-- The cells of a rectangle: one for each row and column. -/
theorem mem_rectCells {d st w h : Nat} {f : Nat → Nat → Sample} {e : Nat × Sample} :
    e ∈ rectCells d st w h f ↔ ∃ y < h, ∃ x < w, e = (d + y * st + x, f y x) := by
  simp only [rectCells, List.mem_flatMap, List.mem_range, List.mem_map]
  constructor
  · rintro ⟨y, hy, x, hx, rfl⟩; exact ⟨y, hy, x, hx, rfl⟩
  · rintro ⟨y, hy, x, hx, rfl⟩; exact ⟨y, hy, x, hx, rfl⟩

/-- Row and column of a cell are determined by its offset when rows do not overlap. -/
theorem rect_coords_unique {st w y x y' x' : Nat} (hw : w ≤ st) (hx : x < w) (hx' : x' < w)
    (h : y * st + x = y' * st + x') : y = y' ∧ x = x' := by
  have hst : 0 < st := by omega
  have h1 : (y * st + x) / st = y := by
    rw [Nat.mul_comm, Nat.mul_add_div hst, Nat.div_eq_of_lt (by omega), Nat.add_zero]
  have h2 : (y' * st + x') / st = y' := by
    rw [Nat.mul_comm, Nat.mul_add_div hst, Nat.div_eq_of_lt (by omega), Nat.add_zero]
  have hy : y = y' := by rw [← h1, ← h2, h]
  subst hy
  exact ⟨rfl, by omega⟩

/-- A read after a rectangle is written, its rows not overlapping: the value of the cell's row and column, the
old contents outside. -/
theorem Mem.read?_writeAll_rectCells (m : Mem) {d st w h : Nat} (f : Nat → Nat → Sample) (hw : w ≤ st)
    {y x : Nat} (hy : y < h) (hx : x < w) :
    (m.writeAll (rectCells d st w h f)).read? (d + y * st + x) = some (f y x) := by
  refine Mem.read?_writeAll_of_mem _ m _ _ ⟨(d + y * st + x, f y x), mem_rectCells.mpr ⟨y, hy, x, hx, rfl⟩, rfl⟩ ?_
  intro e he hc
  obtain ⟨y', _, x', hx', rfl⟩ := mem_rectCells.mp he
  obtain ⟨rfl, rfl⟩ := rect_coords_unique hw hx' hx (by simp only at hc; omega : y' * st + x' = y * st + x)
  rfl

/-- Outside the rectangle nothing changes. -/
theorem Mem.read?_writeAll_rectCells_of_not (m : Mem) {d st w h : Nat} (f : Nat → Nat → Sample) {c : Nat}
    (hc : ¬ InRect d st { w := w, h := h } c) :
    (m.writeAll (rectCells d st w h f)).read? c = m.read? c := by
  refine Mem.read?_writeAll_of_notMem _ m c fun e he heq => hc ?_
  obtain ⟨y, hy, x, hx, rfl⟩ := mem_rectCells.mp he
  exact ⟨y, hy, x, hx, heq.symm⟩

/-- A read after a list of writes, at a cell they write: the value of one of the writes to it. -/
theorem Mem.read?_writeAll_mem (ws : List (Nat × Sample)) :
    ∀ (m : Mem) (c : Nat), (∃ e ∈ ws, e.1 = c) → ∃ e ∈ ws, e.1 = c ∧ (m.writeAll ws).read? c = some e.2 := by
  induction ws with
  | nil => intro m c h; simp at h
  | cons e ws ih =>
    intro m c hex
    show ∃ d ∈ e :: ws, d.1 = c ∧ ((m.write e.1 e.2).writeAll ws).read? c = some d.2
    by_cases hin : ∃ d ∈ ws, d.1 = c
    · obtain ⟨d, h1, h2, h3⟩ := ih (m.write e.1 e.2) c hin
      exact ⟨d, List.mem_cons_of_mem _ h1, h2, h3⟩
    · have hno : ∀ d ∈ ws, d.1 ≠ c := fun d hd hc => hin ⟨d, hd, hc⟩
      obtain ⟨d, hd, hc⟩ := hex
      rcases List.mem_cons.mp hd with rfl | hd
      · exact ⟨d, List.mem_cons_self, hc, by
          rw [Mem.read?_writeAll_of_notMem ws _ c hno, Mem.read?_write, if_pos hc]⟩
      · exact absurd hc (hno d hd)

/-- The two cases of a residual cell's contents. -/
theorem State.readR_eq (s : State) (a : Nat) :
    s.readR a = (s.rmem.read? a).getD (Config.unwrittenResidual s.rEpoch a) := by
  unfold State.readR; cases s.rmem.read? a <;> rfl

/-- The two cases of a pixel cell's contents. -/
theorem State.readP_eq (s : State) (a : Nat) :
    s.readP a = (s.pmem.read? a).getD (truncTo s.cfg.pixw (Config.unwrittenPixel s.pEpoch a)) := by
  unfold State.readP; cases s.pmem.read? a <;> rfl

/-- Two states with the same RMEM and epoch read the same residual cells. -/
theorem State.readR_congr {s t : State} {a : Nat} (h : t.rmem.read? a = s.rmem.read? a)
    (he : t.rEpoch = s.rEpoch) : t.readR a = s.readR a := by
  simp only [State.readR_eq, h, he]

/-- Two states with the same PMEM, epoch and PIXW read the same pixel cells. -/
theorem State.readP_congr {s t : State} {a : Nat} (h : t.pmem.read? a = s.pmem.read? a)
    (he : t.pEpoch = s.pEpoch) (hc : t.cfg = s.cfg) : t.readP a = s.readP a := by
  simp only [State.readP_eq, h, he, hc]

/-- The reset memories have the canonical form. -/
theorem State.reset_mem_wf : State.reset.rmem.wf ∧ State.reset.pmem.wf := ⟨List.Pairwise.nil, List.Pairwise.nil⟩

end Sys2Proof.Machine
end

