-- ==== Sys2Proof/Laws/Ports.lean ====
section
/-! SUPPORT. What each shared operation can do, once: legality, phases, the ports, the kernels
(spec/45_external_interfaces.md). -/

namespace Sys2Proof.Machine

/-- The OK response word is zero. -/
theorem okResponse_eq : okResponse = 0 := by decide

/-- A command gets past legality only when it is well formed; else it is IllegalCommand. -/
theorem whenLegal_eq (i : Instr) (s : State) (k : Result) :
    (i.wf s.cfg = true → whenLegal i s k = k) ∧
      (i.wf s.cfg = false → whenLegal i s k = .next (s.respond CmdError.illegalCommand.code 0 0)) := by
  constructor <;> intro h <;> simp [whenLegal, h, raise]

/-- The end of a command's effects is a next state exactly when no phase met a fault. -/
theorem finish_next {r : Except Fault State} {t : State} : finish r = .next t ↔ ∃ u, r = .ok u ∧ t = u.done := by
  cases r <;> simp [finish, eq_comm]

/-- And a fault exactly when one did. -/
theorem finish_fault {r : Except Fault State} {f : Fault} : finish r = .fault f ↔ r = .error f := by
  cases r <;> simp [finish]

/-- A property every phase keeps holds after all of them. -/
theorem runPhases_ok {phase : Plane → State → Except Fault State} {P : State → Prop} :
    ∀ {ps : List Plane} {s t : State}, runPhases phase ps s = .ok t → P s →
      (∀ p ∈ ps, ∀ u v, P u → phase p u = .ok v → P v) → P t
  | [], s, t, h, hs, _ => by
    simp only [runPhases, Except.ok.injEq] at h
    exact h ▸ hs
  | p :: ps, s, t, h, hs, hp => by
    simp only [runPhases] at h
    split at h
    · next u hu =>
      exact runPhases_ok h (hp p List.mem_cons_self s u hs hu)
        fun q hq => hp q (List.mem_cons_of_mem _ hq)
    · simp at h

/-- If each phase completes from the states a property admits and keeps it, all of them complete. -/
theorem runPhases_completes {phase : Plane → State → Except Fault State} {P : State → Prop} :
    ∀ {ps : List Plane} {s : State}, P s → (∀ p ∈ ps, ∀ u, P u → ∃ v, phase p u = .ok v ∧ P v) →
      ∃ t, runPhases phase ps s = .ok t ∧ P t
  | [], s, hs, _ => ⟨s, rfl, hs⟩
  | p :: ps, s, hs, hp => by
    obtain ⟨u, hu, hPu⟩ := hp p List.mem_cons_self s hs
    obtain ⟨t, ht, hPt⟩ := runPhases_completes hPu fun q hq => hp q (List.mem_cons_of_mem _ hq)
    exact ⟨t, by simp only [runPhases, hu, ht], hPt⟩

/-- A fault of the phases is a fault of one of them, met in a state the earlier ones led to. -/
theorem runPhases_error {phase : Plane → State → Except Fault State} {P : State → Prop} {f : Fault} :
    ∀ {ps : List Plane} {s : State}, runPhases phase ps s = .error f → P s →
      (∀ p ∈ ps, ∀ u v, P u → phase p u = .ok v → P v) → ∃ p ∈ ps, ∃ u, P u ∧ phase p u = .error f
  | [], s, h, _, _ => by simp [runPhases] at h
  | p :: ps, s, h, hs, hp => by
    simp only [runPhases] at h
    split at h
    · next u hu =>
      obtain ⟨q, hq, hrest⟩ := runPhases_error h (hp p List.mem_cons_self s u hs hu)
        fun q hq => hp q (List.mem_cons_of_mem _ hq)
      exact ⟨q, List.mem_cons_of_mem _ hq, hrest⟩
    · next e he =>
      obtain rfl : e = f := by simpa using h
      exact ⟨p, List.mem_cons_self, s, hs, he⟩

/-- Phases of a list cut in two. -/
theorem runPhases_append (phase : Plane → State → Except Fault State) (ps qs : List Plane) :
    ∀ s, runPhases phase (ps ++ qs) s =
      match runPhases phase ps s with
      | .ok u => runPhases phase qs u
      | .error f => .error f := by
  induction ps with
  | nil => intro s; rfl
  | cons p ps ih =>
    intro s
    simp only [List.cons_append, runPhases]
    cases phase p s with
    | ok u => exact ih u
    | error f => rfl

/-- What the pixel-buffer port can answer. -/
theorem pixAddr_ok {pb : Id} {p : Plane} {pidx psize : Dim} {e : Extent} {s t : State} {q : Addr × Dim} :
    pixAddr pb p pidx psize e s = .ok (q, t) ↔
      ∃ d, s.pbuf pb = some d ∧ d.holds s.cfg p pidx psize e = true ∧
        q = (BitVec.ofNat 32 (d.pointer s.cfg p pidx psize), (d.plane p).stride) ∧
        t = s.record (.pixAddr pb p pidx psize (BitVec.ofNat 32 (d.pointer s.cfg p pidx psize))
          (d.plane p).stride) := by
  unfold pixAddr
  cases hd : s.pbuf pb with
  | none => exact ⟨fun h => (by cases h), fun ⟨d, h, _⟩ => (by cases h)⟩
  | some d =>
    dsimp only
    constructor
    · intro h
      by_cases hh : d.holds s.cfg p pidx psize e = true
      · rw [if_pos hh] at h
        cases h
        exact ⟨d, rfl, hh, rfl, rfl⟩
      · rw [if_neg hh] at h
        cases h
    · rintro ⟨d', hd', hh, rfl, rfl⟩
      cases hd'
      rw [if_pos hh]

/-- Why the pixel-buffer port faults. -/
theorem pixAddr_error {pb : Id} {p : Plane} {pidx psize : Dim} {e : Extent} {s : State} {f : Fault} :
    pixAddr pb p pidx psize e s = .error f ↔
      (f = .noPixelBuffer ∧ s.pbuf pb = none) ∨
        (f = .pixelRectOutsidePlane ∧ ∃ d, s.pbuf pb = some d ∧ d.holds s.cfg p pidx psize e = false) := by
  unfold pixAddr
  cases hd : s.pbuf pb with
  | none =>
    refine ⟨fun h => (by cases h; exact .inl ⟨rfl, rfl⟩), ?_⟩
    rintro (⟨rfl, _⟩ | ⟨_, d, h, _⟩)
    · rfl
    · cases h
  | some d =>
    dsimp only
    by_cases hh : d.holds s.cfg p pidx psize e = true
    · rw [if_pos hh]
      refine ⟨fun h => (by cases h), ?_⟩
      rintro (⟨_, h⟩ | ⟨_, d', h, h'⟩)
      · cases h
      · cases h; rw [hh] at h'; cases h'
    · rw [if_neg hh]
      refine ⟨fun h => ?_, ?_⟩
      · cases h; exact .inr ⟨rfl, d, rfl, by simpa using hh⟩
      · rintro (⟨_, h⟩ | ⟨rfl, _⟩)
        · cases h
        · rfl

/-- What an Alloc request can do: fail and change only the port's own fields, or give out an admitted region. -/
theorem State.alloc_cases (s : State) (n : Nat) :
    (s.allocAnswer n = none ∧ s.alloc n = (none, { s with
        allocScript := s.allocScript.tail, allocCount := s.allocCount + 1,
        trace := s.trace ++ [.alloc n none] })) ∨
    ∃ b, s.allocAnswer n = some b ∧ s.allocAdmits n b = true ∧ s.alloc n = (some b, { s with
        allocScript := s.allocScript.tail, allocCount := s.allocCount + 1,
        trace := s.trace ++ [.alloc n (some b)], live := { base := b, size := n } :: s.live,
        rmem := s.rmem.forget b.toNat n, rEpoch := s.rEpoch + 1 }) := by
  cases h : s.allocAnswer n with
  | none => exact .inl ⟨rfl, by simp [State.alloc, h]⟩
  | some b =>
    refine .inr ⟨b, rfl, ?_, by simp [State.alloc, h, State.forgetRegion]⟩
    unfold State.allocAnswer at h
    exact (Option.filter_eq_some_iff.mp h).2

/-- The first scripted answer is given, where the contract admits it. -/
theorem State.allocAnswer_script {s : State} {n : Nat} {b : Addr} {rest : List (Option Addr)}
    (h : s.allocScript = some b :: rest) (ha : s.allocAdmits n b = true) : s.allocAnswer n = some b := by
  simp [State.allocAnswer, h, ha]

/-- What an admitted base means, in arithmetic. -/
theorem State.allocAdmits_iff {s : State} {n : Nat} {b : Addr} :
    s.allocAdmits n b = true ↔
      ({ base := b, size := n } : Region).fits = true ∧
        ∀ q ∈ s.live, ({ base := b, size := n } : Region).disjoint q = true := by
  simp [State.allocAdmits]

/-- Disjointness in arithmetic. -/
theorem Region.disjoint_iff {q r : Region} :
    q.disjoint r = true ↔
      q.size = 0 ∨ r.size = 0 ∨ q.base.toNat + q.size ≤ r.base.toNat ∨ r.base.toNat + r.size ≤ q.base.toNat := by
  simp [Region.disjoint, or_assoc]

/-- Disjointness is symmetric. -/
theorem Region.disjoint_comm {q r : Region} (h : q.disjoint r = true) : r.disjoint q = true := by
  rw [Region.disjoint_iff] at h ⊢; tauto

/-- Membership in a region, in arithmetic. -/
theorem Region.contains_iff {r : Region} {a : Nat} :
    r.contains a = true ↔ r.base.toNat ≤ a ∧ a < r.base.toNat + r.size := inRange_iff

/-- Disjoint regions share no cell. -/
theorem Region.not_contains_of_disjoint {q r : Region} (h : q.disjoint r = true) {a : Nat}
    (hq : q.contains a = true) : r.contains a = false := by
  rw [Region.disjoint_iff] at h
  rw [Region.contains_iff] at hq
  by_contra hr
  rw [Bool.not_eq_false, Region.contains_iff] at hr
  omega

/-- What a kernel run can do: a SUB or ADD run stores into RMEM, a COPY run into PMEM, a SUB_CHROMA run of an
unknown colour space faults. -/
theorem runKernel_cases (r : KRecord) (s : State) :
    (∃ ws, runKernel r s = .ok (s.storeResults ws)) ∨ (∃ ws, runKernel r s = .ok (s.storePixels ws)) ∨
      runKernel r s = .error .colourSpaceUndefined := by
  cases r with
  | subLuma => exact .inl ⟨_, rfl⟩
  | subChroma cls csp =>
    simp only [runKernel]
    cases s.cfg.cspShift csp with
    | none => exact .inr (.inr rfl)
    | some row => exact .inl ⟨_, rfl⟩
  | add => exact .inl ⟨_, rfl⟩
  | copy => exact .inr (.inl ⟨_, rfl⟩)

/-- The stored value where the exact result is a wide sample. -/
theorem State.wide_toInt (s : State) (a : Nat) {v : Int} (h1 : -32768 ≤ v) (h2 : v ≤ 32767) :
    (s.wide a v).toInt = v := by
  have : fitsWide v = true := by simp [fitsWide, h1, h2]
  simp only [State.wide, this, if_true, BitVec.toInt_ofInt]
  rw [Int.bmod_eq_of_le] <;> omega

/-- So it is for the add kernel. -/
theorem State.wideSum_toInt (s : State) (a : Nat) {v : Int} (h1 : -32768 ≤ v) (h2 : v ≤ 32767) :
    (s.wideSum a v).toInt = v := by
  have := s.wide_toInt a h1 h2
  simpa only [State.wideSum, State.wide, show fitsWide v = true by simp [fitsWide, h1, h2], if_true] using this

/-- What the add kernel stores for a clipped sum is within the sum's range, even where the sum is no wide sample
(43_addclip R154). -/
theorem State.wideSum_range (s : State) (a : Nat) {v hi : Int} (h1 : 0 ≤ v) (h2 : v ≤ hi) :
    0 ≤ (s.wideSum a v).toInt ∧ (s.wideSum a v).toInt ≤ hi := by
  by_cases h3 : v ≤ 32767
  · rw [s.wideSum_toInt a (by omega) h3]; exact ⟨h1, h2⟩
  · have hf : fitsWide v = false := by simp [fitsWide]; omega
    have hm : (Config.unfitSample s.draws a &&& 0x7FFF).toNat ≤ 0x7FFF := by
      rw [BitVec.toNat_and]; exact Nat.and_le_right
    simp only [State.wideSum, hf, Bool.false_eq_true, if_false]
    rw [BitVec.toInt_eq_toNat_of_lt (by omega)]
    omega

/-- Every write of `visitLast` is one of the given writes. -/
theorem mem_of_mem_visitLast {pick : Nat → Nat} {ws : List (Nat × Sample)} {e : Nat × Sample}
    (h : e ∈ visitLast pick ws) : e ∈ ws := by
  simp only [visitLast, List.mem_map] at h
  obtain ⟨d, hd, rfl⟩ := h
  have hpos : 0 < ((ws.filter fun x => x.1 = d.1).map (·.2)).length :=
    List.length_pos_of_mem (List.mem_map.mpr ⟨d, List.mem_filter.mpr ⟨hd, by simp⟩, rfl⟩)
  rw [List.getD_eq_getElem _ _ (Nat.mod_lt _ hpos)]
  have hm := List.getElem_mem (Nat.mod_lt (pick d.1) hpos)
  generalize ((ws.filter fun x => x.1 = d.1).map (·.2))[pick d.1 % _]'(Nat.mod_lt (pick d.1) hpos) = v at hm ⊢
  obtain ⟨e, he, rfl⟩ := List.mem_map.mp hm
  obtain ⟨he, hc⟩ := List.mem_filter.mp he
  rw [← of_decide_eq_true hc]
  exact he

/-- Every given write has one of `visitLast` at its cell. -/
theorem mem_visitLast {pick : Nat → Nat} {ws : List (Nat × Sample)} {e : Nat × Sample} (h : e ∈ ws) :
    ∃ d ∈ visitLast pick ws, d.1 = e.1 :=
  ⟨_, List.mem_map.mpr ⟨e, h, rfl⟩, rfl⟩

/-- Every write of a narrowing copy is that of a sample of the rectangle. -/
theorem State.mem_narrowCells {s : State} {d st src srcSt : Nat} {e : Extent} {w : Nat × Sample}
    (hw : w ∈ s.narrowCells d st src srcSt e) : ∃ y < e.h, ∃ x < e.w,
      w = (d + y * st + x, truncTo s.cfg.pixw (s.readR (src + y * srcSt + x))) := by
  unfold State.narrowCells at hw
  dsimp only at hw
  split at hw
  · exact mem_rectCells.mp hw
  · exact mem_rectCells.mp (mem_of_mem_visitLast hw)

/-- What a narrowing copy leaves: each cell of the rectangle holds the truncation of a sample that goes to it, every
other cell its old contents. -/
theorem State.read?_writeAll_narrowCells (s : State) (m : Mem) (d st src srcSt : Nat) (e : Extent) (c : Nat) :
    (InRect d st e c → ∃ y < e.h, ∃ x < e.w, c = d + y * st + x ∧
      (m.writeAll (s.narrowCells d st src srcSt e)).read? c =
        some (truncTo s.cfg.pixw (s.readR (src + y * srcSt + x)))) ∧
    (¬ InRect d st e c → (m.writeAll (s.narrowCells d st src srcSt e)).read? c = m.read? c) := by
  constructor
  · rintro ⟨y, hy, x, hx, rfl⟩
    obtain ⟨w, h1, h2, h3⟩ := Mem.read?_writeAll_mem (s.narrowCells d st src srcSt e) m (d + y * st + x) (by
      have hm := (mem_rectCells (d := d) (st := st)
        (f := fun y x => truncTo s.cfg.pixw (s.readR (src + y * srcSt + x)))).mpr ⟨y, hy, x, hx, rfl⟩
      unfold State.narrowCells
      dsimp only
      split
      · exact ⟨_, hm, rfl⟩
      · exact mem_visitLast hm)
    obtain ⟨y', hy', x', hx', rfl⟩ := State.mem_narrowCells h1
    exact ⟨y', hy', x', hx', h2.symm, h3⟩
  · intro hc
    refine Mem.read?_writeAll_of_notMem _ m c fun w hw heq => hc ?_
    obtain ⟨y, hy, x, hx, rfl⟩ := State.mem_narrowCells hw
    exact ⟨y, hy, x, hx, heq.symm⟩

/-- The clip of the add kernel as a maximum and a minimum. -/
theorem clip_eq {hi v : Int} (h : 0 ≤ hi) : clip 0 hi v = max 0 (min hi v) := by
  unfold clip; split <;> [skip; split] <;> omega

/-- Truncation, as a remainder. -/
theorem truncTo_toNat (n : Nat) (v : Sample) : (truncTo n v).toNat = v.toNat % 2 ^ n := by
  simp only [truncTo, BitVec.toNat_ofNat]
  exact Nat.mod_eq_of_lt (lt_of_le_of_lt (Nat.mod_le _ _) v.isLt)

/-- The chroma planes are never wider or taller than a 16-bit size. -/
theorem Context.extent_lt (T : Context) (w h : Dim) (p : Plane) :
    (T.extent w h p).w < 2 ^ 16 ∧ (T.extent w h p).h < 2 ^ 16 := by
  have h1 : w.toNat >>> T.hs p ≤ w.toNat := Nat.shiftRight_le _ _
  have h2 : h.toNat >>> T.vs p ≤ h.toNat := Nat.shiftRight_le _ _
  simp only [Context.extent]
  omega

/-- The bounds check in arithmetic. -/
theorem Context.inBounds_iff {cfg : Config} {X : Context} {p : Plane} {pidx psize : Dim} {e : Extent} :
    X.inBounds cfg p pidx psize e = true ↔
      X.col cfg p pidx psize + e.w ≤ (X.pw p).toNat ∧ X.row cfg p pidx psize + e.h ≤ (X.ph p).toNat := by
  simp [Context.inBounds]

/-- Membership in the plan: the plane is selected, present and not empty (41_addressing R128). -/
theorem Context.mem_plan {T : Context} {planes : List Plane} {w h : Dim} {p : Plane} :
    p ∈ T.plan planes w h ↔
      p ∈ planes ∧ (p = .y ∨ T.cpres = true) ∧ 0 < (T.extent w h p).w ∧ 0 < (T.extent w h p).h := by
  simp [Context.plan, Context.active, and_assoc]

end Sys2Proof.Machine
end

