-- ==== Sys2Proof/Laws/Lifecycle.lean ====
section
/-! SUPPORT. What the allocator's port, and CREATE and DESTROY through it, can change (spec/40_lifecycle.md R103 to
R106, spec/45_external_interfaces.md R192, R193), and the account of live regions. -/

namespace Sys2Proof.Machine

/-- `t` differs from `s` by allocator requests alone: the fields below are kept, and a residual cell keeps its
value or loses it. -/
structure PortFrame (s t : State) : Prop where
  cfg : t.cfg = s.cfg
  pmem : t.pmem = s.pmem
  pbufs : t.pbufs = s.pbufs
  inputs : t.inputs = s.inputs
  arrived : t.arrived = s.arrived
  responses : t.responses = s.responses
  pEpoch : t.pEpoch = s.pEpoch
  ctxs : t.ctxs = s.ctxs
  draws : t.draws = s.draws
  respPort : t.respPort = s.respPort
  rmem : ∀ a, t.rmem.read? a = s.rmem.read? a ∨ t.rmem.read? a = none

/-- No request changes nothing. -/
theorem PortFrame.refl (s : State) : PortFrame s s :=
  ⟨rfl, rfl, rfl, rfl, rfl, rfl, rfl, rfl, rfl, rfl, fun _ => .inl rfl⟩

/-- Requests in sequence. -/
theorem PortFrame.trans {s t u : State} (h : PortFrame s t) (k : PortFrame t u) : PortFrame s u where
  cfg := k.cfg.trans h.cfg
  pmem := k.pmem.trans h.pmem
  pbufs := k.pbufs.trans h.pbufs
  inputs := k.inputs.trans h.inputs
  arrived := k.arrived.trans h.arrived
  responses := k.responses.trans h.responses
  pEpoch := k.pEpoch.trans h.pEpoch
  ctxs := k.ctxs.trans h.ctxs
  draws := k.draws.trans h.draws
  respPort := k.respPort.trans h.respPort
  rmem a := by
    rcases k.rmem a with h' | h' <;> rw [h']
    · exact h.rmem a
    · exact .inr rfl

/-- What a Free changes. -/
theorem PortFrame.free (s : State) (b : Addr) (n : Nat) : PortFrame s (s.free b n) :=
  ⟨rfl, rfl, rfl, rfl, rfl, rfl, rfl, rfl, rfl, rfl, fun a => by
    show (s.rmem.forget b.toNat n).read? a = _ ∨ (s.rmem.forget b.toNat n).read? a = none
    rw [Mem.read?_forget]
    split <;> simp⟩

/-- What an Alloc changes. -/
theorem PortFrame.alloc (s : State) (n : Nat) : PortFrame s (s.alloc n).2 := by
  rcases s.alloc_cases n with ⟨_, h⟩ | ⟨b, _, _, h⟩ <;> rw [h]
  · exact ⟨rfl, rfl, rfl, rfl, rfl, rfl, rfl, rfl, rfl, rfl, fun _ => .inl rfl⟩
  · exact ⟨rfl, rfl, rfl, rfl, rfl, rfl, rfl, rfl, rfl, rfl, fun a => by
      simp only [Mem.read?_forget]
      split <;> simp⟩

/-- What CREATE's three requests change. -/
theorem PortFrame.allocThree (s : State) (n m : Nat) : PortFrame s (s.allocThree n m).2 := by
  unfold State.allocThree
  have h1 := PortFrame.alloc s n
  split
  · next s1 he => rw [he] at h1; exact h1
  · next b s1 he =>
    rw [he] at h1
    have h2 := PortFrame.alloc s1 m
    split
    · next s2 he => rw [he] at h2; exact (h1.trans h2).trans (.free _ _ _)
    · next b2 s2 he =>
      rw [he] at h2
      have h3 := PortFrame.alloc s2 m
      split
      · next s3 he => rw [he] at h3; exact (((h1.trans h2).trans h3).trans (.free _ _ _)).trans (.free _ _ _)
      · next b3 s3 he => rw [he] at h3; exact (h1.trans h2).trans h3

/-- The context file after one context is replaced. -/
theorem State.ctx_of_set {s u : State} {c : Id} {X : Context} (h : u.ctxs = s.ctxs.set c.toNat X c.isLt) (d : Id) :
    u.ctx d = if d = c then X else s.ctx d := by
  simp only [State.ctx, h, Vector.getElem_set, BitVec.toNat_inj, eq_comm]

/-- The start of a CREATE, and the whole of a DESTROY: a Ready context is released, else nothing happens. -/
theorem release_cases (s : State) (c : Id) :
    ∃ u, (if (s.ctx c).ready then s.release c else s) =
        { u with ctxs := if (s.ctx c).ready then s.ctxs.set c.toNat Context.uninit c.isLt else s.ctxs } ∧
      PortFrame s u := by
  by_cases h : (s.ctx c).ready = true
  · simp only [h, if_true]
    exact ⟨_, rfl, ((PortFrame.free _ _ _).trans (.free _ _ _)).trans (.free _ _ _)⟩
  · simp only [h]
    exact ⟨s, rfl, .refl s⟩

/-- What a CREATE with a defined colour space can do: requests, one context replaced, and the answer that says whether
it is Ready. -/
theorem createWith_cases (s : State) (c csp : Id) (row : CspRow) (w h : Dim) :
    ∃ u X r, s.createWith c csp row w h =
        { u with ctxs := s.ctxs.set c.toNat X c.isLt, respPort := some r } ∧
      PortFrame s u ∧
      ((r = 0 ∧ X.ready = true) ∨ (r = 0x1000000000000000 ∧ X = Context.uninit)) := by
  obtain ⟨v, h4, h5⟩ := release_cases s c
  unfold State.createWith
  dsimp only
  rw [h4]
  generalize hs0 : ({ v with ctxs := if (s.ctx c).ready then s.ctxs.set c.toNat Context.uninit c.isLt else s.ctxs } :
    State) = s0
  have h3 := PortFrame.allocThree s0 (w.toNat * h.toNat) ((chromaWidth row w).toNat * (chromaHeight row h).toNat)
  have hset : ∀ X, s0.ctxs.set c.toNat X c.isLt = s.ctxs.set c.toNat X c.isLt := by
    intro X
    rw [← hs0]
    dsimp only
    split <;> simp
  have fin : ∀ u, PortFrame s0 u → PortFrame s { u with ctxs := s.ctxs } := by
    intro u hu
    have h0 : PortFrame s { s0 with ctxs := s.ctxs } := by
      rw [← hs0]
      exact ⟨h5.cfg, h5.pmem, h5.pbufs, h5.inputs, h5.arrived, h5.responses, h5.pEpoch, rfl, h5.draws,
        h5.respPort, h5.rmem⟩
    exact h0.trans ⟨hu.cfg, hu.pmem, hu.pbufs, hu.inputs, hu.arrived, hu.responses, hu.pEpoch, rfl, hu.draws,
      hu.respPort, hu.rmem⟩
  split
  · next b s1 he =>
    rw [he] at h3
    refine ⟨{ s1 with ctxs := s.ctxs }, createdContext csp row w h b, 0, ?_, fin s1 h3, .inl ⟨rfl, rfl⟩⟩
    have e := (congrArg (fun v => v.set c.toNat (createdContext csp row w h b) c.isLt) h3.ctxs).trans (hset _)
    dsimp only at e
    simp only [State.setCtx, State.done, State.respond, e]
    rfl
  · next s1 he =>
    rw [he] at h3
    refine ⟨{ s1 with ctxs := s.ctxs }, Context.uninit, 0x1000000000000000, ?_, fin s1 h3, .inr ⟨rfl, rfl⟩⟩
    have e := (congrArg (fun v => v.set c.toNat Context.uninit c.isLt) h3.ctxs).trans (hset _)
    dsimp only at e
    simp only [State.setCtx, State.respond, e]
    rfl

/-! ### The account of live regions -/

/-- RMEM and the allocator's record are sound, and the live regions are those of the list `hs`. -/
structure Accounts (s : State) (hs : List Region) : Prop where
  rmemWf : s.rmem.wf
  liveHeld : s.live.Perm hs
  liveApart : s.live.Pairwise fun q r => q.disjoint r = true
  liveFits : ∀ r ∈ s.live, r.fits = true
  rmemLive : ∀ e ∈ s.rmem, ∃ r ∈ s.live, r.contains e.1 = true

/-- The invariant's part on regions. -/
theorem State.Inv.accounts {s : State} (h : s.Inv) : Accounts s s.held := ⟨h.2, h.5, h.6, h.7, h.8⟩

/-- The account up to the order of its list. -/
theorem Accounts.perm {s : State} {hs hs' : List Region} (h : Accounts s hs) (p : hs.Perm hs') : Accounts s hs' :=
  { h with liveHeld := h.liveHeld.trans p }

/-- The account speaks of RMEM and the allocator's record only. -/
theorem Accounts.congr {s t : State} {hs : List Region} (h : Accounts s hs) (h1 : t.rmem = s.rmem)
    (h2 : t.live = s.live) : Accounts t hs := by
  obtain ⟨a, b, c, d, e⟩ := h
  exact ⟨h1 ▸ a, h2 ▸ b, h2 ▸ c, h2 ▸ d, by rw [h1, h2]; exact e⟩

/-- A region accounted for is live. -/
theorem Accounts.mem_live {s : State} {hs : List Region} (h : Accounts s hs) {r : Region} (hr : r ∈ hs) :
    r ∈ s.live := h.liveHeld.mem_iff.mpr hr

/-- An Alloc adds the region it gives. -/
theorem Accounts.alloc {s : State} {hs : List Region} (h : Accounts s hs) (n : Nat) :
    match s.alloc n with
    | (none, t) => Accounts t hs
    | (some b, t) => Accounts t ({ base := b, size := n } :: hs) := by
  rcases s.alloc_cases n with ⟨_, e⟩ | ⟨b, _, hadm, e⟩ <;> rw [e]
  · exact ⟨h.1, h.2, h.3, h.4, h.5⟩
  · rw [State.allocAdmits_iff] at hadm
    refine ⟨Mem.wf_forget h.1 _ _, h.2.cons _, List.pairwise_cons.mpr ⟨hadm.2, h.3⟩, ?_, ?_⟩
    · intro r hr
      rcases List.mem_cons.mp hr with rfl | hr
      · exact hadm.1
      · exact h.4 r hr
    · intro e he
      obtain ⟨r, hr, hc⟩ := h.5 e (Mem.mem_forget.mp he).1
      exact ⟨r, List.mem_cons_of_mem _ hr, hc⟩

/-- A Free of an accounted region removes it. -/
theorem Accounts.free {s : State} {hs : List Region} {b : Addr} {n : Nat}
    (h : Accounts s ({ base := b, size := n } :: hs)) : Accounts (s.free b n) hs := by
  have hmem : ({ base := b, size := n } : Region) ∈ s.live := h.mem_live List.mem_cons_self
  refine ⟨Mem.wf_forget h.1 _ _, ?_, List.Pairwise.sublist List.erase_sublist h.3,
    fun r hr => h.4 r (List.mem_of_mem_erase hr), ?_⟩
  · exact (List.perm_cons _).mp ((List.perm_cons_erase hmem).symm.trans h.2)
  · intro e he
    obtain ⟨he1, he2⟩ := Mem.mem_forget.mp he
    obtain ⟨r, hr, hc⟩ := h.5 e he1
    refine ⟨r, (List.mem_erase_of_ne ?_).mpr hr, hc⟩
    rintro rfl
    rw [Region.contains, he2] at hc
    cases hc

/-- CREATE's three requests: all three regions are added, or none. -/
theorem Accounts.allocThree {s : State} {hs : List Region} (h : Accounts s hs) (n m : Nat) :
    match s.allocThree n m with
    | (none, t) => Accounts t hs
    | (some b, t) => Accounts t
        ({ base := b.cr, size := m } :: { base := b.cb, size := m } :: { base := b.y, size := n } :: hs) := by
  unfold State.allocThree
  have h1 := h.alloc n
  revert h1
  obtain ⟨_ | b, t⟩ := s.alloc n <;> intro h1
  · exact h1
  · dsimp only at h1 ⊢
    have h2 := h1.alloc m
    revert h2
    obtain ⟨_ | b2, t2⟩ := t.alloc m <;> intro h2
    · exact h2.free
    · dsimp only at h2 ⊢
      have h3 := h2.alloc m
      revert h3
      obtain ⟨_ | b3, t3⟩ := t2.alloc m <;> intro h3
      · exact (h3.perm (List.Perm.swap _ _ _)).free.free
      · exact h3

/-- A cell of no live region is not known. -/
theorem Accounts.read?_none {s : State} {hs : List Region} (h : Accounts s hs) {a : Nat}
    (ha : ∀ r ∈ s.live, r.contains a = false) : s.rmem.read? a = none := by
  cases hv : s.rmem.read? a with
  | none => rfl
  | some v =>
    obtain ⟨r, hr, hc⟩ := h.rmemLive _ (Mem.mem_of_read? hv)
    rw [ha r hr] at hc
    cases hc

/-- An admitted region holds no known cell. -/
theorem Accounts.read?_admitted {s : State} {hs : List Region} (h : Accounts s hs) {n a : Nat} {b : Addr}
    (hb : s.allocAdmits n b = true) (ha : inRange b.toNat n a = true) : s.rmem.read? a = none :=
  h.read?_none fun q hq =>
    Region.not_contains_of_disjoint ((State.allocAdmits_iff.mp hb).2 q hq) ha

/-- An Alloc changes no known cell, and the cells of the region it gives are not known. -/
theorem Accounts.alloc_read? {s t : State} {hs : List Region} (h : Accounts s hs) {n : Nat} {o : Option Addr}
    (e : s.alloc n = (o, t)) :
    (∀ a, t.rmem.read? a = s.rmem.read? a) ∧
      ∀ b, o = some b → ∀ a, inRange b.toNat n a = true → s.rmem.read? a = none := by
  rcases s.alloc_cases n with ⟨_, e'⟩ | ⟨b, _, hb, e'⟩ <;> rw [e'] at e <;> cases e
  · exact ⟨fun _ => rfl, fun b hb => by cases hb⟩
  · refine ⟨fun a => ?_, fun b' hb' a ha => ?_⟩
    · simp only [Mem.read?_forget]
      split
      · next ha => exact (h.read?_admitted hb ha).symm
      · rfl
    · cases hb'
      exact h.read?_admitted hb ha

/-- A Free of a region without known cells changes no known cell. -/
theorem State.free_read? {s : State} {b : Addr} {n : Nat}
    (h : ∀ a, inRange b.toNat n a = true → s.rmem.read? a = none) (a : Nat) :
    (s.free b n).rmem.read? a = s.rmem.read? a := by
  rw [State.free_rmem, Mem.read?_forget]
  split
  · next ha => exact (h a ha).symm
  · rfl

/-- CREATE's three requests, with the Frees of a failure, change no known cell. -/
theorem Accounts.allocThree_read? {s : State} {hs : List Region} (h : Accounts s hs) (n m a : Nat) :
    (s.allocThree n m).2.rmem.read? a = s.rmem.read? a := by
  have h1 := h.alloc n
  unfold State.allocThree
  rcases e1 : s.alloc n with ⟨_ | b1, s1⟩ <;> simp only [e1] at h1 ⊢
  · exact (h.alloc_read? e1).1 a
  obtain ⟨r1, n1⟩ := h.alloc_read? e1
  have h2 := h1.alloc m
  rcases e2 : s1.alloc m with ⟨_ | b2, s2⟩ <;> simp only [e2] at h2 ⊢
  · obtain ⟨r2, -⟩ := h1.alloc_read? e2
    rw [State.free_read? fun c hc => by rw [r2, r1, n1 b1 rfl c hc], r2, r1]
  obtain ⟨r2, n2⟩ := h1.alloc_read? e2
  rcases e3 : s2.alloc m with ⟨_ | b3, s3⟩ <;> obtain ⟨r3, -⟩ := h2.alloc_read? e3 <;> dsimp only
  · have f1 : ∀ c, (s3.free b1 n).rmem.read? c = s.rmem.read? c := fun c => by
      rw [State.free_read? fun c hc => by rw [r3, r2, r1, n1 b1 rfl c hc], r3, r2, r1]
    rw [State.free_read? fun c hc => by rw [f1, ← r1, n2 b2 rfl c hc], f1]
  · rw [r3, r2, r1]

/-- The regions all contexts but `c` hold. -/
def State.heldByOthers (s : State) (c : Id) : List Region :=
  (s.ctxs.toList.eraseIdx c.toNat).flatMap Context.regions

/-- The held regions after one context is replaced: its own, then the others'. -/
theorem held_perm_of_set {s u : State} {c : Id} {X : Context} (hu : u.ctxs = s.ctxs.set c.toNat X c.isLt) :
    u.held.Perm (X.regions ++ s.heldByOthers c) := by
  unfold State.held State.heldByOthers
  rw [hu, Vector.toList_set, List.set_eq_take_cons_drop _ (by have := c.isLt; simp; omega),
    List.eraseIdx_eq_take_drop_succ]
  simp only [List.flatMap_append, List.flatMap_cons]
  rw [← List.append_assoc, ← List.append_assoc]
  exact List.perm_append_comm.append_right _

/-- The held regions: a context's own, then the others'. -/
theorem held_perm (s : State) (c : Id) : s.held.Perm ((s.ctx c).regions ++ s.heldByOthers c) :=
  held_perm_of_set (by simp [State.ctx])

/-- Releasing a Ready context leaves the others' regions live. -/
theorem Accounts.release {s : State} {c : Id} (h : Accounts s s.held) (hr : (s.ctx c).ready = true) :
    Accounts (s.release c) (s.heldByOthers c) := by
  have h0 := h.perm (held_perm s c)
  simp only [Context.regions, hr, if_true, List.cons_append, List.nil_append] at h0
  exact h0.free.free.free.congr rfl rfl

end Sys2Proof.Machine
end

