-- ==== Sys2Proof/Laws/Phases.lean ====
section
/-! SUPPORT. What one phase of SUB, ADDCLIP and the copies can do, once (spec/42_subtract.md R141, spec/43_addclip.md
R151, spec/44_copy.md R163, R168). Later proofs cite these and never unfold a phase. -/

namespace Sys2Proof.Machine

/-- Recording a request and running a subtract or add kernel is one update. -/
theorem storeResults_record (s : State) (e : PortEvent) (ws : List (Nat × Sample)) :
    (s.record e).storeResults ws =
      { s with rmem := s.rmem.writeAll ws, draws := s.draws + 1, trace := s.trace ++ [e] } := rfl

/-- Recording a request and running a copy kernel is one update. -/
theorem storePixels_record (s : State) (e : PortEvent) (ws : List (Nat × Sample)) :
    (s.record e).storePixels ws =
      { s with pmem := s.pmem.writeAll ws, draws := s.draws + 1, trace := s.trace ++ [e] } := rfl

/-- The side of a size class is the size, for the sizes of SUB_SIZES (00_scope R11). -/
theorem classSide_sizeClass {psize : Dim} (h : subSizeOk psize = true) :
    classSide (sizeClass psize) = psize.toNat := by
  simp only [subSizeOk, subSizes, List.contains_cons, List.contains_nil, Bool.or_false, Bool.or_eq_true,
    beq_iff_eq] at h
  unfold classSide sizeClass
  rcases h with h | h | h | h | h <;> rw [h] <;> decide

/-- The size class of a size that is a power of two from 4 to 512. -/
theorem sizeClass_eq {psize : Dim} {cls : BitVec 3} (h : psize.toNat = 2 ^ (cls.toNat + 2)) :
    sizeClass psize = cls := by
  unfold sizeClass
  rw [h, Nat.log2_two_pow, Nat.add_sub_cancel]
  exact BitVec.ofNat_toNat _ cls |>.trans (BitVec.setWidth_eq cls)

/-- A subtract phase with live pixel buffers whose planes hold the rectangle, and, for chroma, a colour space the
kernel table knows: the extent `e` the kernel gives the record is written. -/
theorem subPhase_eq {T : Context} {a b : Id} {pidx psize : Dim} {p : Plane} {s : State} {dA dB : PixelBuffer}
    {e : Extent} (hA : s.pbuf a = some dA) (hB : s.pbuf b = some dB)
    (hdA : dA.holds s.cfg p pidx psize (T.extent psize psize p) = true)
    (hdB : dB.holds s.cfg p pidx psize (T.extent psize psize p) = true)
    (hy : p = .y → e = { w := classSide (sizeClass psize), h := classSide (sizeClass psize) })
    (hc : p ≠ .y → ∃ row, s.cfg.cspShift T.csp = some row ∧
      e = { w := classSide (sizeClass psize) >>> row.hShift.toNat,
            h := classSide (sizeClass psize) >>> row.vShift.toNat }) :
    subPhase T a b pidx psize p s = .ok { s with
      rmem := s.rmem.writeAll (s.subCells (T.addr32 s.cfg p pidx psize).toNat (T.pw p).toNat
        (BitVec.ofNat 32 (dA.pointer s.cfg p pidx psize)).toNat (dA.plane p).stride.toNat
        (BitVec.ofNat 32 (dB.pointer s.cfg p pidx psize)).toNat (dB.plane p).stride.toNat e)
      draws := s.draws + 1
      trace := s.trace ++
        [.pixAddr a p pidx psize (BitVec.ofNat 32 (dA.pointer s.cfg p pidx psize)) (dA.plane p).stride,
         .pixAddr b p pidx psize (BitVec.ofNat 32 (dB.pointer s.cfg p pidx psize)) (dB.plane p).stride,
         .kinvoke (subRecord s.cfg T p pidx psize
           (BitVec.ofNat 32 (dA.pointer s.cfg p pidx psize), (dA.plane p).stride)
           (BitVec.ofNat 32 (dB.pointer s.cfg p pidx psize), (dB.plane p).stride))] } := by
  have h1 := pixAddr_ok.mpr ⟨dA, hA, hdA, rfl, rfl⟩
  have h2 : pixAddr b p pidx psize (T.extent psize psize p)
      (s.record (.pixAddr a p pidx psize (BitVec.ofNat 32 (dA.pointer s.cfg p pidx psize)) (dA.plane p).stride)) = _ :=
    pixAddr_ok.mpr ⟨dB, hB, hdB, rfl, rfl⟩
  unfold subPhase
  dsimp only
  rw [h1]
  dsimp only
  rw [h2]
  dsimp only
  have app : ∀ (l : List PortEvent) (x y z : PortEvent), l ++ [x] ++ [y] ++ [z] = l ++ [x, y, z] := by simp
  cases p
  · obtain rfl := hy rfl
    simp only [kinvoke, subRecord, runKernel, storeResults_record, Except.ok.injEq]
    simp only [State.record, app]
    rfl
  all_goals
    obtain ⟨row, hrow, rfl⟩ := hc (by decide)
    simp only [kinvoke, subRecord, runKernel, State.record_cfg, hrow, storeResults_record, Except.ok.injEq]
    simp only [State.record, app]
    rfl

/-- What a subtract phase changes, whatever it is asked: RMEM, the counter of free values and the ports' trace. -/
theorem subPhase_frame {T : Context} {a b : Id} {pidx psize : Dim} {p : Plane} {s t : State}
    (h : subPhase T a b pidx psize p s = .ok t) :
    ∃ ws es, t = { s with rmem := s.rmem.writeAll ws, draws := s.draws + 1, trace := s.trace ++ es } := by
  unfold subPhase at h
  dsimp only at h
  split at h
  · cases h
  · next qa s1 h1 =>
    obtain ⟨dA, -, -, -, rfl⟩ := pixAddr_ok.mp h1
    split at h
    · cases h
    · next qb s2 h2 =>
      obtain ⟨dB, -, -, -, rfl⟩ := pixAddr_ok.mp h2
      have app : ∀ (l : List PortEvent) (x y z : PortEvent), l ++ [x] ++ [y] ++ [z] = l ++ [x, y, z] := by simp
      cases p
      · simp only [kinvoke, subRecord, runKernel, storeResults_record, Except.ok.injEq] at h
        simp only [State.record, app] at h
        exact ⟨_, _, h.symm⟩
      all_goals
        simp only [kinvoke, subRecord, runKernel, State.record_cfg] at h
        split at h
        · cases h
        · simp only [storeResults_record, Except.ok.injEq] at h
          simp only [State.record, app] at h
          exact ⟨_, _, h.symm⟩

/-- Why a subtract phase faults. -/
theorem subPhase_error {T : Context} {a b : Id} {pidx psize : Dim} {p : Plane} {s : State} {f : Fault}
    (h : subPhase T a b pidx psize p s = .error f) :
    (∃ pb, (pb = a ∨ pb = b) ∧ ((f = .noPixelBuffer ∧ s.pbuf pb = none) ∨
      (f = .pixelRectOutsidePlane ∧ ∃ d, s.pbuf pb = some d ∧
        d.holds s.cfg p pidx psize (T.extent psize psize p) = false))) ∨
    (f = .colourSpaceUndefined ∧ p ≠ .y ∧ s.cfg.cspShift T.csp = none) := by
  unfold subPhase at h
  dsimp only at h
  split at h
  · next f' h1 =>
    cases h
    exact .inl ⟨a, .inl rfl, pixAddr_error.mp h1⟩
  · next qa s1 h1 =>
    obtain ⟨dA, -, -, -, rfl⟩ := pixAddr_ok.mp h1
    split at h
    · next f' h2 =>
      cases h
      have h3 := pixAddr_error.mp h2
      exact .inl ⟨b, .inr rfl, h3⟩
    · next qb s2 h2 =>
      obtain ⟨dB, -, -, -, rfl⟩ := pixAddr_ok.mp h2
      cases p
      · simp [kinvoke, subRecord, runKernel] at h
      all_goals
        simp only [kinvoke, subRecord, runKernel, State.record_cfg] at h
        split at h
        · next hn => cases h; exact .inr ⟨rfl, by decide, hn⟩
        · cases h

/-- An add phase always completes. -/
theorem addPhase_eq (cfg : Config) (T A B : Context) (p : Plane) (pidx psize : Dim) (s : State) :
    kinvoke (addRecord cfg T A B p pidx psize) s = .ok { s with
      rmem := s.rmem.writeAll (s.addCells (T.addr32 cfg p pidx psize).toNat (T.pw p).toNat
        (A.addr32 cfg p pidx psize).toNat (A.pw p).toNat (B.addr32 cfg p pidx psize).toNat (B.pw p).toNat
        { w := (BitVec.ofNat 16 (T.extent psize psize p).w).toNat,
          h := (BitVec.ofNat 16 (T.extent psize psize p).h).toNat })
      draws := s.draws + 1
      trace := s.trace ++ [.kinvoke (addRecord cfg T A B p pidx psize)] } := rfl

/-- A raw copy always completes: it does nothing where the two addresses coincide, else it writes the rectangle. -/
theorem copyRR_cases (S D : Context) (pidx psize w h : Dim) (p : Plane) (s : State) :
    (S.addr s.cfg p pidx psize = D.addr s.cfg p pidx psize ∧ copyRR S D pidx psize w h p s = .ok s) ∨
    (S.addr s.cfg p pidx psize ≠ D.addr s.cfg p pidx psize ∧ copyRR S D pidx psize w h p s = .ok { s with
      rmem := s.rmem.writeAll (s.rawCells (D.addr s.cfg p pidx psize) (D.pw p).toNat
        (S.addr s.cfg p pidx psize) (S.pw p).toNat (S.extent w h p)) }) := by
  unfold copyRR
  dsimp only
  split
  · next heq => exact .inl ⟨heq, rfl⟩
  · next hne => exact .inr ⟨hne, rfl⟩

/-- A narrowing copy to a live pixel buffer whose plane holds the rectangle. -/
theorem copyRP_eq {S : Context} {pb : Id} {pidx psize w h : Dim} {p : Plane} {s : State} {d : PixelBuffer}
    (hd : s.pbuf pb = some d) (hh : d.holds s.cfg p pidx psize (S.extent w h p) = true) :
    copyRP S pb pidx psize w h p s = .ok { s with
      pmem := s.pmem.writeAll (s.narrowCells (BitVec.ofNat 32 (d.pointer s.cfg p pidx psize)).toNat
        (d.plane p).stride.toNat (S.addr32 s.cfg p pidx psize).toNat (S.pw p).toNat
        { w := (BitVec.ofNat 16 (S.extent w h p).w).toNat, h := (BitVec.ofNat 16 (S.extent w h p).h).toNat })
      draws := s.draws + 1
      trace := s.trace ++
        [.pixAddr pb p pidx psize (BitVec.ofNat 32 (d.pointer s.cfg p pidx psize)) (d.plane p).stride,
         .kinvoke (copyRecord s.cfg S p pidx psize w h
           (BitVec.ofNat 32 (d.pointer s.cfg p pidx psize), (d.plane p).stride))] } := by
  have h1 := pixAddr_ok.mpr ⟨d, hd, hh, rfl, rfl⟩
  unfold copyRP
  rw [h1]
  have app : ∀ (l : List PortEvent) (x y : PortEvent), l ++ [x] ++ [y] = l ++ [x, y] := by simp
  simp only [kinvoke, copyRecord, runKernel, storePixels_record, Except.ok.injEq]
  simp only [State.record, app]
  rfl

/-- A narrowing copy completes only where the pixel buffer is live and its plane holds the rectangle. -/
theorem copyRP_ok {S : Context} {pb : Id} {pidx psize w h : Dim} {p : Plane} {s t : State}
    (hok : copyRP S pb pidx psize w h p s = .ok t) :
    ∃ d, s.pbuf pb = some d ∧ d.holds s.cfg p pidx psize (S.extent w h p) = true := by
  unfold copyRP at hok
  split at hok
  · cases hok
  · next h1 =>
    obtain ⟨d, hd, hh, -, -⟩ := pixAddr_ok.mp h1
    exact ⟨d, hd, hh⟩

/-- Why a narrowing copy faults. -/
theorem copyRP_error {S : Context} {pb : Id} {pidx psize w h : Dim} {p : Plane} {s : State} {f : Fault}
    (hf : copyRP S pb pidx psize w h p s = .error f) :
    (f = .noPixelBuffer ∧ s.pbuf pb = none) ∨
      (f = .pixelRectOutsidePlane ∧ ∃ d, s.pbuf pb = some d ∧
        d.holds s.cfg p pidx psize (S.extent w h p) = false) := by
  unfold copyRP at hf
  split at hf
  · next h1 => cases hf; exact pixAddr_error.mp h1
  · simp [kinvoke, copyRecord, runKernel] at hf

/-- A subtract phase that completes found both pixel buffers live and the rectangle in their planes. -/
theorem subPhase_ok {T : Context} {a b : Id} {pidx psize : Dim} {p : Plane} {s t : State}
    (h : subPhase T a b pidx psize p s = .ok t) :
    ∃ dA dB, s.pbuf a = some dA ∧ s.pbuf b = some dB ∧
      dA.holds s.cfg p pidx psize (T.extent psize psize p) = true ∧
      dB.holds s.cfg p pidx psize (T.extent psize psize p) = true := by
  unfold subPhase at h
  dsimp only at h
  split at h
  · cases h
  · next h1 =>
    obtain ⟨dA, a1, a2, -, rfl⟩ := pixAddr_ok.mp h1
    split at h
    · cases h
    · next h2 =>
      obtain ⟨dB, b1, b2, -, rfl⟩ := pixAddr_ok.mp h2
      exact ⟨dA, dB, a1, b1, a2, b2⟩

/-- What all phases of a SUB change. -/
theorem subPhases_frame {T : Context} {a b : Id} {pidx psize : Dim} {ps : List Plane} {s t : State}
    (h : runPhases (subPhase T a b pidx psize) ps s = .ok t) :
    ∃ m n es, t = { s with rmem := m, draws := n, trace := es } :=
  runPhases_ok (P := fun u => ∃ m n es, u = { s with rmem := m, draws := n, trace := es }) h ⟨_, _, _, rfl⟩ (by
    rintro p _ u v ⟨m, n, es, rfl⟩ hv
    obtain ⟨ws, fs, rfl⟩ := subPhase_frame hv
    exact ⟨_, _, _, rfl⟩)

/-- What all phases of an ADDCLIP change. -/
theorem addPhases_frame {T A B : Context} {pidx psize : Dim} {ps : List Plane} {s t : State}
    (h : runPhases (fun p s' => kinvoke (addRecord s'.cfg T A B p pidx psize) s') ps s = .ok t) :
    ∃ m n es, t = { s with rmem := m, draws := n, trace := es } :=
  runPhases_ok (P := fun u => ∃ m n es, u = { s with rmem := m, draws := n, trace := es }) h ⟨_, _, _, rfl⟩ (by
    rintro p _ u v ⟨m, n, es, rfl⟩ hv
    rw [addPhase_eq] at hv
    cases hv
    exact ⟨_, _, _, rfl⟩)

/-- What all phases of a residual-to-residual copy change. -/
theorem copyRR_phases_frame {S D : Context} {pidx psize w h : Dim} {ps : List Plane} {s t : State}
    (hp : runPhases (copyRR S D pidx psize w h) ps s = .ok t) : ∃ m, t = { s with rmem := m } :=
  runPhases_ok (P := fun u => ∃ m, u = { s with rmem := m }) hp ⟨_, rfl⟩ (by
    rintro p _ u v ⟨m, rfl⟩ hv
    rcases copyRR_cases S D pidx psize w h p { s with rmem := m } with ⟨_, h1⟩ | ⟨_, h1⟩ <;> rw [h1] at hv <;>
      cases hv <;> exact ⟨_, rfl⟩)

/-- What all phases of a residual-to-pixel copy change. -/
theorem copyRP_phases_frame {S : Context} {pb : Id} {pidx psize w h : Dim} {ps : List Plane} {s t : State}
    (hp : runPhases (copyRP S pb pidx psize w h) ps s = .ok t) :
    ∃ m n es, t = { s with pmem := m, draws := n, trace := es } :=
  runPhases_ok (P := fun u => ∃ m n es, u = { s with pmem := m, draws := n, trace := es }) hp ⟨_, _, _, rfl⟩ (by
    rintro p _ u v ⟨m, n, es, rfl⟩ hv
    obtain ⟨d, h1, h2⟩ := copyRP_ok hv
    rw [copyRP_eq h1 h2] at hv
    cases hv
    exact ⟨_, _, _, rfl⟩)

/-- The trace of a command's phases is the phases' own events in their order. -/
theorem runPhases_trace {phase : Plane → State → Except Fault State} {P : State → Prop}
    {ev : Plane → List PortEvent} :
    ∀ {ps : List Plane} {s t : State}, runPhases phase ps s = .ok t → P s →
      (∀ p ∈ ps, ∀ u v, P u → phase p u = .ok v → P v ∧ v.trace = u.trace ++ ev p) →
      t.trace = s.trace ++ ps.flatMap ev
  | [], s, t, h, _, _ => by
    simp only [runPhases] at h
    cases h
    simp
  | p :: ps, s, t, h, hs, hp => by
    simp only [runPhases] at h
    split at h
    · next u hu =>
      obtain ⟨h1, h2⟩ := hp p List.mem_cons_self s u hs hu
      rw [runPhases_trace h h1 (fun q hq => hp q (List.mem_cons_of_mem _ hq)), h2]
      simp
    · cases h

/-- The induction of `runPhases_effect`, from a state the phases not in `ps` led to. -/
theorem runPhases_effect_from {phase : Plane → State → Except Fault State} {m : State → Mem}
    {Frm : State → State → Prop} (htrans : ∀ {s t u}, Frm s t → Frm t u → Frm s u)
    {all : List Plane} {R : Plane → Nat → Prop} {G : Plane → Nat → Option Sample → Prop} {s : State}
    (hdis : ∀ p ∈ all, ∀ q ∈ all, p ≠ q → ∀ a, ¬ (R p a ∧ R q a))
    (hph : ∀ p ∈ all, ∀ u, Frm s u →
      (∀ a, (∀ q ∈ all, q ≠ p → ¬ R q a) → (m u).read? a = (m s).read? a) →
      ∃ v, phase p u = .ok v ∧ Frm u v ∧ (∀ a, ¬ R p a → (m v).read? a = (m u).read? a) ∧
        ∀ a, R p a → G p a ((m v).read? a)) :
    ∀ (ps : List Plane) (u : State), ps.Nodup → (∀ p ∈ ps, p ∈ all) → Frm s u →
      (∀ a, (∀ q ∈ all, q ∉ ps → ¬ R q a) → (m u).read? a = (m s).read? a) →
      ∃ t, runPhases phase ps u = .ok t ∧ Frm s t ∧
        (∀ a, (∀ p ∈ ps, ¬ R p a) → (m t).read? a = (m u).read? a) ∧
        ∀ p ∈ ps, ∀ a, R p a → G p a ((m t).read? a)
  | [], u, _, _, hf, _ => ⟨u, rfl, hf, fun _ _ => rfl, fun p hp => by cases hp⟩
  | p :: ps, u, hnd, hsub, hf, hag => by
    have hnd := List.nodup_cons.mp hnd
    have hp := hsub p List.mem_cons_self
    obtain ⟨v, h1, h2, h3, h4⟩ := hph p hp u hf fun a ha =>
      hag a fun q hq hn => ha q hq fun h => hn (h ▸ List.mem_cons_self)
    obtain ⟨t, k1, k2, k3, k4⟩ := runPhases_effect_from (s := s) (Frm := Frm) htrans hdis hph ps v hnd.2
      (fun q hq => hsub q (List.mem_cons_of_mem _ hq)) (htrans hf h2) (fun a ha => by
        rw [h3 a (ha p hp hnd.1)]
        refine hag a fun q hq hn => ha q hq fun h => hn (List.mem_cons_of_mem _ h))
    refine ⟨t, by simp only [runPhases, h1, k1], k2, fun a ha => ?_, fun q hq a ha => ?_⟩
    · rw [k3 a (fun q hq => ha q (List.mem_cons_of_mem _ hq)), h3 a (ha p List.mem_cons_self)]
    · rcases List.mem_cons.mp hq with rfl | hq'
      · rw [k3 a fun r hr hra =>
          hdis q hp r (hsub r (List.mem_cons_of_mem _ hr)) (fun h => hnd.1 (h ▸ hr)) a ⟨ha, hra⟩]
        exact h4 a ha
      · exact k4 q hq' a ha

/-- Phases over planes whose rectangles `R` share no cell: if each completes, changes only its rectangle of the memory
`m` and leaves there what `G` says, from any state that agrees with the first outside the other rectangles, then
all complete, and all of it holds at the end. `Frm` is what else a phase may change. -/
theorem runPhases_effect {phase : Plane → State → Except Fault State} {m : State → Mem}
    {Frm : State → State → Prop} (hrefl : ∀ s, Frm s s) (htrans : ∀ {s t u}, Frm s t → Frm t u → Frm s u)
    {all : List Plane} {R : Plane → Nat → Prop} {G : Plane → Nat → Option Sample → Prop} {s : State}
    (hnd : all.Nodup)
    (hdis : ∀ p ∈ all, ∀ q ∈ all, p ≠ q → ∀ a, ¬ (R p a ∧ R q a))
    (hph : ∀ p ∈ all, ∀ u, Frm s u →
      (∀ a, (∀ q ∈ all, q ≠ p → ¬ R q a) → (m u).read? a = (m s).read? a) →
      ∃ v, phase p u = .ok v ∧ Frm u v ∧ (∀ a, ¬ R p a → (m v).read? a = (m u).read? a) ∧
        ∀ a, R p a → G p a ((m v).read? a)) :
    ∃ t, runPhases phase all s = .ok t ∧ Frm s t ∧
      (∀ a, (∀ p ∈ all, ¬ R p a) → (m t).read? a = (m s).read? a) ∧
      ∀ p ∈ all, ∀ a, R p a → G p a ((m t).read? a) :=
  runPhases_effect_from (s := s) (Frm := Frm) htrans hdis hph all s hnd (fun _ h => h) (hrefl s) (fun _ _ => rfl)

end Sys2Proof.Machine
end

