-- ==== Sys2Proof/Laws/Geometry.lean ====
section
/-! SUPPORT. Where a Ready context's planes lie (spec/10_state.md R29, R30, R32) and what the bounds check gives
(spec/41_addressing.md R126, R130), in a state that meets the invariant. -/

namespace Sys2Proof.Machine

/-- A Ready context's regions are among the held ones. -/
theorem mem_held {s : State} {c : Id} (p : Plane) (hr : (s.ctx c).ready = true) :
    (s.ctx c).region p ∈ s.held := by
  simp only [State.held, List.mem_flatMap, Vector.mem_toList_iff]
  refine ⟨s.ctx c, by simp [State.ctx], ?_⟩
  simp only [Context.regions, hr, if_true]
  cases p <;> simp

/-- A Ready context's regions are live. -/
theorem mem_live {s : State} {c : Id} (p : Plane) (hI : s.Inv) (hr : (s.ctx c).ready = true) :
    (s.ctx c).region p ∈ s.live :=
  hI.liveHeld.mem_iff.mpr (mem_held p hr)

/-- A Ready context's plane lies inside RMEM. -/
theorem plane_fits {s : State} {c : Id} (p : Plane) (hI : s.Inv) (hr : (s.ctx c).ready = true) :
    ((s.ctx c).base p).toNat + ((s.ctx c).pw p).toNat * ((s.ctx c).ph p).toNat ≤ 2 ^ 32 :=
  of_decide_eq_true (hI.liveFits _ (mem_live p hI hr))

/-- Different planes of Ready contexts share no cell. -/
theorem planes_apart {s : State} {c d : Id} {p q : Plane} (hI : s.Inv) (hc : (s.ctx c).ready = true)
    (hd : (s.ctx d).ready = true) (hne : (c, p) ≠ (d, q)) :
    ((s.ctx c).region p).disjoint ((s.ctx d).region q) = true := by
  have h : s.held.Pairwise fun q r => q.disjoint r = true :=
    (hI.liveHeld.pairwise_iff fun h => Region.disjoint_comm h).mp hI.liveApart
  simp only [State.held, List.pairwise_flatMap] at h
  obtain ⟨h1, h2⟩ := h
  by_cases hcd : c = d
  · subst hcd
    have h3 := h1 (s.ctx c) (by simp [State.ctx])
    simp only [Context.regions, hc, if_true, List.pairwise_cons] at h3
    simp at h3
    have hpq : p ≠ q := fun h => hne (by rw [h])
    obtain ⟨⟨a, b⟩, e⟩ := h3
    cases p <;> cases q <;> first | exact absurd rfl hpq | assumption | exact Region.disjoint_comm ‹_›
  · rw [List.pairwise_iff_getElem] at h2
    have key : ∀ c d : Id, (s.ctx c).ready = true → (s.ctx d).ready = true → c.toNat < d.toNat → ∀ p q,
        ((s.ctx c).region p).disjoint ((s.ctx d).region q) = true := by
      intro c d hc hd hlt p q
      refine h2 c.toNat d.toNat (by have := c.isLt; simp; omega) (by have := d.isLt; simp; omega) hlt
        ((s.ctx c).region p) ?_ ((s.ctx d).region q) ?_
      · show _ ∈ (s.ctx c).regions
        simp only [Context.regions, hc, if_true]
        cases p <;> simp
      · show _ ∈ (s.ctx d).regions
        simp only [Context.regions, hd, if_true]
        cases q <;> simp
    rcases Nat.lt_or_gt_of_ne fun h => hcd (BitVec.eq_of_toNat_eq h) with h | h
    · exact key c d hc hd h p q
    · exact Region.disjoint_comm (key d c hd hc h q p)

/-- The 32-bit address of a point of a plane is the exact one: nothing is lost. -/
theorem addr32_toNat {s : State} {c : Id} {p : Plane} {pidx psize : Dim} (hI : s.Inv)
    (hr : (s.ctx c).ready = true) (h1 : (s.ctx c).row s.cfg p pidx psize < ((s.ctx c).ph p).toNat)
    (h2 : (s.ctx c).col s.cfg p pidx psize < ((s.ctx c).pw p).toNat) :
    ((s.ctx c).addr32 s.cfg p pidx psize).toNat = (s.ctx c).addr s.cfg p pidx psize := by
  have hf := plane_fits p hI hr
  simp only [Context.addr32, BitVec.toNat_ofNat]
  apply Nat.mod_eq_of_lt
  simp only [Context.addr, Context.offset]
  have h3 : ((s.ctx c).row s.cfg p pidx psize + 1) * ((s.ctx c).pw p).toNat ≤
      ((s.ctx c).ph p).toNat * ((s.ctx c).pw p).toNat := Nat.mul_le_mul_right _ h1
  rw [Nat.add_mul] at h3
  rw [Nat.mul_comm ((s.ctx c).pw p).toNat] at hf
  omega

/-- So it is for the corner of a non-empty rectangle that passed the bounds check. -/
theorem addr32_toNat_of_inBounds {s : State} {c : Id} {p : Plane} {pidx psize : Dim} {e : Extent} (hI : s.Inv)
    (hr : (s.ctx c).ready = true) (hb : (s.ctx c).inBounds s.cfg p pidx psize e = true) (hw : 0 < e.w)
    (hh : 0 < e.h) :
    ((s.ctx c).addr32 s.cfg p pidx psize).toNat = (s.ctx c).addr s.cfg p pidx psize := by
  rw [Context.inBounds_iff] at hb
  exact addr32_toNat hI hr (by omega) (by omega)

/-- The bounds check of a command holds for every plane of its plan. -/
theorem State.boundsOk_iff {s : State} {X T : Context} {planes : List Plane} {pidx psize w h : Dim} :
    s.boundsOk X T planes pidx psize w h = true ↔
      ∀ p ∈ T.plan planes w h, X.inBounds s.cfg p pidx psize (T.extent w h p) = true := by
  simp [State.boundsOk]

/-- A plane of a plan has a non-empty rectangle. -/
theorem Context.extent_pos {T : Context} {planes : List Plane} {w h : Dim} {p : Plane}
    (hp : p ∈ T.plan planes w h) : 0 < (T.extent w h p).w ∧ 0 < (T.extent w h p).h :=
  (Context.mem_plan.mp hp).2.2

/-- A plan names each plane once. -/
theorem Context.plan_nodup {T : Context} {planes : List Plane} {w h : Dim} (hp : planes.Nodup) :
    (T.plan planes w h).Nodup := hp.filter _

/-- A kernel record's 16-bit width and height are the extent's. -/
theorem Context.extent_ofNat (T : Context) (w h : Dim) (p : Plane) :
    (BitVec.ofNat 16 (T.extent w h p).w).toNat = (T.extent w h p).w ∧
      (BitVec.ofNat 16 (T.extent w h p).h).toNat = (T.extent w h p).h := by
  obtain ⟨h1, h2⟩ := T.extent_lt w h p
  rw [BitVec.toNat_ofNat, BitVec.toNat_ofNat, Nat.mod_eq_of_lt h1, Nat.mod_eq_of_lt h2]
  exact ⟨rfl, rfl⟩

/-- The extent the subtract kernel gives a record is the command's, for a Ready context and a supported size. -/
theorem sub_extent {s : State} {c : Id} (hI : s.Inv) (hr : (s.ctx c).ready = true) {psize : Dim} (p : Plane)
    (hz : subSizeOk psize = true) :
    (p = .y → (s.ctx c).extent psize psize p =
        { w := classSide (sizeClass psize), h := classSide (sizeClass psize) }) ∧
      (p ≠ .y → ∃ row, s.cfg.cspShift (s.ctx c).csp = some row ∧ (s.ctx c).extent psize psize p =
        { w := classSide (sizeClass psize) >>> row.hShift.toNat,
          h := classSide (sizeClass psize) >>> row.vShift.toNat }) := by
  have hok := hI.ctxOk c
  simp only [Context.Ok, hr, if_true] at hok
  rw [classSide_sizeClass hz]
  refine ⟨?_, fun hp => ?_⟩
  · rintro rfl
    simp [Context.extent, Context.hs, Context.vs]
  · cases p
    · exact absurd rfl hp
    all_goals exact ⟨_, hok.1, rfl⟩

/-- A pixel rectangle inside its plane: its pointer loses nothing. -/
theorem PixelBuffer.holds_pointer {cfg : Config} {d : PixelBuffer} {p : Plane} {pidx psize : Dim} {e : Extent}
    (hh : d.holds cfg p pidx psize e = true) (hw : 0 < e.w) :
    (BitVec.ofNat 32 (d.pointer cfg p pidx psize)).toNat = d.pointer cfg p pidx psize := by
  simp only [PixelBuffer.holds, Bool.and_eq_true, decide_eq_true_eq, spaceSize] at hh
  rw [BitVec.toNat_ofNat]
  apply Nat.mod_eq_of_lt
  omega

/-- An address the host may reach is a cell of a Ready context's plane. -/
theorem State.owned_iff {s : State} {a : Nat} :
    s.owned a = true ↔ ∃ c p, (s.ctx c).ready = true ∧ ((s.ctx c).region p).contains a = true := by
  simp only [State.owned, List.any_eq_true, Vector.mem_toList_iff, Context.ownsIn, Bool.or_eq_true,
    Bool.and_eq_true, Region.contains, Context.region]
  constructor
  · rintro ⟨X, hX, h⟩
    obtain ⟨i, hi, rfl⟩ := Vector.mem_iff_getElem.mp hX
    have hc : s.ctx (BitVec.ofNat 4 i) = s.ctxs[i] := by simp [State.ctx, Nat.mod_eq_of_lt hi]
    refine ⟨BitVec.ofNat 4 i, ?_⟩
    rw [hc]
    rcases h with (⟨h, h'⟩ | ⟨h, h'⟩) | ⟨h, h'⟩
    · exact ⟨.y, h, h'⟩
    · exact ⟨.cb, h, h'⟩
    · exact ⟨.cr, h, h'⟩
  · rintro ⟨c, p, h, h'⟩
    refine ⟨s.ctx c, by simp [State.ctx], ?_⟩
    cases p <;> simp_all

end Sys2Proof.Machine
end

