-- ==== Sys2Proof/Laws/Commands.lean ====
section
/-! SUPPORT. What a command that completes can do, once (spec/60_exceptions.md R200 to R206): `completes_of_exec`, which
later proofs cite instead of unfolding exec. -/

namespace Sys2Proof.Machine

/-- `Completes s i t`: command `i` takes `s` to `t`, and how. -/
inductive Completes (s : State) : Instr → State → Prop
  /-- An ill-formed command is IllegalCommand. -/
  | illegal (i : Instr) (hw : i.wf s.cfg = false) : Completes s i (s.respond CmdError.illegalCommand.code 0 0)
  /-- A context of the command is not Ready, or a bounds check failed. -/
  | rejected (i : Instr) (e : CmdError) (hw : i.wf s.cfg = true) (he : e = .invalidState ∨ e = .dimensionMismatch)
      (hi : match i with
        | .create .. => False
        | .destroy _ => False
        | .rdctx .. => False
        | _ => True) : Completes s i (s.respond e.code 0 0)
  | create (c csp : Id) (w h : Dim) (row : CspRow) (hrow : s.cfg.cspShift csp = some row) :
      Completes s (.create c csp w h) (s.createWith c csp row w h)
  | destroy (c : Id) : Completes s (.destroy c) (if (s.ctx c).ready then s.release c else s).done
  | clear (c : Id) (hr : (s.ctx c).ready = true) :
      Completes s (.clear c) (((s.writeR ((s.ctx c).zeroCells .y)).writeR ((s.ctx c).zeroCells .cb)).writeR
        ((s.ctx c).zeroCells .cr)).done
  | rdctx (c : Id) (f : CtxField) : Completes s (.rdctx c f) (s.respond statusOk ((s.ctx c).field f) 0)
  | addr (c : Id) (p : Plane) (pidx psize : Dim) (hr : (s.ctx c).ready = true)
      (hp : (s.ctx c).hasPoint s.cfg p pidx psize = true) :
      Completes s (.addr c p pidx psize)
        (s.respond statusOk ((s.ctx c).addr32 s.cfg p pidx psize) ((s.ctx c).pw p))
  | sub (c a b : Id) (pidx psize : Dim) (u : State) (hz : subSizeOk psize = true) (hr : (s.ctx c).ready = true)
      (hb : s.boundsOk (s.ctx c) (s.ctx c) allPlanes pidx psize psize psize = true)
      (h : runPhases (subPhase (s.ctx c) a b pidx psize) ((s.ctx c).plan allPlanes psize psize) s = .ok u) :
      Completes s (.sub c a b pidx psize) u.done
  | addclip (c a b : Id) (pidx psize : Dim) (u : State) (hr : ∀ k ∈ [c, a, b], (s.ctx k).ready = true)
      (hb : ∀ k ∈ [c, a, b], s.boundsOk (s.ctx k) (s.ctx c) allPlanes pidx psize psize psize = true)
      (h : runPhases (fun p s' => kinvoke (addRecord s'.cfg (s.ctx c) (s.ctx a) (s.ctx b) p pidx psize) s')
        ((s.ctx c).plan allPlanes psize psize) s = .ok u) :
      Completes s (.addclip c a b pidx psize) u.done
  /-- CPYRL, CPYRC, CPYRA with their plane lists. -/
  | toResidual (i : Instr) (planes : List Plane) (c a : Id) (pidx psize w h : Dim) (u : State)
      (hi : (i, planes) = (.cpyrl c a pidx psize w h, [.y]) ∨
        (∃ cid, (i, planes) = (.cpyrc c a cid pidx psize w h, chromaPlanes cid)) ∨
        (i, planes) = (.cpyra c a pidx psize w h, allPlanes))
      (hr : ∀ k ∈ [c, a], (s.ctx k).ready = true)
      (hb : ∀ k ∈ [c, a], s.boundsOk (s.ctx k) (s.ctx c) planes pidx psize w h = true)
      (hp : runPhases (copyRR (s.ctx c) (s.ctx a) pidx psize w h) ((s.ctx c).plan planes w h) s = .ok u) :
      Completes s i u.done
  /-- CPYPL, CPYPC, CPYPA with their plane lists. -/
  | toPixel (i : Instr) (planes : List Plane) (c a : Id) (pidx psize w h : Dim) (u : State)
      (hi : (i, planes) = (.cpypl c a pidx psize w h, [.y]) ∨
        (∃ cid, (i, planes) = (.cpypc c a cid pidx psize w h, chromaPlanes cid)) ∨
        (i, planes) = (.cpypa c a pidx psize w h, allPlanes))
      (hr : (s.ctx c).ready = true)
      (hb : s.boundsOk (s.ctx c) (s.ctx c) planes pidx psize w h = true)
      (hp : runPhases (copyRP (s.ctx c) a pidx psize w h) ((s.ctx c).plan planes w h) s = .ok u) :
      Completes s i u.done

/-- A check of every plane for three contexts is three checks. -/
theorem all_and3 {α : Type} (l : List α) (f g k : α → Bool) :
    (l.all fun p => f p && g p && k p) = (l.all f && l.all g && l.all k) := by
  induction l with
  | nil => rfl
  | cons a l ih =>
    simp only [List.all_cons, ih]
    cases f a <;> cases g a <;> cases k a <;> cases l.all f <;> cases l.all g <;> simp

/-- A check of every plane for two contexts is two checks. -/
theorem all_and2 {α : Type} (l : List α) (f g : α → Bool) :
    (l.all fun p => f p && g p) = (l.all f && l.all g) := by
  induction l with
  | nil => rfl
  | cons a l ih =>
    simp only [List.all_cons, ih]
    cases f a <;> cases g a <;> cases l.all f <;> simp

/-- A command's bounds check of one context is `boundsOk`. -/
theorem boundsOk_eq (s : State) (X T : Context) (planes : List Plane) (pidx psize w h : Dim) :
    ((T.plan planes w h).all fun p => X.inBounds s.cfg p pidx psize (T.extent w h p)) =
      s.boundsOk X T planes pidx psize w h := rfl

/-- An ill-formed command is IllegalCommand and nothing else. -/
theorem exec_illegal {i : Instr} {s : State} (hw : i.wf s.cfg = false) :
    exec i s = .next (s.respond CmdError.illegalCommand.code 0 0) := by
  cases i <;> simp only [exec, execCreate, execDestroy, execClear, execRdctx, execAddr, execSub, execAddclip,
    execCpyrl, execCpyrc, execCpyra, execCpypl, execCpypc, execCpypa, (whenLegal_eq _ _ _).2 hw]

/-- What a residual-to-residual copy that completes can do. -/
theorem copyToResidual_cases {planes : List Plane} {c a : Id} {pidx psize w h : Dim} {s t : State}
    (hx : copyToResidual planes c a pidx psize w h s = .next t) :
    (∃ e : CmdError, (e = .invalidState ∨ e = .dimensionMismatch) ∧ t = s.respond e.code 0 0) ∨
    ∃ u, (∀ k ∈ [c, a], (s.ctx k).ready = true) ∧
      (∀ k ∈ [c, a], s.boundsOk (s.ctx k) (s.ctx c) planes pidx psize w h = true) ∧
      runPhases (copyRR (s.ctx c) (s.ctx a) pidx psize w h) ((s.ctx c).plan planes w h) s = .ok u ∧
      t = u.done := by
  unfold copyToResidual raise at hx
  dsimp only at hx
  split at hx
  · next h1 =>
    split at hx
    · next h2 =>
      obtain ⟨u, h3, h4⟩ := finish_next.mp hx
      simp only [all_and2, boundsOk_eq, Bool.and_eq_true] at h1 h2
      exact .inr ⟨u, by simpa using h1, by simpa using h2, h3, h4⟩
    · cases hx
      exact .inl ⟨.dimensionMismatch, .inr rfl, rfl⟩
  · cases hx
    exact .inl ⟨.invalidState, .inl rfl, rfl⟩

/-- What a residual-to-pixel copy that completes can do. -/
theorem copyToPixel_cases {planes : List Plane} {c a : Id} {pidx psize w h : Dim} {s t : State}
    (hx : copyToPixel planes c a pidx psize w h s = .next t) :
    (∃ e : CmdError, (e = .invalidState ∨ e = .dimensionMismatch) ∧ t = s.respond e.code 0 0) ∨
    ∃ u, (s.ctx c).ready = true ∧ s.boundsOk (s.ctx c) (s.ctx c) planes pidx psize w h = true ∧
      runPhases (copyRP (s.ctx c) a pidx psize w h) ((s.ctx c).plan planes w h) s = .ok u ∧ t = u.done := by
  unfold copyToPixel raise at hx
  dsimp only at hx
  split at hx
  · next h1 =>
    split at hx
    · next h2 =>
      obtain ⟨u, h3, h4⟩ := finish_next.mp hx
      exact .inr ⟨u, h1, h2, h3, h4⟩
    · cases hx
      exact .inl ⟨.dimensionMismatch, .inr rfl, rfl⟩
  · cases hx
    exact .inl ⟨.invalidState, .inl rfl, rfl⟩

/-- What any command that completes did. -/
theorem completes_of_exec {i : Instr} {s t : State} (h : exec i s = .next t) : Completes s i t := by
  by_cases hw : i.wf s.cfg = true
  swap
  · have hw' : i.wf s.cfg = false := by simpa using hw
    rw [exec_illegal hw'] at h
    cases h
    exact .illegal i hw'
  have hw0 := hw
  cases i <;> simp only [exec, execCreate, execDestroy, execClear, execRdctx, execAddr, execSub, execAddclip,
    execCpyrl, execCpyrc, execCpyra, execCpypl, execCpypc, execCpypa, (whenLegal_eq _ _ _).1 hw, raise] at h <;>
    simp only [Instr.wf, Bool.and_eq_true] at hw
  case create c csp w hh =>
    split at h
    · next row hrow => cases h; exact .create _ _ _ _ _ hrow
    · next hn => simp [cspDefined, hn] at hw
  case destroy c => cases h; exact .destroy c
  case clear c =>
    split at h
    · next hr => cases h; exact .clear _ hr
    · cases h; exact .rejected _ .invalidState hw0 (.inl rfl) trivial
  case rdctx c f => cases h; exact .rdctx c f
  case addr c p pidx psize =>
    split at h
    · next hr =>
      split at h
      · next hp => cases h; exact .addr _ _ _ _ hr hp
      · cases h; exact .rejected _ .dimensionMismatch hw0 (.inr rfl) trivial
    · cases h; exact .rejected _ .invalidState hw0 (.inl rfl) trivial
  case sub c a b pidx psize =>
    split at h
    · next hr =>
      split at h
      · next hb =>
        obtain ⟨u, h1, rfl⟩ := finish_next.mp h
        exact .sub _ _ _ _ _ _ hw.2 hr hb h1
      · cases h; exact .rejected _ .dimensionMismatch hw0 (.inr rfl) trivial
    · cases h; exact .rejected _ .invalidState hw0 (.inl rfl) trivial
  case addclip c a b pidx psize =>
    split at h
    · next hr =>
      split at h
      · next hb =>
        obtain ⟨u, h1, rfl⟩ := finish_next.mp h
        simp only [all_and3, boundsOk_eq, Bool.and_eq_true] at hr hb
        exact .addclip _ _ _ _ _ _ (by simpa [and_assoc] using hr) (by simpa [and_assoc] using hb) h1
      · cases h; exact .rejected _ .dimensionMismatch hw0 (.inr rfl) trivial
    · cases h; exact .rejected _ .invalidState hw0 (.inl rfl) trivial
  case cpyrl c a pidx psize w hh =>
    rcases copyToResidual_cases h with ⟨e, he, rfl⟩ | ⟨u, h1, h2, h3, rfl⟩
    · exact .rejected _ _ hw0 he trivial
    · exact .toResidual _ _ c a pidx psize w hh u (.inl rfl) h1 h2 h3
  case cpyrc c a cid pidx psize w hh =>
    rcases copyToResidual_cases h with ⟨e, he, rfl⟩ | ⟨u, h1, h2, h3, rfl⟩
    · exact .rejected _ _ hw0 he trivial
    · exact .toResidual _ _ c a pidx psize w hh u (.inr (.inl ⟨cid, rfl⟩)) h1 h2 h3
  case cpyra c a pidx psize w hh =>
    rcases copyToResidual_cases h with ⟨e, he, rfl⟩ | ⟨u, h1, h2, h3, rfl⟩
    · exact .rejected _ _ hw0 he trivial
    · exact .toResidual _ _ c a pidx psize w hh u (.inr (.inr rfl)) h1 h2 h3
  case cpypl c a pidx psize w hh =>
    rcases copyToPixel_cases h with ⟨e, he, rfl⟩ | ⟨u, h1, h2, h3, rfl⟩
    · exact .rejected _ _ hw0 he trivial
    · exact .toPixel _ _ c a pidx psize w hh u (.inl rfl) h1 h2 h3
  case cpypc c a cid pidx psize w hh =>
    rcases copyToPixel_cases h with ⟨e, he, rfl⟩ | ⟨u, h1, h2, h3, rfl⟩
    · exact .rejected _ _ hw0 he trivial
    · exact .toPixel _ _ c a pidx psize w hh u (.inr (.inl ⟨cid, rfl⟩)) h1 h2 h3
  case cpypa c a pidx psize w hh =>
    rcases copyToPixel_cases h with ⟨e, he, rfl⟩ | ⟨u, h1, h2, h3, rfl⟩
    · exact .rejected _ _ hw0 he trivial
    · exact .toPixel _ _ c a pidx psize w hh u (.inr (.inr rfl)) h1 h2 h3

end Sys2Proof.Machine
end

