-- ==== Sys2Proof/Laws/PerInstr.lean ====
section
/-! SUPPORT. One lemma per command about its word (spec/30_encoding.md R71, R72, R75). -/

namespace Sys2Proof.Laws.WordFields

/-- A command's word carries the command's fields: its opcode, its operands, and 0 where the command uses no field. -/
def Statement (i : Instr) : Prop := fieldsOf (encode i) = fieldsOfInstr i

/-- It holds of each command. -/
theorem holds (i : Instr) : Statement i := fieldsOf_encode i

theorem create (ctx csp : Id) (width height : Dim) :
    Statement (.create ctx csp width height) := holds _
theorem destroy (ctx : Id) :
    Statement (.destroy ctx) := holds _
theorem clear (ctx : Id) :
    Statement (.clear ctx) := holds _
theorem rdctx (ctx : Id) (field : CtxField) :
    Statement (.rdctx ctx field) := holds _
theorem addr (ctx : Id) (plane : Plane) (pidx psize : Dim) :
    Statement (.addr ctx plane pidx psize) := holds _
theorem sub (ctx a b : Id) (pidx psize : Dim) :
    Statement (.sub ctx a b pidx psize) := holds _
theorem addclip (ctx a b : Id) (pidx psize : Dim) :
    Statement (.addclip ctx a b pidx psize) := holds _
theorem cpyrl (ctx a : Id) (pidx psize width height : Dim) :
    Statement (.cpyrl ctx a pidx psize width height) := holds _
theorem cpyrc (ctx a cid : Id) (pidx psize width height : Dim) :
    Statement (.cpyrc ctx a cid pidx psize width height) := holds _
theorem cpyra (ctx a : Id) (pidx psize width height : Dim) :
    Statement (.cpyra ctx a pidx psize width height) := holds _
theorem cpypl (ctx a : Id) (pidx psize width height : Dim) :
    Statement (.cpypl ctx a pidx psize width height) := holds _
theorem cpypc (ctx a cid : Id) (pidx psize width height : Dim) :
    Statement (.cpypc ctx a cid pidx psize width height) := holds _
theorem cpypa (ctx a : Id) (pidx psize width height : Dim) :
    Statement (.cpypa ctx a pidx psize width height) := holds _

end Sys2Proof.Laws.WordFields
end

