-- ==== Sys2Proof/Tests/Slice0.lean ====
section
/-! SUPPORT. Tests: well-formedness, decoding of written-out words, one step of each command on a small state with
expected results from spec/95_test_vectors.md, and for each statement with hypotheses a witness that meets them. -/

open Sys2Proof Sys2Proof.Machine Sys2Proof.Claims

namespace Sys2Proof.Tests

/-! ### Well-formedness: an ill-formed term for each check -/

/-- Context 4 of an NCTX of 4, in every place a command names a context (30_encoding R76 c). -/
theorem test_wf_refuses_contexts :
    ([.create 4 1 8 8, .destroy 4, .clear 4, .rdctx 4 .ready, .addr 4 .y 0 4, .sub 4 0 0 0 4, .addclip 4 0 0 0 4,
      .addclip 0 4 0 0 4, .addclip 0 0 4 0 4, .cpyrl 4 0 0 4 1 1, .cpyrl 0 4 0 4 1 1, .cpyrc 4 0 0 0 4 1 1,
      .cpyrc 0 4 0 0 4 1 1, .cpyra 4 0 0 4 1 1, .cpyra 0 4 0 4 1 1, .cpypl 4 0 0 4 1 1, .cpypc 4 0 0 0 4 1 1,
      .cpypa 4 0 0 4 1 1] : List Instr).all (fun i => !i.wf Config.reference) = true := by decide

/-- An undefined colour space and a size no subtract kernel has (30_encoding R76 d, e). -/
theorem test_wf_refuses_values :
    ([.create 0 4 8 8, .create 0 15 8 8, .sub 0 0 0 0 0, .sub 0 0 0 0 2, .sub 0 0 0 0 12, .sub 0 0 0 0 128] :
      List Instr).all (fun i => !i.wf Config.reference) = true := by decide

/-- Pixel-buffer ids and `chromaId` are never checked (45 R190, 44 R161). -/
theorem test_wf_accepts_any_pixel_buffer :
    ([.sub 3 15 15 65535 64, .cpypl 3 15 0 0 0 0, .cpypc 3 15 15 0 0 0 0, .cpyrc 3 3 15 0 0 0 0] :
      List Instr).all (fun i => i.wf Config.reference) = true := by decide

/-! ### Decoding, from words written out in 30_encoding and 95_test_vectors -/

/-- A word of every command, most of them from V5, V7, V10, V12 and P1. -/
theorem test_words_decode :
    decode Config.reference 0x010001000010001000000000 = .ok (.create 0 1 16 16) ∧
    decode Config.reference 0x023000000000000000000000 = .ok (.destroy 3) ∧
    decode Config.reference 0x031000000000000000000000 = .ok (.clear 1) ∧
    decode Config.reference 0x04200B000000000000000000 = .ok (.rdctx 2 .baseCr) ∧
    decode Config.reference 0x0810020000000000001000FF = .ok (.addr 1 .cr 0xFF 16) ∧
    decode Config.reference 0x100120000000000000100005 = .ok (.sub 0 1 2 5 16) ∧
    decode Config.reference 0x112010000000000000040001 = .ok (.addclip 2 0 1 1 4) := by decide

/-- A word of every copy, from V12. -/
theorem test_copy_words_decode :
    decode Config.reference 0x200100000008001000100005 = .ok (.cpyrl 0 1 5 16 16 8) ∧
    decode Config.reference 0x210101000008001000100005 = .ok (.cpyrc 0 1 1 5 16 16 8) ∧
    decode Config.reference 0x220100000008001100100005 = .ok (.cpyra 0 1 5 16 17 8) ∧
    decode Config.reference 0x240300000008001000100005 = .ok (.cpypl 0 3 5 16 16 8) ∧
    decode Config.reference 0x25030F000008001000100005 = .ok (.cpypc 0 3 15 5 16 16 8) ∧
    decode Config.reference 0x260300000008004000100005 = .ok (.cpypa 0 3 5 16 64 8) := by decide

/-- The illegal words of V13, each refused by name. -/
theorem test_illegal_words :
    decode Config.reference 0 = .error (.unknownOpcode 0) ∧
    decode Config.reference 0x230100000004000400000000 = .error (.unknownOpcode 0x23) ∧
    decode Config.reference 0x270000000000000000000000 = .error (.unknownOpcode 0x27) ∧
    decode Config.reference 0x020000010000000000000000 = .error (.reservedNotZero "rsv") ∧
    decode Config.reference 0x020000000000000000000001 = .error (.reservedNotZero "pidx") ∧
    decode Config.reference 0x010004000008000800000000 = .error (.selectorOutOfRange 4) ∧
    decode Config.reference 0x010001000008000800100000 = .error (.reservedNotZero "psize") ∧
    decode Config.reference 0x04000C000000000000000000 = .error (.selectorOutOfRange 12) ∧
    decode Config.reference 0x080003000000000000100000 = .error (.selectorOutOfRange 3) ∧
    decode Config.reference 0x1001200000000000000C0000 = .error (.sizeNotSupported 12) ∧
    decode Config.reference 0x100120000000000000000000 = .error (.sizeNotSupported 0) ∧
    decode Config.reference 0x100120000000000100100000 = .error (.reservedNotZero "width") ∧
    decode Config.reference 0x034000000000000000000000 = .error (.noSuchContext 4) ∧
    decode Config.reference 0x110400000000000000040000 = .error (.noSuchContext 4) := by decide

/-- No two rows of the opcode table share a word. -/
theorem test_rows_do_not_overlap :
    opcodeTable.Pairwise fun r q => r.pattern &&& q.mask &&& r.mask ≠ q.pattern &&& r.mask &&& q.mask := by
  decide

/-! ### A small state: contexts 0, 1, 2 of V10, `i420` 16 by 16; pixel buffers 1 and 2 of V7, 3 of V12 -/

/-- A 16 by 16 `i420` context at the given bases. -/
def small (y cb cr : Addr) : Context :=
  { ready := true, width := 16, height := 16, cwidth := 8, cheight := 8, hshift := 1, vshift := 1, csp := 1,
    cpres := true, baseY := y, baseCb := cb, baseCr := cr }

/-- A pixel buffer of 64 by 64 luma samples, stride 80, and chroma half of that. -/
def pixels (y cb cr : Addr) : PixelBuffer :=
  { y := ⟨y, 80, 64, 64⟩, cb := ⟨cb, 40, 32, 32⟩, cr := ⟨cr, 40, 32, 32⟩, hShift := 1, vShift := 1 }

/-- The three contexts Ready, some cells written. -/
def start : State :=
  { State.reset with
    ctxs := (((Vector.replicate 16 Context.uninit).set 0 (small 0x1000 0x1100 0x1140)).set 1
      (small 0x1180 0x1280 0x12C0)).set 2 (small 0x1300 0x1400 0x1440)
    pbufs := (((Vector.replicate 16 none).set 1 (some (pixels 0x8000 0xA000 0xB000))).set 2
      (some (pixels 0xC000 0xE000 0xF000))).set 3 (some (pixels 0x8000 0xA000 0xB000))
    live := [⟨0x1000, 256⟩, ⟨0x1100, 64⟩, ⟨0x1140, 64⟩, ⟨0x1180, 256⟩, ⟨0x1280, 64⟩, ⟨0x12C0, 64⟩,
      ⟨0x1300, 256⟩, ⟨0x1400, 64⟩, ⟨0x1440, 64⟩]
    rmem := [(0x1004, 70), (0x1037, -70), (0x1142, 300), (0x1184, 200), (0x11B7, 30), (0x1308, 9)]
    pmem := [(0x8004, 100), (0x80F7, 30), (0xA002, 0), (0xC004, 30), (0xC0F7, 100), (0xE002, 255)]
    allocScript := [some 0x2000, some 0x2100, some 0x2140] }

/-- `start` meets the invariant. -/
theorem start_inv : start.Inv := by
  constructor <;> decide

/-- The state of a step that has a next one, else `start`. -/
def after : Result → State
  | .next t => t
  | .fault _ => start
  | .refused _ => start

/-- The status field of the response a step leaves. -/
def statusOf (r : Result) : Option (BitVec 4) := (after r).respPort.map responseStatus

/-- One command word on `start`, presented whole. -/
def stepOn (w : Command) : Result := step (start.presentFirst w)

/-! ### One step of each command -/

/-- CREATE of an Uninitialized context (P1's word for context 3): geometry, bases, requests, answer. -/
theorem test_create :
    statusOf (stepOn 0x013001000010001000000000) = some 0 ∧
    (after (stepOn 0x013001000010001000000000)).ctx 3 = small 0x2000 0x2100 0x2140 ∧
    (after (stepOn 0x013001000010001000000000)).trace =
      [.alloc 256 (some 0x2000), .alloc 64 (some 0x2100), .alloc 64 (some 0x2140)] := by decide

/-- V2: the third request fails; what was obtained is freed, the context stays Uninitialized. -/
theorem test_create_third_fails :
    let r := exec (.create 3 1 16 16) { start with allocScript := [some 0x2000, some 0x2100, none] }
    statusOf r = some 1 ∧ ((after r).ctx 3).ready = false ∧
    (after r).trace = [.alloc 256 (some 0x2000), .alloc 64 (some 0x2100), .alloc 64 none, .free 0x2000 256,
      .free 0x2100 64] := by decide

/-- V1: `i422` 15 by 7 gives chroma 7 by 7; V3: CREATE on a Ready context frees the old regions first. -/
theorem test_create_on_ready :
    let r := exec (.create 0 2 15 7) start
    statusOf r = some 0 ∧ ((after r).ctx 0).cwidth = 7 ∧ ((after r).ctx 0).cheight = 7 ∧
    (after r).trace = [.free 0x1000 256, .free 0x1100 64, .free 0x1140 64, .alloc 105 (some 0x2000),
      .alloc 49 (some 0x2100), .alloc 49 (some 0x2140)] := by decide

/-- DESTROY of a Ready context, and of an Uninitialized one (V3). -/
theorem test_destroy :
    (after (stepOn 0x020000000000000000000000)).trace = [.free 0x1000 256, .free 0x1100 64, .free 0x1140 64] ∧
    (after (stepOn 0x020000000000000000000000)).ctx 0 = Context.uninit ∧
    (after (stepOn 0x020000000000000000000000)).rmem.read? 0x1004 = none ∧
    statusOf (stepOn 0x023000000000000000000000) = some 0 ∧
    (after (stepOn 0x023000000000000000000000)).trace = [] := by decide

/-- CLEAR writes the first and the last cell of each plane, 4 by 2 and 2 by 1 here, and none past them. -/
theorem test_clear :
    let t := after (exec (.clear 1) (start.setCtx 1
      { small 0x1180 0x1280 0x12C0 with width := 4, height := 2, cwidth := 2, cheight := 1 }))
    [0x1180, 0x1184, 0x1187, 0x1280, 0x1281, 0x12C0, 0x12C1].all (fun a => t.rmem.read? a = some 0) = true ∧
    [0x117F, 0x1188, 0x1282, 0x12C2].all (fun a => t.rmem.read? a = none) = true ∧
    t.rmem.read? 0x1142 = some 300 := by decide

/-- RDCTX of a Ready context's `BASE_CB` and of an Uninitialized one's `READY` (V3). -/
theorem test_rdctx :
    (after (stepOn 0x04100A000000000000000000)).respPort = some 0x0000000000001280 ∧
    (after (stepOn 0x043000000000000000000000)).respPort = some 0 := by decide

/-- ADDR (V5's arithmetic on context 1): value and stride, and a point outside the plane. -/
theorem test_addr :
    (after (exec (.addr 1 .y 1 4) start)).respPort = some 0x0000001000001184 ∧
    (after (exec (.addr 1 .cr 1 4) start)).respPort = some 0x00000008000012C2 ∧
    (after (exec (.addr 1 .y 9 4) start)).respPort = some 0x3000000000000000 := by decide

/-- SUB: V6's differences 70, -70, -255 at their cells, and the records of `sub c0, p1, p2, 1, 4` (V7's form). -/
theorem test_sub :
    let t := after (exec (.sub 0 1 2 1 4) start)
    (t.rmem.read? 0x1004, t.rmem.read? 0x1037, t.rmem.read? 0x1102) = (some 70, some (-70), some (-255)) ∧
    t.rmem.read? 0x1184 = some 200 ∧ t.respPort = some 0 ∧
    t.trace.length = 9 ∧
    t.trace[2]? = some (.kinvoke (.subLuma 0 0x1004 16 0x8004 80 0xC004 80)) ∧
    t.trace[5]? = some (.kinvoke (.subChroma 0 1 0x1102 8 0xA002 40 0xE002 40)) := by decide

/-- A pixel buffer whose planes have rows that run into each other: stride less than width. -/
def tight : PixelBuffer :=
  { y := ⟨0x8000, 2, 64, 64⟩, cb := ⟨0xA000, 0, 32, 32⟩, cr := ⟨0xB000, 0, 32, 32⟩, hShift := 1, vShift := 1 }

/-- 45 R189: a stride need not equal any width. SUB reads such planes; a one-row copy writes one. -/
theorem test_stride_less_than_width :
    let s := { start with pbufs := start.pbufs.set 3 (some tight) }
    statusOf (exec (.sub 0 3 2 0 16) s) = some 0 ∧
    ((after (exec (.sub 0 3 2 1 4) s)).rmem.read? 0x1004, s.pmem.read? 0x8004) = (some 70, some 100) ∧
    (after (exec (.cpypl 0 3 0 4 16 1) s)).pmem.read? 0x8004 = some 70 := by decide

/-- SUB on a dead pixel-buffer id, and with a pixel rectangle outside its plane (93 U3). -/
theorem test_sub_faults :
    exec (.sub 0 1 9 1 4) start = .fault .noPixelBuffer ∧
    exec (.sub 0 1 2 0 16) { start with
      pbufs := start.pbufs.set 2 (some { pixels 0xC000 0xE000 0xF000 with y := ⟨0xC000, 80, 15, 64⟩ }) } =
      .fault .pixelRectOutsidePlane := by
  constructor <;> rfl

/-- ADDCLIP: V8's sums 270 and -40, clipped; V10's records of `addclip c2, c0, c1, 1, 4`. -/
theorem test_addclip :
    let t := after (stepOn 0x112010000000000000040001)
    (t.rmem.read? 0x1304, t.rmem.read? 0x1337) = (some 255, some 0) ∧ t.rmem.read? 0x1308 = some 9 ∧
    t.trace = [.kinvoke (.add 4 4 0x1304 16 0x1004 16 0x1184 16),
      .kinvoke (.add 2 2 0x1402 8 0x1102 8 0x1282 8), .kinvoke (.add 2 2 0x1442 8 0x1142 8 0x12C2 8)] := by
  decide

/-- V10: the whole rectangle fits; one more column does not; an empty one does nothing. -/
theorem test_addclip_bounds :
    statusOf (exec (.addclip 2 0 1 9 4) start) = some 3 ∧ statusOf (exec (.addclip 2 0 1 0 17) start) = some 3 ∧
    statusOf (exec (.addclip 2 0 3 0 16) start) = some 2 ∧
    after (exec (.addclip 2 0 1 9 0) start) = { start with respPort := some 0 } := by decide

/-- CPYRL copies the rectangle raw and leaves chroma. -/
theorem test_cpyrl :
    let t := after (exec (.cpyrl 0 1 1 4 4 4) start)
    (t.rmem.read? 0x1184, t.rmem.read? 0x11B7, t.rmem.read? 0x12C2) = (some 70, some (-70), none) := by decide

/-- CPYRC with `chromaId` 1 copies Cr only; 15 means both (V12). -/
theorem test_cpyrc :
    ((after (exec (.cpyrc 0 1 1 1 4 4 4) start)).rmem.read? 0x12C2,
      (after (exec (.cpyrc 0 1 1 1 4 4 4) start)).rmem.read? 0x1184) = (some 300, some 200) ∧
    (after (exec (.cpyrc 0 1 15 1 4 4 4) start)).rmem.read? 0x12C2 = some 300 ∧
    (after (exec (.cpyrc 0 1 0 1 4 4 4) start)).rmem.read? 0x12C2 = none := by decide

/-- CPYRA copies all three; a self-copy and an empty one change nothing (V12). -/
theorem test_cpyra :
    ((after (exec (.cpyra 0 1 1 4 4 4) start)).rmem.read? 0x1184,
      (after (exec (.cpyra 0 1 1 4 4 4) start)).rmem.read? 0x12C2) = (some 70, some 300) ∧
    after (exec (.cpyra 0 0 1 4 4 4) start) = { start with respPort := some 0 } ∧
    after (exec (.cpyra 0 1 16 16 0 0) start) = { start with respPort := some 0 } := by decide

/-- CPYPL truncates (V11: -70 gives 186) at the pixel buffer's own stride. -/
theorem test_cpypl :
    let t := after (exec (.cpypl 0 3 1 4 4 4) start)
    (t.pmem.read? 0x8004, t.pmem.read? 0x80F7, t.pmem.read? 0xA002) = (some 70, some 186, some 0) ∧
    t.trace = [.pixAddr 3 .y 1 4 0x8004 80, .kinvoke (.copy 4 4 0x8004 80 0x1004 16)] := by decide

/-- CPYPC of Cr truncates 300 to 44 and makes one query and one record (R172). -/
theorem test_cpypc :
    let t := after (exec (.cpypc 0 3 1 1 4 4 4) start)
    (t.pmem.read? 0xB002, t.pmem.read? 0x8004) = (some 44, some 100) ∧
    t.trace = [.pixAddr 3 .cr 1 4 0xB002 40, .kinvoke (.copy 2 2 0xB002 40 0x1142 8)] := by decide

/-- CPYPA writes all three planes; its last phase is Cr. -/
theorem test_cpypa :
    let t := after (exec (.cpypa 0 3 1 4 4 4) start)
    (t.pmem.read? 0x8004, t.pmem.read? 0xB002, t.trace.length) = (some 70, some 44, 6) := by decide

/-- V8's clipped sums at BIT_DEPTH 8 and 10, V11's truncations to 8 and 10 bits. -/
theorem test_sample_arithmetic :
    ([(70, 200), (-70, 30), (256, 0), (-1, 1), (1000, 100), (32767, 32767), (-32768, -32768)] :
      List (Sample × Sample)).map (fun q => addExact Config.reference q.1 q.2) = [255, 0, 255, 0, 255, 255, 0] ∧
    ([(70, 200), (256, 0), (1000, 100), (32767, 32767)] : List (Sample × Sample)).map
      (fun q => addExact { Config.reference with bitDepth := 10 } q.1 q.2) = [270, 256, 1023, 1023] ∧
    ([1024, -1, -70, 32767] : List Sample).map (fun v => (truncTo 10 v).toNat) = [0, 1023, 954, 1023] := by
  decide

/-- V4's last row: nothing is truncated before the bounds check. -/
theorem test_partmap_wide :
    (rowOf Config.reference 65535 65535, colOf Config.reference 65535 65535) = (4397845186560, 1) ∧
    statusOf (exec (.cpyrl 0 1 65535 65535 1 1) start) = some 3 := by decide

/-- An illegal word answers status 4 and changes nothing else; idleness changes nothing. -/
theorem test_illegal_and_idle :
    stepOn 0 = .next { start with respPort := some 0x4000000000000000 } ∧ step start = .next start := by
  constructor <;> rfl

/-- The host's accesses between commands: a cell of a Ready context, and one of none (93 U7). -/
theorem test_host_access :
    (after (step { start with inputs := [.writeResidual 0x147F 5] })).rmem.read? 0x147F = some 5 ∧
    step { start with inputs := [.writeResidual 0x1480 5] } = .fault .hostAccessOutsideLiveRegion := by
  constructor <;> rfl

/-- withFetchWord runs the word as the very next step, from reset too. -/
theorem test_withFetchWord :
    step (State.reset.withFetchWord 96 0x100120000000000000100000) =
      .next { State.reset with respPort := some 0x2000000000000000 } ∧
    decodeTableWord 96 0x0102030405060708090A0B0C = none ∧
    decodeTableWord 96 0x020000000000000000000000 = some (.destroy 0) := by
  refine ⟨rfl, by decide, by decide⟩

/-! ### Witnesses: each meets the hypotheses of the statement it is named after -/

/-- A step that has a next state: what `exec i s = .next t` asks for. -/
def completes (r : Result) : Bool :=
  match r with
  | .next _ => true
  | .fault _ => false
  | .refused _ => false

/-- StepRunsTheDecodedCommand: a whole word, the last of three parts, a table word. -/
theorem witness_step_runs :
    (start.presentFirst 0x031000000000000000000000).inputs = [.command 0x031000000000000000000000] ∧
    decode start.cfg 0x031000000000000000000000 = .ok (.clear 1) ∧
    decode start.cfg ((0x11201000 : CommandPart) ++ (0 : CommandPart) ++ (0x00040001 : CommandPart)) =
      .ok (.addclip 2 0 1 1 4) ∧
    ({ start with inputs := [.commandPart 0x00040001], arrived := .two 0x11201000 0 } : State).arrived =
      .two 0x11201000 0 ∧
    decode start.cfg (BitVec.ofNat 96 (0x033000000000000000000000 % 2 ^ 96)) = .ok (.clear 3) := by decide

/-- ThreePartsMakeOneCommand. -/
theorem witness_three_parts :
    let s := { start with inputs := [.commandPart 0x11201000, .commandPart 0, .commandPart 0x00040001] }
    s.arrived = .none ∧ s.inputs = [.commandPart 0x11201000, .commandPart 0, .commandPart 0x00040001] ∧
    decode s.cfg ((0x11201000 : CommandPart) ++ (0 : CommandPart) ++ (0x00040001 : CommandPart)) =
      .ok (.addclip 2 0 1 1 4) := by decide

/-- IllegalCommandHasNoEffect: a word, the last of three parts, and an instruction. -/
theorem witness_illegal :
    (start.presentFirst 0).inputs = [.command 0] ∧ decode start.cfg 0 = .error (.unknownOpcode 0) ∧
    ({ start with inputs := [.commandPart 1], arrived := .two 0x02000000 0 } : State).arrived =
      .two 0x02000000 0 ∧
    decode start.cfg ((0x02000000 : CommandPart) ++ (0 : CommandPart) ++ (1 : CommandPart)) =
      .error (.reservedNotZero "pidx") ∧
    (Instr.addclip 3 3 4 0 4).wf start.cfg = false := by decide

/-- DecodeOfEncodeIsTheCommand and EncodeOfDecodeIsTheWord: operands at the ends of their ranges. -/
theorem witness_codec :
    ([.create 3 3 65535 65535, .rdctx 3 .baseCr, .addr 3 .cr 65535 65535, .sub 3 15 15 65535 64, .sub 0 0 0 0 4,
      .addclip 3 3 3 65535 65535, .cpyrc 3 3 15 65535 65535 65535 65535, .cpypa 3 15 0 0 0 0] : List Instr).all
      (fun i => i.wf Config.reference) = true ∧
    decode Config.reference 0x253FF0000000FFFFFFFFFFFF = .error (.reservedNotZero "b") ∧
    decode Config.reference 0x253F0F00FFFFFFFFFFFFFFFF = .ok (.cpypc 3 15 15 65535 65535 65535 65535) := by decide

/-- EveryCommandAnswersOneResponse: each of its cases. -/
theorem witness_answers :
    [0, 0x08100000000000000001000F, 0x04100A000000000000000000, 0x031000000000000000000000].map
      (fun w => completes (runCommand w start)) = [true, true, true, true] ∧
    statusOf (runCommand 0 start) = some 4 ∧ statusOf (runCommand 0x08100000000000000001000F start) = some 0 ∧
    statusOf (runCommand 0x04100A000000000000000000 start) = some 0 := by decide

/-- ReferenceMapIsTheRaster: a size of 0, and one that divides the grid. -/
theorem witness_reference_map :
    Config.reference.partMap = .raster 64 ∧ 0 < 64 ∧ 0 < (16 : Dim).toNat ∧ 64 = 4 * (16 : Dim).toNat := by decide

/-- InBoundsRectangleLiesInItsRegion, LumaBoundsImplyChromaBounds: a rectangle that fills the plane, its last cell. -/
theorem witness_bounds :
    let X := small 0x1000 0x1100 0x1140
    X.inBounds Config.reference .y 0 16 (X.extent 16 16 .y) = true ∧
    X.rectHas Config.reference .y 0 16 { w := 16, h := 16 } 0x10FF ∧
    X.Ok Config.reference ∧ X.ready = true ∧ X.cpres = true := by
  refine ⟨by decide, ⟨15, by decide, 15, by decide, by decide⟩, by decide, rfl, rfl⟩

/-- PixelBufferAddressesTheSameCoordinates. -/
theorem witness_coordinates :
    (pixels 0x8000 0xA000 0xB000).hShift = (small 0x1000 0x1100 0x1140).hshift ∧
    (pixels 0x8000 0xA000 0xB000).vShift = (small 0x1000 0x1100 0x1140).vshift := by decide

/-- RectanglesOfOnePhaseCoincideOrAreDisjoint, the second part of SelfCopyIsANoOp. -/
theorem witness_rectangles :
    start.Inv ∧ (start.ctx 0).ready = true ∧ (start.ctx 1).ready = true ∧
    (start.ctx 0).inBounds start.cfg .cb 0 16 { w := 8, h := 8 } = true ∧
    (start.ctx 1).inBounds start.cfg .cb 0 16 { w := 8, h := 8 } = true := by
  refine ⟨start_inv, by decide, by decide, by decide, by decide⟩

/-- AddrAnswersTheAddress: the last sample of a luma plane and of a chroma plane. -/
theorem witness_addr :
    start.Inv ∧ (2 : Id).toNat < start.cfg.nctx ∧ (start.ctx 2).ready = true ∧
    (start.ctx 2).row start.cfg .y 975 1 = 15 ∧ (start.ctx 2).col start.cfg .y 975 1 = 15 ∧
    (start.ctx 2).row start.cfg .cr 975 1 < ((start.ctx 2).ph .cr).toNat ∧
    (start.ctx 2).col start.cfg .cr 975 1 < ((start.ctx 2).pw .cr).toNat := by
  refine ⟨start_inv, by decide, by decide, by decide, by decide, by decide, by decide⟩

/-- CreateMakesTheContextReady: an Uninitialized context and a Ready one. -/
theorem witness_create :
    (∀ c ∈ [(0 : Id), 3], c.toNat < start.cfg.nctx ∧
      ∀ q ∈ (if (start.ctx c).ready then start.release c else start).live,
        ({ base := 0x2000, size := 256 } : Region).disjoint q = true ∧
        ({ base := 0x2100, size := 64 } : Region).disjoint q = true ∧
        ({ base := 0x2140, size := 64 } : Region).disjoint q = true) ∧
    start.cfg.cspShift 1 = some ⟨1, 1, true⟩ ∧ start.allocScript = [some 0x2000, some 0x2100, some 0x2140] ∧
    ({ base := 0x2000, size := (16 : Dim).toNat * (16 : Dim).toNat } : Region).fits = true ∧
    ({ base := 0x2100, size := 64 } : Region).disjoint { base := 0x2000, size := 256 } = true ∧
    ({ base := 0x2140, size := 64 } : Region).disjoint { base := 0x2100, size := 64 } = true := by decide

/-- CreateFailureLeavesTheContextUninitialized: each of the three requests fails, in a state that meets the
invariant. -/
theorem witness_create_failure :
    start.Inv ∧ [[none], [some 0x2000, none], [some 0x2000, some 0x2100, none]].all (fun script =>
      (({ start with allocScript := script } : State).allocThree 256 64).1 = none) = true ∧
    start.cfg.cspShift 1 = some ⟨1, 1, true⟩ ∧ (start.ctx 3).ready = false ∧
    (Instr.create 3 1 16 16).wf start.cfg = true := by
  refine ⟨start_inv, ?_⟩
  decide

/-- DestroyFreesTheThreeRegions, ClearZeroesTheThreePlanes, RdctxReadsTheIndexedField: both lifecycle states. -/
theorem witness_lifecycle :
    (0 : Id).toNat < start.cfg.nctx ∧ (3 : Id).toNat < start.cfg.nctx ∧ (start.ctx 0).ready = true ∧
    (start.ctx 3).ready = false ∧ (start.ctx 0).regions.any (fun r => r.contains 0x10FF) = true ∧
    (start.ctx 0).regions.any (fun r => r.contains 0x1180) = false := by decide

/-- SubStoresTheDifference: the whole plane, pixel rectangles in theirs. -/
theorem witness_sub :
    start.Inv ∧ (Instr.sub 0 1 2 0 16).wf start.cfg = true ∧ (start.ctx 0).ready = true ∧
    start.boundsOk (start.ctx 0) (start.ctx 0) [.y, .cb, .cr] 0 16 16 16 = true ∧
    start.pbuf 1 = some (pixels 0x8000 0xA000 0xB000) ∧ start.pbuf 2 = some (pixels 0xC000 0xE000 0xF000) ∧
    (start.ctx 0).plan [.y, .cb, .cr] 16 16 = [.y, .cb, .cr] ∧
    ∀ p ∈ (start.ctx 0).plan [.y, .cb, .cr] 16 16,
      (pixels 0x8000 0xA000 0xB000).holds start.cfg p 0 16 ((start.ctx 0).extent 16 16 p) = true ∧
      (pixels 0xC000 0xE000 0xF000).holds start.cfg p 0 16 ((start.ctx 0).extent 16 16 p) = true := by
  refine ⟨start_inv, ?_⟩
  decide

/-- SubPortTrace: a SUB that completes with OK. -/
theorem witness_sub_trace :
    (16 : Dim).toNat = 2 ^ ((2 : BitVec 3).toNat + 2) ∧ (4 : Dim).toNat = 2 ^ ((0 : BitVec 3).toNat + 2) ∧
    completes (exec (.sub 0 1 2 1 4) start) = true ∧ statusOf (exec (.sub 0 1 2 1 4) start) = some 0 := by decide

/-- AddclipStoresTheClippedSum: the whole plane, and the destination among the sources. -/
theorem witness_addclip :
    start.Inv ∧ (Instr.addclip 2 0 1 0 16).wf start.cfg = true ∧ (Instr.addclip 0 0 0 0 16).wf start.cfg = true ∧
    start.cfg.bitDepth ≤ 15 ∧
    ∀ k ∈ [(0 : Id), 1, 2], (start.ctx k).ready = true ∧
      start.boundsOk (start.ctx k) (start.ctx 2) [.y, .cb, .cr] 0 16 16 16 = true := by
  refine ⟨start_inv, ?_⟩
  decide

/-- AddclipPortTrace, PixelCopyPortTrace, CopyAllIsLumaThenBothChroma, SingleChannelCopyTouchesOneChannel: commands
that complete with OK. -/
theorem witness_traces :
    ([.addclip 2 0 1 1 4, .cpypl 0 3 1 4 4 4, .cpypc 0 3 2 1 4 4 4, .cpypa 0 3 1 4 4 4, .cpyra 0 1 1 4 4 4,
      .cpyrc 0 1 0 1 4 4 4, .cpyrc 0 1 1 1 4 4 4] : List Instr).all (fun i =>
      completes (exec i start) && decide (statusOf (exec i start) = some 0)) = true ∧
    (start.ctx 1).ready = true ∧ start.pbuf 3 = some (pixels 0x8000 0xA000 0xB000) := by decide

/-- `start` with the rectangles of partition 1 of size 4 filled: 100 in pixel buffer 1, 30 in pixel buffer 2 and, as
wide samples, in context 1. -/
def filled : State :=
  { start with
    rmem := Mem.writeAll [] (rectCells 0x1184 16 4 4 (fun _ _ => 30) ++ rectCells 0x1282 8 2 2 (fun _ _ => 30) ++
      rectCells 0x12C2 8 2 2 (fun _ _ => 30))
    pmem := Mem.writeAll [] (rectCells 0x8004 80 4 4 (fun _ _ => 100) ++ rectCells 0xA002 40 2 2 (fun _ _ => 100) ++
      rectCells 0xB002 40 2 2 (fun _ _ => 100) ++ rectCells 0xC004 80 4 4 (fun _ _ => 30) ++
      rectCells 0xE002 40 2 2 (fun _ _ => 30) ++ rectCells 0xF002 40 2 2 (fun _ _ => 30)) }

/-- `filled` meets the invariant. -/
theorem filled_inv : filled.Inv := by
  constructor <;> decide

/-- SubThenAddclipReconstructs: V9's instance 100 - 30, in contexts 0, 1 and 2. -/
theorem witness_round_trip :
    filled.Inv ∧ (Instr.sub 0 1 2 1 4).wf filled.cfg = true ∧ (Instr.addclip 2 0 1 1 4).wf filled.cfg = true ∧
    (∀ k ∈ [(0 : Id), 1, 2], (filled.ctx k).ready = true ∧ (filled.ctx k).hshift = (filled.ctx 0).hshift ∧
      (filled.ctx k).vshift = (filled.ctx 0).vshift ∧ (filled.ctx k).cpres = (filled.ctx 0).cpres ∧
      filled.boundsOk (filled.ctx k) (filled.ctx 0) [.y, .cb, .cr] 1 4 4 4 = true) ∧
    filled.pbuf 1 = some (pixels 0x8000 0xA000 0xB000) ∧ filled.pbuf 2 = some (pixels 0xC000 0xE000 0xF000) ∧
    ∀ p ∈ (filled.ctx 0).plan [.y, .cb, .cr] 4 4,
      (pixels 0x8000 0xA000 0xB000).holds filled.cfg p 1 4 ((filled.ctx 0).extent 4 4 p) = true ∧
      (pixels 0xC000 0xE000 0xF000).holds filled.cfg p 1 4 ((filled.ctx 0).extent 4 4 p) = true ∧
      ∀ y < 4 >>> (filled.ctx 0).vs p, ∀ x < 4 >>> (filled.ctx 0).hs p,
        filled.readP ((pixels 0x8000 0xA000 0xB000).pointer filled.cfg p 1 4 +
          y * ((pixels 0x8000 0xA000 0xB000).plane p).stride.toNat + x) = 100 ∧
        filled.readP ((pixels 0xC000 0xE000 0xF000).pointer filled.cfg p 1 4 +
          y * ((pixels 0xC000 0xE000 0xF000).plane p).stride.toNat + x) = 30 ∧
        filled.readR ((filled.ctx 1).addr filled.cfg p 1 4 + y * ((filled.ctx 1).pw p).toNat + x) = 30 := by
  refine ⟨filled_inv, ?_⟩
  decide

/-- ResidualCopyCopiesTheRectangle and the first part of SelfCopyIsANoOp: each copy, the whole plane. -/
theorem witness_residual_copies :
    start.Inv ∧ (start.ctx 0).ready = true ∧ (start.ctx 1).ready = true ∧
    (∀ ip ∈ residualCopies 0 1 2 0 16 16 16, ip.1.wf start.cfg = true ∧
      start.boundsOk (start.ctx 0) (start.ctx 0) ip.2 0 16 16 16 = true ∧
      start.boundsOk (start.ctx 1) (start.ctx 0) ip.2 0 16 16 16 = true) ∧
    ∀ ip ∈ residualCopies 0 0 1 0 16 16 16, ip.1.wf start.cfg = true ∧
      start.boundsOk (start.ctx 0) (start.ctx 0) ip.2 0 16 16 16 = true := by
  refine ⟨start_inv, ?_⟩
  decide

/-- PixelCopyTruncates: each copy, all three planes, the pixel rectangles apart. -/
theorem witness_pixel_copies :
    start.Inv ∧ (start.ctx 0).ready = true ∧ start.pbuf 3 = some (pixels 0x8000 0xA000 0xB000) ∧
    (∀ ip ∈ pixelCopies 0 3 2 1 4 4 4, ip.1.wf start.cfg = true ∧
      start.boundsOk (start.ctx 0) (start.ctx 0) ip.2 1 4 4 4 = true ∧
      ∀ p ∈ (start.ctx 0).plan ip.2 4 4,
        (pixels 0x8000 0xA000 0xB000).holds start.cfg p 1 4 ((start.ctx 0).extent 4 4 p) = true) ∧
    ∀ p q : Plane, p ≠ q → ∀ a,
      ¬ (pixelRectHas start.cfg (pixels 0x8000 0xA000 0xB000) p 1 4 ((start.ctx 0).extent 4 4 p) a ∧
        pixelRectHas start.cfg (pixels 0x8000 0xA000 0xB000) q 1 4 ((start.ctx 0).extent 4 4 q) a) := by
  refine ⟨start_inv, by decide, by decide, by decide, ?_⟩
  have near : ∀ p a, pixelRectHas start.cfg (pixels 0x8000 0xA000 0xB000) p 1 4 ((start.ctx 0).extent 4 4 p) a →
      (match p with
        | .y => 0x8000
        | .cb => 0xA000
        | .cr => 0xB000) ≤ a ∧ a < (match p with
        | .y => 0x9000
        | .cb => 0xB000
        | .cr => 0xC000) := by
    rintro p a ⟨y, hy, x, hx, rfl⟩
    revert y x
    cases p <;> decide
  rintro p q hpq a ⟨h1, h2⟩
  have h3 := near p a h1
  have h4 := near q a h2
  cases p <;> cases q <;> first | exact absurd rfl hpq | (dsimp only at h3 h4; omega)

/-- PixelCopyTruncates where rows overlap: `tight`'s cell 0x8002 is asked for two samples, its cell 0x8000 for one. -/
theorem witness_overlapping_rows :
    let s := { start with pbufs := start.pbufs.set 3 (some tight) }
    s.pbuf 3 = some tight ∧ s.boundsOk (s.ctx 0) (s.ctx 0) [.y] 0 4 4 4 = true ∧
    tight.holds s.cfg .y 0 4 ((s.ctx 0).extent 4 4 .y) = true ∧ completes (exec (.cpypl 0 3 0 4 4 4) s) = true ∧
    0x8002 = tight.pointer s.cfg .y 0 4 + 0 * (tight.plane .y).stride.toNat + 2 ∧
    0x8002 = tight.pointer s.cfg .y 0 4 + 1 * (tight.plane .y).stride.toNat + 0 ∧
    ∀ y < 4, ∀ x < 4, y * (tight.plane .y).stride.toNat + x = 0 → y = 0 ∧ x = 0 := by decide

/-- UseBeforeCreateIsInvalidState: every command that needs a context, and an answer of status 2. -/
theorem witness_not_ready :
    ([.clear 3, .addr 3 .y 0 4, .sub 3 1 2 0 4, .addclip 0 3 1 0 4, .addclip 0 1 3 0 4, .cpyrl 0 3 0 4 4 4,
      .cpyrc 3 0 0 0 4 4 4, .cpyra 0 3 0 4 4 4, .cpypl 3 3 0 4 4 4, .cpypc 3 3 0 0 4 4 4, .cpypa 3 3 0 4 4 4] :
      List Instr).all (fun i => i.wf start.cfg && (needsReady i).any (fun c => !(start.ctx c).ready) &&
        decide (statusOf (exec i start) = some 2)) = true := by decide

/-- BoundsFailureIsDimensionMismatch: each command just past its plane. -/
theorem witness_out_of_bounds :
    ([.addr 0 .y 16 1, .sub 0 1 2 0 32, .addclip 2 0 1 0 17, .cpyrl 0 1 0 16 17 16, .cpyrc 0 1 2 0 16 18 16,
      .cpyra 0 1 0 16 16 17, .cpypl 0 3 0 16 17 16, .cpypc 0 3 0 0 16 16 18, .cpypa 0 3 0 16 17 16] :
      List Instr).all (fun i => i.wf start.cfg && (needsReady i).all (fun c => (start.ctx c).ready) &&
        decide (statusOf (exec i start) = some 3)) = true := by decide

/-- ErrorsArePrecise: each of the four errors. -/
theorem witness_errors :
    (after (exec (.destroy 9) start)).respPort = some (packResponse CmdError.illegalCommand.code 0 0) ∧
    (after (exec (.clear 3) start)).respPort = some (packResponse CmdError.invalidState.code 0 0) ∧
    (after (exec (.addr 0 .y 16 1) start)).respPort = some (packResponse CmdError.dimensionMismatch.code 0 0) ∧
    (after (exec (.create 0 1 16 16) { start with allocScript := [none] })).respPort =
      some (packResponse CmdError.allocation.code 0 0) ∧
    completes (exec (.create 0 1 16 16) { start with allocScript := [none] }) = true := by decide

/-- EmptyPlanIsANoOp: each command, its partition outside the plane. -/
theorem witness_empty :
    (start.ctx 0).plan [.y, .cb, .cr] 0 0 = [] ∧ (start.ctx 0).plan [.y] 5 0 = [] ∧
    (start.ctx 0).plan (channels 0) 1 4 = [] ∧ (start.ctx 0).plan (channels 9) 4 1 = [] ∧
    ([.addclip 0 1 2 99 0, .cpyrl 0 1 99 16 5 0, .cpyrc 0 1 0 99 16 1 4, .cpyra 0 1 99 16 0 0, .cpypl 0 9 99 16 5 0,
      .cpypc 0 9 9 99 16 4 1, .cpypa 0 9 99 16 0 0] : List Instr).all (fun i => i.wf start.cfg &&
        (needsReady i).all (fun c => (start.ctx c).ready)) = true := by decide

/-- OnlyThePixelSideFaults, DeadOrOutsidePixelRectanglesFault: SUB and each pixel copy, its checks passed, meets a
dead id and a rectangle past the last row of its pixel plane. -/
theorem witness_faults :
    let low := { pixels 0x8000 0xA000 0xB000 with y := ⟨0x8000, 80, 64, 3⟩, cb := ⟨0xA000, 40, 32, 1⟩ }
    let s := { start with pbufs := start.pbufs.set 3 (some low) }
    start.Inv ∧ (start.ctx 0).ready = true ∧ start.pbuf 9 = none ∧ s.pbuf 3 = some low ∧
    (∀ ip ∈ (Instr.sub 0 1 9 0 4, [Plane.y, .cb, .cr]) :: pixelCopies 0 9 0 0 4 4 4,
      ip.1.wf start.cfg = true ∧ start.boundsOk (start.ctx 0) (start.ctx 0) ip.2 0 4 4 4 = true ∧
      (start.ctx 0).plan ip.2 4 4 ≠ [] ∧ exec ip.1 start = .fault .noPixelBuffer) ∧
    ∀ ip ∈ (Instr.sub 0 1 3 0 4, [Plane.y, .cb, .cr]) :: pixelCopies 0 3 0 0 4 4 4,
      ip.1.wf s.cfg = true ∧ exec ip.1 s = .fault .pixelRectOutsidePlane ∧
      ((start.ctx 0).plan ip.2 4 4).any (fun p => !low.holds s.cfg p 0 4 ((start.ctx 0).extent 4 4 p)) = true := by
  refine ⟨start_inv, rfl, rfl, rfl, ?_, ?_⟩
  · intro ip hip
    simp only [pixelCopies, List.mem_cons, List.not_mem_nil, or_false] at hip
    rcases hip with rfl | rfl | rfl | rfl <;> exact ⟨by decide, by decide, by decide, rfl⟩
  · intro ip hip
    simp only [pixelCopies, List.mem_cons, List.not_mem_nil, or_false] at hip
    rcases hip with rfl | rfl | rfl | rfl <;> exact ⟨by decide, rfl, by decide⟩

/-- EveryStepKeepsTheInvariant, StepsKeepTheConfiguration: a command, a part, and each other move takes a step. -/
theorem witness_steps :
    start.Inv ∧ ([[], [.command 0x020000000000000000000000], [.command 0x010001000010001000000000],
      [.command 0x112010000000000000040001], [.commandPart 1], [.takeResponse], [.writeResidual 0x1000 5],
      [.readResidual 0x1000], [.writePixel 0xFFFFFFFF 0xFFFF], [.setPixelBuffer 15 none], [.reset]] :
      List (List HostMove)).all (fun l => completes (step { start with inputs := l })) = true := by
  refine ⟨start_inv, ?_⟩
  decide

/-- ReadyContextsKeepTheirGeometryAndRegions, AllocatorGivesDisjointRegions: contexts next to each other; the last
sample of RMEM. -/
theorem witness_regions :
    start.Inv ∧ (start.ctx 0).ready = true ∧ (start.ctx 1).ready = true ∧ ((0 : Id), Plane.cr) ≠ (1, .y) ∧
    ((start.alloc 256).1 = some 0x2000) ∧ (0xFFFFFFFF : Addr).toNat + 1 ≤ 2 ^ 32 ∧
    (∀ q ∈ start.live, q.base.toNat + q.size ≤ (0xFFFFFFFF : Addr).toNat) ∧
    (∀ q ∈ start.live, (0x1480 : Addr).toNat + 16 ≤ q.base.toNat ∨ q.base.toNat + q.size ≤ (0x1480 : Addr).toNat) := by
  refine ⟨start_inv, ?_⟩
  decide

/-- OnlyCreateAndDestroyChangeContexts, CommandsReachOnlyTheirMemories, FreesNameLiveRegions (DESTROY frees),
KernelRecordsAreGuaranteed (SUB, ADDCLIP and CPYP* send records): one command of each kind completes. -/
theorem witness_frames :
    start.Inv ∧ (after (exec (.destroy 0) start)).trace.length = 3 ∧
    ([.create 3 1 16 16, .destroy 0, .clear 3, .rdctx 0 .csp, .addr 0 .y 0 4, .sub 0 1 2 1 4, .addclip 2 0 1 1 4,
      .cpyrl 0 1 1 4 4 4, .cpyrc 0 1 1 1 4 4 4, .cpyra 0 1 1 4 4 4, .cpypl 0 3 1 4 4 4, .cpypc 0 3 1 1 4 4 4,
      .cpypa 0 3 1 4 4 4] : List Instr).all (fun i => i.wf start.cfg && completes (exec i start)) = true := by
  refine ⟨start_inv, ?_⟩
  decide

/-- HostReachesReadyRegionsOnly: the last cell of a plane, and the first address past the contexts' planes. -/
theorem witness_host :
    (start.ctx 2).ready = true ∧ ((start.ctx 2).region .cr).contains (0x147F : Addr).toNat = true ∧
    ({ start with inputs := [.readResidual 0x147F] } : State).inputs = [.readResidual 0x147F] ∧
    ∀ c p, (start.ctx c).ready = true → ((start.ctx c).region p).contains (0x1480 : Addr).toNat = false := by
  refine ⟨by decide, by decide, rfl, fun c p => ?_⟩
  revert c
  cases p <;> decide

/-- ResetMoveUninitializesTheUnit, OtherMovesTouchOnlyTheirOwn: the moves, from a state with a response pending. -/
theorem witness_moves :
    let s := { start with respPort := some 0x4000000000000000 }
    ({ s with inputs := [.reset] } : State).inputs = [.reset] ∧
    ({ s with inputs := [] } : State).inputs = [] ∧
    ({ s with inputs := [.takeResponse] } : State).inputs = [.takeResponse] ∧
    ({ s with inputs := [.writePixel 0xFFFFFFFF 300] } : State).inputs = [.writePixel 0xFFFFFFFF 300] ∧
    ({ s with inputs := [.setPixelBuffer 15 (some (pixels 0 0 0))] } : State).inputs =
      [.setPixelBuffer 15 (some (pixels 0 0 0))] := ⟨rfl, rfl, rfl, rfl, rfl⟩

end Sys2Proof.Tests
end

section
/-! Scope (spec/00_scope.md): narrowing as a remainder (R13), and the static parameters no step changes (R8 to R12). -/

namespace Sys2Proof.Machine

/-! ### Narrowing -/

/-- The signed and the unsigned reading of a sample leave the same remainder: they differ by a multiple of `2^16`,
which `2^n` divides. -/
theorem toInt_emod_two_pow {n : Nat} (hn : n ≤ 16) (v : Sample) : v.toInt % 2 ^ n = (v.toNat : Int) % 2 ^ n := by
  have hdvd : (2 ^ n : Int) ∣ 2 ^ 16 := pow_dvd_pow 2 hn
  calc v.toInt % 2 ^ n
      = v.toInt % 2 ^ 16 % 2 ^ n := (Int.emod_emod_of_dvd _ hdvd).symm
    _ = (v.toNat : Int) % 2 ^ 16 % 2 ^ n := by
        rw [BitVec.toInt_eq_toNat_bmod]
        exact congrArg (· % (2 : Int) ^ n) Int.bmod_emod
    _ = (v.toNat : Int) % 2 ^ n := Int.emod_emod_of_dvd _ hdvd

/-- Settles O34: truncation is the remainder of the unsigned reading (`truncTo_toNat`), which is that of the signed
one; the examples of R13 are evaluated. -/
theorem narrowingIsTruncation : Obligations.NarrowingIsTruncation := by
  refine ⟨fun n v hn => ?_, by decide, by decide⟩
  rw [truncTo_toNat, toInt_emod_two_pow hn]
  norm_cast

/-! ### The static parameters -/

/-- A command that completes keeps the static parameters: CREATE and DESTROY act through the allocator's port, the
phases of the other commands on the memories and the trace. -/
theorem Completes.cfg_eq {s t : State} {i : Instr} (h : Completes s i t) : t.cfg = s.cfg := by
  cases h with
  | illegal | rejected | rdctx | addr | clear => rfl
  | create c csp w h row =>
    obtain ⟨u, X, r, hcreate, hport, -⟩ := createWith_cases s c csp row w h
    rw [hcreate]
    exact hport.cfg
  | destroy c =>
    obtain ⟨u, hrelease, hport⟩ := release_cases s c
    rw [hrelease]
    exact hport.cfg
  | sub _ _ _ _ _ u _ _ _ hrun =>
    obtain ⟨m, n, es, rfl⟩ := subPhases_frame hrun
    rfl
  | addclip _ _ _ _ _ u _ _ hrun =>
    obtain ⟨m, n, es, rfl⟩ := addPhases_frame hrun
    rfl
  | toResidual _ _ _ _ _ _ _ _ u _ _ _ hrun =>
    obtain ⟨m, rfl⟩ := copyRR_phases_frame hrun
    rfl
  | toPixel _ _ _ _ _ _ _ _ u _ _ _ hrun =>
    obtain ⟨m, n, es, rfl⟩ := copyRP_phases_frame hrun
    rfl

/-- A command word, decoded or not, keeps the static parameters. -/
theorem runCommand_cfg {w : Command} {s t : State} (h : runCommand w s = .next t) : t.cfg = s.cfg := by
  unfold runCommand at h
  split at h
  · exact (completes_of_exec h).cfg_eq
  · cases h
    rfl

/-- So does a part of a command word. -/
theorem runPart_cfg {w : CommandPart} {s t : State} (h : runPart w s = .next t) : t.cfg = s.cfg := by
  unfold runPart at h
  split at h
  · cases h
    rfl
  · cases h
    rfl
  · have hcfg := runCommand_cfg h
    exact hcfg

/-- Taking the response keeps the static parameters. -/
@[simp] theorem State.takeResponse_cfg (s : State) : s.takeResponse.cfg = s.cfg := by
  rw [State.takeResponse_eq]

/-- So does taking a command at the port. -/
@[simp] theorem State.accept_cfg (s : State) (rest : List HostMove) : (s.accept rest).cfg = s.cfg :=
  s.takeResponse_cfg

/-- Every host move keeps the static parameters. -/
theorem runMove_cfg {m : HostMove} {s t : State} {rest : List HostMove} (h : runMove m s rest = .next t) :
    t.cfg = s.cfg := by
  cases m with
  | command w => exact (runCommand_cfg h).trans (s.accept_cfg rest)
  | commandPart w => exact (runPart_cfg h).trans (s.accept_cfg rest)
  | takeResponse =>
    cases h
    exact s.takeResponse_cfg
  | writeResidual | readResidual =>
    simp only [runMove] at h
    split at h <;> cases h
    rfl
  | writePixel | setPixelBuffer | reset =>
    cases h
    rfl

/-- Settles O48: a step is the host's next move, or idleness, which changes nothing. -/
theorem stepsKeepTheConfiguration : Obligations.StepsKeepTheConfiguration := by
  intro s t h
  unfold step stepMove at h
  split at h
  · cases h
    rfl
  · exact runMove_cfg h

end Sys2Proof.Machine
end

section
/-! The unit's state (spec/10_state.md): reset (R37, R220), the fields RDCTX reads (R23, R112), what a Ready context
guarantees (R32), and the invariant every step keeps (R26 to R34, R51, R52, R192, R193). -/

namespace Sys2Proof.Machine

/-! ### Reset -/

/-- Settles O1: `State.reset` gives each of these fields the value of R37. -/
theorem resetLeavesTheUnitUninitialized : Obligations.ResetLeavesTheUnitUninitialized :=
  ⟨State.reset_ctx, rfl, rfl, rfl, fun _ => rfl, fun _ => rfl⟩

/-- With every context Uninitialized, no region live and nothing known of any cell, the invariant holds. -/
theorem inv_of_uninit {s : State} (hctxs : s.ctxs = Vector.replicate 16 Context.uninit) (hrmem : s.rmem = [])
    (hpmem : s.pmem = []) (hlive : s.live = []) : s.Inv where
  ctxOk c := by
    have hc : s.ctx c = Context.uninit := by simp [State.ctx, hctxs]
    rw [hc]
    exact rfl
  rmemWf := hrmem ▸ List.Pairwise.nil
  pmemWf := hpmem ▸ List.Pairwise.nil
  pmemCells := by simp [hpmem]
  liveHeld := by simp [State.held, Context.regions, Context.uninit, hctxs, hlive]
  liveApart := hlive ▸ List.Pairwise.nil
  liveFits := by simp [hlive]
  rmemLive := by simp [hrmem]

/-- Settles O2: reset leaves every context Uninitialized, both memories and the record empty (`inv_of_uninit`). -/
theorem resetMeetsTheInvariant : Obligations.ResetMeetsTheInvariant :=
  inv_of_uninit rfl rfl rfl rfl

/-! ### RDCTX -/

/-- The word of an RDCTX from its bits: the opcode, the context, the index, and 0 elsewhere (30_encoding R72). -/
theorem fieldsOf_rdctxWord (c sel : Id) :
    fieldsOf (0x04#8 ++ c ++ 0#8 ++ sel ++ 0#72) = ⟨0x04, c, 0, 0, sel, 0, 0, 0, 0, 0⟩ := by
  simp (disch := omega) only [fieldsOf, BitVec.extractLsb'_append_eq_of_le,
    BitVec.extractLsb'_append_eq_of_add_le, Nat.reduceSub, BitVec.extractLsb'_eq_self, BitVec.extractLsb'_zero,
    BitVec.ofNat_eq_ofNat]

/-- Such a word decodes when the context exists and the index names a field. -/
theorem decode_rdctxWord {cfg : Config} {c sel : Id} {f : CtxField} (hc : c.toNat < cfg.nctx)
    (hsel : fieldOf sel = .ok f) : decode cfg (0x04#8 ++ c ++ 0#8 ++ sel ++ 0#72) = .ok (.rdctx c f) := by
  simp [decode, fieldsOf_rdctxWord, mustBeZero, needContext, ctxInRange, hc, hsel, bind, Except.bind, pure,
    Except.pure]

/-- The index of R23 selects the field that stands there in the list of fields. -/
theorem fieldOf_ofNat (n : Fin 12) : fieldOf (BitVec.ofNat 4 n.val) = .ok (ctxFields[n.val]'n.isLt) := by
  revert n
  decide

/-- An OK answer with no second value is the value zero-extended (30_encoding R73). -/
theorem packResponse_ok (v : BitVec 32) : packResponse statusOk v 0 = 0#32 ++ v := rfl

/-- What RDCTX does: it answers the field, in either lifecycle state. -/
theorem exec_rdctx {s : State} {c : Id} (f : CtxField) (hc : c.toNat < s.cfg.nctx) :
    exec (.rdctx c f) s = .next { s with respPort := some (0#32 ++ (s.ctx c).field f) } := by
  have hwf : (Instr.rdctx c f).wf s.cfg = true := decide_eq_true hc
  show whenLegal (.rdctx c f) s _ = _
  rw [(whenLegal_eq _ _ _).1 hwf, ← packResponse_ok]
  rfl

/-- The fields of a context in the order of R23, as numbers. -/
theorem fields_toNat (X : Context) : ctxFields.map (fun f => (X.field f).toNat) =
    [cond X.ready 1 0, X.width.toNat, X.height.toNat, X.cwidth.toNat, X.cheight.toNat, X.hshift.toNat,
      X.vshift.toNat, X.csp.toNat, cond X.cpres 1 0, X.baseY.toNat, X.baseCb.toNat, X.baseCr.toNat] := by
  have hbit : ∀ b : Bool, (if b then 1 else 0 : BitVec 32).toNat = cond b 1 0 := by decide
  simp only [ctxFields, List.map_cons, List.map_nil, Context.field, hbit,
    BitVec.toNat_setWidth_of_le (show 16 ≤ 32 by decide), BitVec.toNat_setWidth_of_le (show 4 ≤ 32 by decide),
    BitVec.toNat_setWidth_of_le (show 2 ≤ 32 by decide)]

/-- Settles O22: the word decodes to the RDCTX of the index's field, and its answer is that field. -/
theorem rdctxReadsTheIndexedField : Obligations.RdctxReadsTheIndexedField := by
  intro s c hc n
  refine ⟨ctxFields[n.val]'n.isLt, (s.ctx c).field (ctxFields[n.val]'n.isLt),
    decode_rdctxWord hc (fieldOf_ofNat n), exec_rdctx _ hc, ?_⟩
  rw [← fields_toNat, List.getElem?_map, List.getElem?_eq_getElem n.isLt]
  rfl

/-! ### Geometry of a Ready context -/

/-- A Ready context's chroma dimensions are the shifted luma dimensions, or 0 without chroma (10_state R26, R31). -/
theorem Context.Ok.chroma_toNat {cfg : Config} {X : Context} (h : X.Ok cfg) (hr : X.ready = true) :
    X.cwidth.toNat = (if X.cpres then X.width.toNat >>> X.hshift.toNat else 0) ∧
      X.cheight.toNat = (if X.cpres then X.height.toNat >>> X.vshift.toNat else 0) := by
  simp only [Context.Ok, hr, if_true] at h
  obtain ⟨-, hw, hh⟩ := h
  rw [hw, hh]
  cases X.cpres <;> simp

/-- So they are no larger than the luma dimensions. -/
theorem Context.Ok.chroma_le {cfg : Config} {X : Context} (h : X.Ok cfg) (hr : X.ready = true) :
    X.cwidth.toNat ≤ X.width.toNat ∧ X.cheight.toNat ≤ X.height.toNat := by
  obtain ⟨hw, hh⟩ := h.chroma_toNat hr
  rw [hw, hh]
  cases X.cpres <;> simp [Nat.shiftRight_le]

/-- A shifted sum is at least the sum of the shifted terms. -/
theorem shiftRight_add_le {a b n : Nat} (k : Nat) (h : a + b ≤ n) : a >>> k + b >>> k ≤ n >>> k := by
  simp only [Nat.shiftRight_eq_div_pow]
  exact Nat.div_add_div_le_add_div.trans (Nat.div_le_div_right h)

/-- Settles O13: the chroma rectangle and the chroma plane are the luma ones shifted, and a shift keeps the bound of
a sum. -/
theorem lumaBoundsImplyChromaBounds : Obligations.LumaBoundsImplyChromaBounds := by
  intro cfg X p pidx psize w h hok hr hc hluma
  obtain ⟨hcw, hch⟩ := hok.chroma_toNat hr
  rw [hc, if_pos rfl] at hcw hch
  obtain ⟨hcol, hrow⟩ := Context.inBounds_iff.mp hluma
  have chroma : colOf cfg pidx psize >>> X.hshift.toNat + w.toNat >>> X.hshift.toNat ≤ X.cwidth.toNat ∧
      rowOf cfg pidx psize >>> X.vshift.toNat + h.toNat >>> X.vshift.toNat ≤ X.cheight.toNat := by
    rw [hcw, hch]
    exact ⟨shiftRight_add_le _ hcol, shiftRight_add_le _ hrow⟩
  cases p with
  | y => exact hluma
  | cb | cr => exact Context.inBounds_iff.mpr chroma

/-- Settles O42: the chroma dimensions are shifted luma dimensions, and the regions lie inside RMEM and apart because
they are live (`plane_fits`, `planes_apart`). -/
theorem readyContextsKeepTheirGeometryAndRegions : Obligations.ReadyContextsKeepTheirGeometryAndRegions := by
  intro s c hI hr
  obtain ⟨hw, hh⟩ := (hI.ctxOk c).chroma_le hr
  refine ⟨Nat.mul_le_mul hw hh, hw, hh, fun p => plane_fits p hI hr, ?_⟩
  rintro d p q hd hne a ⟨hlo, hhi, hlo', hhi'⟩
  have hin : ((s.ctx c).region p).contains a = true := Region.contains_iff.mpr ⟨hlo, hhi⟩
  have hin' : ((s.ctx d).region q).contains a = true := Region.contains_iff.mpr ⟨hlo', hhi'⟩
  rw [Region.not_contains_of_disjoint (planes_apart hI hr hd hne) hin] at hin'
  cases hin'

/-! ### Which commands change contexts -/

/-- Settles O43: CREATE and DESTROY replace the one context they name; a rejected command changes the response alone,
and the phases of the others change memories and counters. -/
theorem onlyCreateAndDestroyChangeContexts : Obligations.OnlyCreateAndDestroyChangeContexts := by
  intro s t i hwf hexec
  cases completes_of_exec hexec with
  | illegal _ hill => rw [hwf] at hill; cases hill
  | rejected _ e _ _ hi =>
    cases i with
    | create | destroy => exact hi.elim
    | clear | rdctx | addr | sub | addclip | cpyrl | cpyrc | cpyra | cpypl | cpypc | cpypa => rfl
  | create c csp w h row =>
    obtain ⟨u, X, r, hcreate, -, hans⟩ := createWith_cases s c csp row w h
    rw [hcreate]
    have hctx := State.ctx_of_set (s := s) (c := c) (X := X)
      (u := { u with ctxs := s.ctxs.set c.toNat X c.isLt, respPort := some r }) rfl
    refine ⟨fun d hd => (hctx d).trans (if_neg hd), ?_⟩
    rw [hctx c, if_pos rfl]
    rcases hans with ⟨rfl, hready⟩ | ⟨rfl, rfl⟩
    · simp [hready]
    · simp [Context.uninit]
  | destroy c =>
    obtain ⟨u, hrelease, -⟩ := release_cases s c
    rw [hrelease]
    by_cases hr : (s.ctx c).ready = true
    · have hctx := State.ctx_of_set (s := s) (c := c) (X := Context.uninit)
        (u := State.done { u with ctxs := s.ctxs.set c.toNat Context.uninit c.isLt }) rfl
      simp only [hr, if_true]
      exact ⟨fun d hd => (hctx d).trans (if_neg hd), by rw [hctx c, if_pos rfl]; rfl⟩
    · simp only [hr]
      exact ⟨fun _ _ => rfl, Bool.eq_false_iff.mpr hr⟩
  | clear | rdctx | addr => rfl
  | sub _ _ _ _ _ u _ _ _ hrun =>
    obtain ⟨m, n, es, rfl⟩ := subPhases_frame hrun
    rfl
  | addclip _ _ _ _ _ u _ _ hrun =>
    obtain ⟨m, n, es, rfl⟩ := addPhases_frame hrun
    rfl
  | toResidual _ _ _ _ _ _ _ _ u hi _ _ hrun =>
    obtain ⟨m, rfl⟩ := copyRR_phases_frame hrun
    rcases hi with hi | ⟨cid, hi⟩ | hi <;> cases hi <;> rfl
  | toPixel _ _ _ _ _ _ _ _ u hi _ _ hrun =>
    obtain ⟨m, n, es, rfl⟩ := copyRP_phases_frame hrun
    rcases hi with hi | ⟨cid, hi⟩ | hi <;> cases hi <;> rfl

/-! ### The invariant: what it depends on -/

/-- The invariant speaks of the parameters, the context file, the memories and the allocator's record only. -/
theorem State.Inv.congr {s t : State} (h : s.Inv) (hcfg : t.cfg = s.cfg) (hctxs : t.ctxs = s.ctxs)
    (hrmem : t.rmem = s.rmem) (hpmem : t.pmem = s.pmem) (hlive : t.live = s.live) : t.Inv := by
  have hctx : t.ctx = s.ctx := by
    funext c
    simp only [State.ctx, hctxs]
  have hheld : t.held = s.held := by simp only [State.held, hctxs]
  obtain ⟨h1, h2, h3, h4, h5, h6, h7, h8⟩ := h
  constructor <;> simp only [hcfg, hctx, hrmem, hpmem, hlive, hheld] <;> assumption

/-- Presenting a response keeps the invariant. -/
theorem State.Inv.respond {s : State} (h : s.Inv) (st : BitVec 4) (v : BitVec 32) (x : BitVec 16) :
    (s.respond st v x).Inv := h.congr rfl rfl rfl rfl rfl

/-- So does taking a command at the port. -/
theorem State.Inv.accept {s : State} (h : s.Inv) (rest : List HostMove) : (s.accept rest).Inv := by
  unfold State.accept
  rw [State.takeResponse_eq]
  exact h.congr rfl rfl rfl rfl rfl

/-- One context replaced by one of the form CREATE and DESTROY leave, the account of live regions kept with it. -/
theorem State.Inv.of_set {s t : State} {c : Id} {X : Context} (h : s.Inv) (hcfg : t.cfg = s.cfg)
    (hpmem : t.pmem = s.pmem) (hctxs : t.ctxs = s.ctxs.set c.toNat X c.isLt) (hX : X.Ok s.cfg)
    (hacc : Accounts t (X.regions ++ s.heldByOthers c)) : t.Inv where
  ctxOk d := by
    rw [State.ctx_of_set hctxs d, hcfg]
    split
    · exact hX
    · exact h.ctxOk d
  rmemWf := hacc.rmemWf
  pmemWf := hpmem ▸ h.pmemWf
  pmemCells := by
    rw [hpmem, hcfg]
    exact h.pmemCells
  liveHeld := hacc.liveHeld.trans (held_perm_of_set hctxs).symm
  liveApart := hacc.liveApart
  liveFits := hacc.liveFits
  rmemLive := hacc.rmemLive

/-- Writes to cells of live regions keep it. -/
theorem State.Inv.writeR {s : State} (h : s.Inv) {ws : List (Nat × Sample)}
    (hws : ∀ e ∈ ws, ∃ r ∈ s.live, r.contains e.1 = true) : (s.writeR ws).Inv where
  ctxOk := h.ctxOk
  rmemWf := Mem.wf_writeAll ws h.rmemWf
  pmemWf := h.pmemWf
  pmemCells := h.pmemCells
  liveHeld := h.liveHeld
  liveApart := h.liveApart
  liveFits := h.liveFits
  rmemLive e he := (Mem.mem_writeAll he).elim (hws e) (h.rmemLive e)

/-- Writes of PIXW-bit values to PMEM cells that exist keep it. -/
theorem State.Inv.writeP {s : State} (h : s.Inv) {ws : List (Nat × Sample)}
    (hws : ∀ e ∈ ws, e.1 < spaceSize ∧ e.2.toNat < 2 ^ s.cfg.pixw) : (s.writeP ws).Inv where
  ctxOk := h.ctxOk
  rmemWf := h.rmemWf
  pmemWf := Mem.wf_writeAll ws h.pmemWf
  pmemCells e he := (Mem.mem_writeAll he).elim (hws e) (h.pmemCells e)
  liveHeld := h.liveHeld
  liveApart := h.liveApart
  liveFits := h.liveFits
  rmemLive := h.rmemLive

/-- A truncated sample has PIXW bits. -/
theorem truncTo_lt (n : Nat) (v : Sample) : (truncTo n v).toNat < 2 ^ n := by
  rw [truncTo_toNat]
  exact Nat.mod_lt _ (Nat.two_pow_pos n)

/-! ### CREATE and DESTROY keep the invariant -/

/-- A context that is not Ready holds no region, so the others hold all of them. -/
theorem heldByOthers_perm {s : State} {c : Id} (hr : (s.ctx c).ready = false) :
    s.held.Perm (s.heldByOthers c) := by
  have h := held_perm s c
  rwa [Context.regions, hr] at h

/-- The start of a CREATE, and the whole of a DESTROY, keep the invariant and leave the context Uninitialized. -/
theorem State.Inv.release {s : State} (h : s.Inv) (c : Id) :
    (if (s.ctx c).ready then s.release c else s).Inv ∧
      ((if (s.ctx c).ready then s.release c else s).ctx c).ready = false := by
  by_cases hr : (s.ctx c).ready = true
  · rw [if_pos hr]
    refine ⟨h.of_set (X := Context.uninit) rfl rfl rfl rfl (h.accounts.release hr), ?_⟩
    rw [State.ctx_of_set (s := s) (c := c) (X := Context.uninit) rfl, if_pos rfl]
    rfl
  · rw [if_neg hr]
    exact ⟨h, Bool.eq_false_iff.mpr hr⟩

/-- Setting a context after requests at the allocator's port that gave it its regions. -/
theorem State.Inv.setCtx_of_port {s u : State} {c : Id} {X : Context} (h : s.Inv) (hport : PortFrame s u)
    (hX : X.Ok s.cfg) (hacc : Accounts u (X.regions ++ s.heldByOthers c)) : (u.setCtx c X).Inv :=
  h.of_set hport.cfg hport.pmem (by rw [State.setCtx_ctxs, hport.ctxs]) hX (hacc.congr rfl rfl)

/-- The context CREATE derives from a defined colour space is of the form the invariant asks for. -/
theorem createdContext_ok {cfg : Config} {csp : Id} {row : CspRow} (hrow : cfg.cspShift csp = some row) (w h : Dim)
    (b : Bases) : (createdContext csp row w h b).Ok cfg := ⟨hrow, rfl, rfl⟩

/-- CREATE keeps the invariant, whether it gets its three regions or not. -/
theorem State.Inv.createWith {s : State} (h : s.Inv) (c : Id) {csp : Id} {row : CspRow}
    (hrow : s.cfg.cspShift csp = some row) (w hh : Dim) : (s.createWith c csp row w hh).Inv := by
  obtain ⟨v, hs0, hport0⟩ := release_cases s c
  have hcfg0 : (if (s.ctx c).ready then s.release c else s).cfg = s.cfg := by
    rw [hs0]
    exact hport0.cfg
  obtain ⟨hI, hnr⟩ := h.release c
  unfold State.createWith
  dsimp only
  generalize (if (s.ctx c).ready then s.release c else s) = s0 at hI hnr hcfg0 ⊢
  have hport := PortFrame.allocThree s0 (w.toNat * hh.toNat)
    ((chromaWidth row w).toNat * (chromaHeight row hh).toNat)
  have hacc := (hI.accounts.perm (heldByOthers_perm hnr)).allocThree (w.toNat * hh.toNat)
    ((chromaWidth row w).toNat * (chromaHeight row hh).toNat)
  split
  · next b s1 he =>
    rw [he] at hport hacc
    have hregions : Accounts s1 ((createdContext csp row w hh b).regions ++ s0.heldByOthers c) :=
      hacc.perm ((List.reverse_perm (createdContext csp row w hh b).regions).append_right _)
    exact (hI.setCtx_of_port hport (createdContext_ok (hcfg0 ▸ hrow) w hh b) hregions).respond _ _ _
  · next s1 he =>
    rw [he] at hport hacc
    exact (hI.setCtx_of_port (X := Context.uninit) hport rfl hacc).respond _ _ _

/-! ### Checked rectangles lie in their regions -/

/-- Every cell of a rectangle that passed the bounds check is a cell of its plane's region (41_addressing R130). -/
theorem region_contains_of_inBounds {cfg : Config} {X : Context} {p : Plane} {pidx psize : Dim} {e : Extent} {a : Nat}
    (hb : X.inBounds cfg p pidx psize e = true) (ha : X.rectHas cfg p pidx psize e a) :
    (X.region p).contains a = true := by
  obtain ⟨hcol, hrow⟩ := Context.inBounds_iff.mp hb
  obtain ⟨y, hy, x, hx, rfl⟩ := ha
  have hlast : (X.row cfg p pidx psize + y + 1) * (X.pw p).toNat ≤ (X.ph p).toNat * (X.pw p).toNat :=
    Nat.mul_le_mul_right _ (by omega)
  rw [Nat.add_mul, Nat.add_mul, Nat.mul_comm (X.ph p).toNat] at hlast
  rw [Region.contains_iff]
  simp only [Context.region, Context.samples, Context.addr, Context.offset]
  omega

/-- Writing a checked rectangle of a Ready context's plane keeps the invariant. -/
theorem State.Inv.writeRect {s : State} (hI : s.Inv) {c : Id} {p : Plane} {pidx psize : Dim} {e : Extent}
    (hr : (s.ctx c).ready = true) (hb : (s.ctx c).inBounds s.cfg p pidx psize e = true)
    (f : Nat → Nat → Sample) :
    (s.writeR (rectCells ((s.ctx c).addr s.cfg p pidx psize) ((s.ctx c).pw p).toNat e.w e.h f)).Inv := by
  refine hI.writeR fun w hw => ?_
  obtain ⟨y, hy, x, hx, rfl⟩ := mem_rectCells.mp hw
  exact ⟨_, mem_live p hI hr, region_contains_of_inBounds hb ⟨y, hy, x, hx, rfl⟩⟩

/-- CLEAR's zeros to a plane of a Ready context keep it. -/
theorem State.Inv.writeZeros {s : State} (hI : s.Inv) {c : Id} (p : Plane) (hr : (s.ctx c).ready = true) :
    (s.writeR ((s.ctx c).zeroCells p)).Inv :=
  hI.writeR fun _ hw => ⟨_, mem_live p hI hr, Region.contains_iff.mpr (mem_fillCells.mp hw).1⟩

/-! ### One phase keeps the invariant -/

/-- What every phase keeps: the invariant, with the parameters and the context file of the state it began in. -/
structure Keeps (s u : State) : Prop where
  inv : u.Inv
  cfg : u.cfg = s.cfg
  ctxs : u.ctxs = s.ctxs

/-- Phases in sequence. -/
theorem Keeps.trans {s t u : State} (h : Keeps s t) (k : Keeps t u) : Keeps s u :=
  ⟨k.inv, k.cfg.trans h.cfg, k.ctxs.trans h.ctxs⟩

/-- Each context reads as before. -/
theorem Keeps.ctx {s u : State} (h : Keeps s u) (c : Id) : u.ctx c = s.ctx c := by
  simp only [State.ctx, h.ctxs]

/-- Phases that each keep the invariant, from any state with the parameters and contexts of the first, keep it. -/
theorem State.Inv.runPhases {phase : Plane → State → Except Fault State} {ps : List Plane} {s t : State}
    (hI : s.Inv) (hrun : runPhases phase ps s = .ok t)
    (hphase : ∀ p ∈ ps, ∀ u v, Keeps s u → phase p u = .ok v → Keeps u v) : t.Inv := by
  have hkeeps : Keeps s t :=
    runPhases_ok hrun ⟨hI, rfl, rfl⟩ fun p hp u v hu hv => hu.trans (hphase p hp u v hu hv)
  exact hkeeps.inv

section

variable {s t : State} {c : Id} {p : Plane} {pidx psize w h : Dim}

/-- A subtract phase into a checked, non-empty rectangle of a Ready context. -/
theorem subPhase_keeps {a b : Id} (hI : s.Inv) (hr : (s.ctx c).ready = true) (hz : subSizeOk psize = true)
    (hb : (s.ctx c).inBounds s.cfg p pidx psize ((s.ctx c).extent psize psize p) = true)
    (hw : 0 < ((s.ctx c).extent psize psize p).w) (hh : 0 < ((s.ctx c).extent psize psize p).h)
    (hok : subPhase (s.ctx c) a b pidx psize p s = .ok t) : Keeps s t := by
  obtain ⟨dA, dB, hA, hB, hdA, hdB⟩ := subPhase_ok hok
  obtain ⟨hy, hc⟩ := sub_extent hI hr p hz
  rw [subPhase_eq hA hB hdA hdB hy hc, addr32_toNat_of_inBounds hI hr hb hw hh] at hok
  cases hok
  exact ⟨(hI.writeRect hr hb _).congr rfl rfl rfl rfl rfl, rfl, rfl⟩

/-- An add phase into such a rectangle. -/
theorem addPhase_keeps {A B : Context} (hI : s.Inv) (hr : (s.ctx c).ready = true)
    (hb : (s.ctx c).inBounds s.cfg p pidx psize ((s.ctx c).extent psize psize p) = true)
    (hw : 0 < ((s.ctx c).extent psize psize p).w) (hh : 0 < ((s.ctx c).extent psize psize p).h)
    (hok : kinvoke (addRecord s.cfg (s.ctx c) A B p pidx psize) s = .ok t) : Keeps s t := by
  obtain ⟨hrw, hrh⟩ := (s.ctx c).extent_ofNat psize psize p
  rw [addPhase_eq, addr32_toNat_of_inBounds hI hr hb hw hh, hrw, hrh] at hok
  cases hok
  exact ⟨(hI.writeRect hr hb _).congr rfl rfl rfl rfl rfl, rfl, rfl⟩

/-- A raw copy into a checked rectangle of a Ready context. -/
theorem copyRR_keeps {S : Context} (hI : s.Inv) (hr : (s.ctx c).ready = true)
    (hb : (s.ctx c).inBounds s.cfg p pidx psize (S.extent w h p) = true)
    (hok : copyRR S (s.ctx c) pidx psize w h p s = .ok t) : Keeps s t := by
  rcases copyRR_cases S (s.ctx c) pidx psize w h p s with ⟨-, hcopy⟩ | ⟨-, hcopy⟩
  · rw [hcopy] at hok
    cases hok
    exact ⟨hI, rfl, rfl⟩
  · rw [hcopy] at hok
    cases hok
    exact ⟨hI.writeRect hr hb _, rfl, rfl⟩

/-- A narrowing copy: its rectangle is in the pixel plane, so its cells exist, and it truncates to PIXW bits. -/
theorem copyRP_keeps {S : Context} {pb : Id} (hI : s.Inv) (hpos : 0 < (S.extent w h p).w)
    (hok : copyRP S pb pidx psize w h p s = .ok t) : Keeps s t := by
  obtain ⟨d, hd, hholds⟩ := copyRP_ok hok
  obtain ⟨hw, hh⟩ := S.extent_ofNat w h p
  rw [copyRP_eq hd hholds, PixelBuffer.holds_pointer hholds hpos, hw, hh] at hok
  cases hok
  refine ⟨State.Inv.congr (hI.writeP fun e he => ?_) rfl rfl rfl rfl rfl, rfl, rfl⟩
  obtain ⟨y, hy, x, hx, rfl⟩ := State.mem_narrowCells he
  refine ⟨?_, truncTo_lt _ _⟩
  simp only [PixelBuffer.holds, Bool.and_eq_true, decide_eq_true_eq] at hholds
  obtain ⟨-, hlast⟩ := hholds
  have hrow : y * (d.plane p).stride.toNat ≤ ((S.extent w h p).h - 1) * (d.plane p).stride.toNat :=
    Nat.mul_le_mul_right _ (by dsimp only at hy; omega)
  dsimp only at hx ⊢
  omega

end

/-! ### Every step keeps the invariant -/

/-- A command that completes keeps it. -/
theorem Completes.inv {s t : State} {i : Instr} (h : Completes s i t) (hI : s.Inv) : t.Inv := by
  cases h with
  | illegal | rejected | rdctx | addr => exact hI.respond _ _ _
  | create c csp w h row hrow => exact hI.createWith c hrow w h
  | destroy c => exact (hI.release c).1.respond _ _ _
  | clear c hr => exact (((hI.writeZeros .y hr).writeZeros .cb hr).writeZeros .cr hr).respond _ _ _
  | sub c a b pidx psize u hz hr hb hrun =>
    refine (hI.runPhases hrun fun p hp v v' hv hphase => ?_).respond _ _ _
    have hb := State.boundsOk_iff.mp hb p hp
    obtain ⟨hw, hh⟩ := Context.extent_pos hp
    rw [← hv.ctx c] at hr hb hw hh hphase
    rw [← hv.cfg] at hb
    exact subPhase_keeps hv.inv hr hz hb hw hh hphase
  | addclip c a b pidx psize u hr hb hrun =>
    refine (hI.runPhases hrun fun p hp v v' hv hphase => ?_).respond _ _ _
    have hr := hr c (by simp)
    have hb := State.boundsOk_iff.mp (hb c (by simp)) p hp
    obtain ⟨hw, hh⟩ := Context.extent_pos hp
    rw [← hv.ctx c] at hr hb hw hh hphase
    rw [← hv.cfg] at hb
    exact addPhase_keeps hv.inv hr hb hw hh hphase
  | toResidual _ planes c a pidx psize w h u _ hr hb hrun =>
    refine (hI.runPhases hrun fun p hp v v' hv hphase => ?_).respond _ _ _
    have hr := hr a (by simp)
    have hb := State.boundsOk_iff.mp (hb a (by simp)) p hp
    rw [← hv.ctx a] at hr hb hphase
    rw [← hv.cfg] at hb
    exact copyRR_keeps hv.inv hr hb hphase
  | toPixel _ planes c a pidx psize w h u _ _ _ hrun =>
    refine (hI.runPhases hrun fun p hp v v' hv hphase => ?_).respond _ _ _
    exact copyRP_keeps hv.inv (Context.extent_pos hp).1 hphase

/-- A command word, decoded or not, keeps it. -/
theorem runCommand_inv {w : Command} {s t : State} (hI : s.Inv) (h : runCommand w s = .next t) : t.Inv := by
  unfold runCommand at h
  split at h
  · exact (completes_of_exec h).inv hI
  · cases h
    exact hI.respond _ _ _

/-- So does a part of a command word. -/
theorem runPart_inv {w : CommandPart} {s t : State} (hI : s.Inv) (h : runPart w s = .next t) : t.Inv := by
  unfold runPart at h
  split at h
  · cases h
    exact hI.congr rfl rfl rfl rfl rfl
  · cases h
    exact hI.congr rfl rfl rfl rfl rfl
  · have hI' : ({ s with arrived := .none } : State).Inv := hI.congr rfl rfl rfl rfl rfl
    exact runCommand_inv hI' h

/-- Every host move keeps it: a residual write only reaches a live region, a pixel write is truncated, and a reset
leaves nothing. -/
theorem runMove_inv {m : HostMove} {s t : State} {rest : List HostMove} (hI : s.Inv)
    (h : runMove m s rest = .next t) : t.Inv := by
  cases m with
  | command w => exact runCommand_inv (hI.accept rest) h
  | commandPart w => exact runPart_inv (hI.accept rest) h
  | takeResponse =>
    cases h
    exact hI.accept rest
  | writeResidual a v =>
    simp only [runMove] at h
    split at h
    · next howned =>
      cases h
      obtain ⟨c, p, hr, hin⟩ := State.owned_iff.mp howned
      refine State.Inv.congr (hI.writeR (ws := [(a.toNat, v)]) fun e he => ?_) rfl rfl rfl rfl rfl
      rw [List.mem_singleton.mp he]
      exact ⟨_, mem_live p hI hr, hin⟩
    · cases h
  | readResidual a =>
    simp only [runMove] at h
    split at h <;> cases h
    exact hI.congr rfl rfl rfl rfl rfl
  | writePixel a v =>
    cases h
    refine State.Inv.congr (hI.writeP (ws := [(a.toNat, truncTo s.cfg.pixw v)]) fun e he => ?_) rfl rfl rfl rfl rfl
    rw [List.mem_singleton.mp he]
    exact ⟨a.isLt, truncTo_lt _ _⟩
  | setPixelBuffer pb d =>
    cases h
    exact hI.congr rfl rfl rfl rfl rfl
  | reset =>
    cases h
    exact inv_of_uninit rfl rfl rfl rfl

/-- Settles O41: a step is the host's next move (`runMove_inv`), or idleness. -/
theorem everyStepKeepsTheInvariant : Obligations.EveryStepKeepsTheInvariant := by
  intro s t hI h
  unfold step stepMove at h
  split at h
  · cases h
    exact hI
  · exact runMove_inv hI h

end Sys2Proof.Machine
end

section
/-! The memories (spec/20_memory.md): which command writes which (R53 to R55), the allocator's contract (R192), the
rectangles of one phase (R67), and what the other parties do between commands (R54, R66, R191, R229). -/

namespace Sys2Proof.Machine

/-! ### The byte view -/

/-- Settles O52: bytes `2a + 1` and `2a` are the adjacent halves of sample `a`. -/
theorem byteViewIsLittleEndian : Obligations.ByteViewIsLittleEndian := by
  intro s a
  have high : s.residualByte (2 * a + 1) = (s.readR a).extractLsb' 8 8 := by
    rw [State.residualByte, show (2 * a + 1) / 2 = a by omega, show (2 * a + 1) % 2 = 1 by omega]
  have low : s.residualByte (2 * a) = (s.readR a).extractLsb' 0 8 := by
    rw [State.residualByte, show 2 * a / 2 = a by omega, show 2 * a % 2 = 0 by omega]
  rw [high, low, BitVec.extractLsb'_append_extractLsb'_eq_extractLsb' (by rfl)]
  exact BitVec.extractLsb'_eq_self

/-! ### The moves between commands -/

section

variable {s : State} {rest : List HostMove}

/-- A step with no move left is idle. -/
theorem step_of_no_inputs (h : s.inputs = []) : step s = .next s := by
  simp only [step, stepMove, h]

/-- A step with moves left is the first of them. -/
theorem step_of_inputs {m : HostMove} (h : s.inputs = m :: rest) : step s = runMove m s rest := by
  simp only [step, stepMove, h]

/-- A host read of a cell it may reach changes nothing; of any other cell it is a fault. -/
theorem runMove_readResidual (a : Addr) :
    runMove (.readResidual a) s rest =
      if s.owned a.toNat then .next { s with inputs := rest } else .fault .hostAccessOutsideLiveRegion := rfl

/-- A host write of a cell it may reach is that one write; of any other cell it is a fault. -/
theorem runMove_writeResidual (a : Addr) (v : Sample) :
    runMove (.writeResidual a v) s rest =
      if s.owned a.toNat then .next { s with inputs := rest, rmem := s.rmem.write a.toNat v }
      else .fault .hostAccessOutsideLiveRegion := rfl

/-- An address in no Ready context's plane is out of the host's reach. -/
theorem State.owned_eq_false_iff {a : Nat} :
    s.owned a = false ↔ ∀ c p, (s.ctx c).ready = true → ((s.ctx c).region p).contains a = false := by
  simp only [← Bool.not_eq_true, State.owned_iff, not_exists, not_and]

end

/-- Settles O49: the host reaches exactly the owned cells (`State.owned_iff`), and writes one of them. -/
theorem hostReachesReadyRegionsOnly : Obligations.HostReachesReadyRegionsOnly := by
  intro s a v rest
  refine ⟨fun hin => ?_, fun hout hinputs => ?_⟩
  · have howned : s.owned a.toNat = true := State.owned_iff.mpr hin
    refine ⟨fun hread => ?_, fun hwrite => ?_⟩
    · rw [step_of_inputs hread, runMove_readResidual, if_pos howned]
    · rw [step_of_inputs hwrite, runMove_writeResidual, if_pos howned]
      exact ⟨_, rfl, rfl, fun b => (s.rmem.read?_write a.toNat v b).trans (if_congr eq_comm rfl rfl)⟩
  · have hnot : ¬ s.owned a.toNat = true := by
      rw [State.owned_eq_false_iff.mpr hout]
      decide
    rcases hinputs with hread | hwrite
    · rw [step_of_inputs hread, runMove_readResidual, if_neg hnot]
    · rw [step_of_inputs hwrite, runMove_writeResidual, if_neg hnot]

/-- Settles O51: each of these moves is one update of the fields it names. -/
theorem otherMovesTouchOnlyTheirOwn : Obligations.OtherMovesTouchOnlyTheirOwn := by
  intro s rest
  refine ⟨step_of_no_inputs, fun htake => ?_, fun a v hwrite => ?_, fun pb d hset => ?_⟩
  · rw [step_of_inputs htake, runMove, State.takeResponse_eq]
  · exact ⟨_, step_of_inputs hwrite, rfl, fun b =>
      (s.pmem.read?_write a.toNat (truncTo s.cfg.pixw v) b).trans (if_congr eq_comm rfl rfl)⟩
  · exact ⟨_, step_of_inputs hset, rfl, fun q => (s.pbuf_setPbuf pb q d).trans (if_congr eq_comm rfl rfl)⟩

/-! ### The rectangles of one phase -/

/-- Settles O15: a checked rectangle lies in its context's region, and two contexts' regions of one plane are
apart; two rectangles of one context are the same. -/
theorem rectanglesOfOnePhaseCoincideOrAreDisjoint : Obligations.RectanglesOfOnePhaseCoincideOrAreDisjoint := by
  intro s c d p pidx psize e hI hrc hrd hbc hbd
  by_cases hcd : c = d
  · subst hcd
    exact .inl ⟨rfl, rfl⟩
  · refine .inr fun a ⟨hac, had⟩ => ?_
    have hapart := planes_apart (p := p) (q := p) hI hrc hrd fun h => hcd (congrArg Prod.fst h)
    have hout := Region.not_contains_of_disjoint hapart (region_contains_of_inBounds hbc hac)
    rw [region_contains_of_inBounds hbd had] at hout
    cases hout

/-! ### The allocator -/

/-- What a granted request did: the base is one the contract admits, the region is live and its cells are
forgotten. -/
theorem State.alloc_some {s t : State} {n : Nat} {b : Addr} (h : s.alloc n = (some b, t)) :
    s.allocAdmits n b = true ∧ t.live = { base := b, size := n } :: s.live ∧
      t.rmem = s.rmem.forget b.toNat n := by
  rcases s.alloc_cases n with ⟨-, hfail⟩ | ⟨b', -, hadm, hgive⟩
  · rw [hfail] at h
    cases h
  · rw [hgive] at h
    cases h
    exact ⟨hadm, rfl, rfl⟩

/-- A request is granted with the base the allocator says. -/
theorem State.alloc_of_answer_some {s : State} {n : Nat} {b : Addr} (h : s.allocAnswer n = some b) :
    ∃ t, s.alloc n = (some b, t) := by
  rcases s.alloc_cases n with ⟨hno, -⟩ | ⟨b', hans, -, hgive⟩
  · rw [h] at hno
    cases hno
  · rw [h] at hans
    cases hans
    exact ⟨_, hgive⟩

/-- A request fails where the allocator says so, and the record of live regions stays. -/
theorem State.alloc_of_answer_none {s : State} {n : Nat} (h : s.allocAnswer n = none) :
    ∃ t, s.alloc n = (none, t) ∧ t.live = s.live := by
  rcases s.alloc_cases n with ⟨-, hfail⟩ | ⟨b, hans, -, -⟩
  · exact ⟨_, hfail, rfl⟩
  · rw [h] at hans
    cases hans

/-- The contract of R192 in arithmetic: the region fits RMEM and is apart from each live one. -/
theorem State.allocAdmits_iff_arith {s : State} {n : Nat} {b : Addr} :
    s.allocAdmits n b = true ↔ b.toNat + n ≤ 2 ^ 32 ∧
      ∀ q ∈ s.live, n = 0 ∨ q.size = 0 ∨ b.toNat + n ≤ q.base.toNat ∨ q.base.toNat + q.size ≤ b.toNat := by
  simp only [State.allocAdmits_iff, Region.fits, Region.disjoint_iff, spaceSize, decide_eq_true_eq]

/-- Settles O46: a granted base is admitted (`State.alloc_some`), and the script can hold any admitted base, or
failure. -/
theorem allocatorGivesDisjointRegions : Obligations.AllocatorGivesDisjointRegions := by
  refine ⟨fun s t n b hgive => ?_, fun s n => ⟨fun b hfits hapart => ?_, ?_⟩⟩
  · obtain ⟨hadm, hlive, hrmem⟩ := State.alloc_some hgive
    obtain ⟨hfits, hapart⟩ := State.allocAdmits_iff_arith.mp hadm
    refine ⟨hfits, hlive, fun q hq a => ?_, fun a => ?_⟩
    · have := hapart q hq
      omega
    · rw [hrmem, Mem.read?_forget]
      simp only [inRange_iff]
  · have hadm : ({ s with allocScript := [some b] } : State).allocAdmits n b = true :=
      State.allocAdmits_iff_arith.mpr ⟨hfits, hapart⟩
    exact State.alloc_of_answer_some (State.allocAnswer_script rfl hadm)
  · exact State.alloc_of_answer_none rfl

/-! ### Which command writes which memory -/

/-- The host's side of the machine, with the pixel buffers': what no command changes. -/
def State.hostSide (s : State) :
    Vector (Option PixelBuffer) 16 × List HostMove × Arrived × List Response × Nat :=
  (s.pbufs, s.inputs, s.arrived, s.responses, s.pEpoch)

/-- Requests at the allocator's port leave the host's side alone. -/
theorem PortFrame.hostSide_eq {s t : State} (h : PortFrame s t) : t.hostSide = s.hostSide := by
  simp only [State.hostSide, h.pbufs, h.inputs, h.arrived, h.responses, h.pEpoch]

/-- So does every command that completes: CREATE and DESTROY act through that port, the phases of the others on the
memories and the trace. -/
theorem Completes.hostSide_eq {s t : State} {i : Instr} (h : Completes s i t) : t.hostSide = s.hostSide := by
  cases h with
  | illegal | rejected | rdctx | addr | clear => rfl
  | create c csp w h row =>
    obtain ⟨u, X, r, hcreate, hport, -⟩ := createWith_cases s c csp row w h
    rw [hcreate]
    exact hport.hostSide_eq
  | destroy c =>
    obtain ⟨u, hrelease, hport⟩ := release_cases s c
    rw [hrelease]
    exact hport.hostSide_eq
  | sub _ _ _ _ _ u _ _ _ hrun =>
    obtain ⟨m, n, es, rfl⟩ := subPhases_frame hrun
    rfl
  | addclip _ _ _ _ _ u _ _ hrun =>
    obtain ⟨m, n, es, rfl⟩ := addPhases_frame hrun
    rfl
  | toResidual _ _ _ _ _ _ _ _ u _ _ _ hrun =>
    obtain ⟨m, rfl⟩ := copyRR_phases_frame hrun
    rfl
  | toPixel _ _ _ _ _ _ _ _ u _ _ _ hrun =>
    obtain ⟨m, n, es, rfl⟩ := copyRP_phases_frame hrun
    rfl

/-- A Free forgets the cells of its region and no others. -/
theorem State.free_read?_of_notMem {s : State} {b : Addr} {n a : Nat} (h : inRange b.toNat n a = false) :
    (s.free b n).rmem.read? a = s.rmem.read? a := by
  rw [State.free_rmem, Mem.read?_forget, h]
  rfl

/-- The start of a CREATE, and the whole of a DESTROY, forget cells of the context's regions only. -/
theorem release_read?_of_notMem {s : State} {c : Id} {a : Nat}
    (ha : (s.ctx c).regions.any (fun r => r.contains a) = false) :
    (if (s.ctx c).ready then s.release c else s).rmem.read? a = s.rmem.read? a := by
  by_cases hr : (s.ctx c).ready = true
  · simp only [Context.regions, hr, if_true, List.any_cons, List.any_nil, Bool.or_false,
      Bool.or_eq_false_iff] at ha
    obtain ⟨hy, hcb, hcr⟩ := ha
    rw [if_pos hr]
    calc (s.release c).rmem.read? a
        = ((s.free _ _).free _ _).rmem.read? a := State.free_read?_of_notMem hcr
      _ = (s.free _ _).rmem.read? a := State.free_read?_of_notMem hcb
      _ = s.rmem.read? a := State.free_read?_of_notMem hy
  · rw [if_neg hr]

/-- In a state that meets the invariant CREATE forgets cells of the regions its context held only: the regions it is
given hold no known cell. -/
theorem State.Inv.createWith_read? {s : State} (hI : s.Inv) {c : Id} (csp : Id) (row : CspRow) (w h : Dim) {a : Nat}
    (ha : (s.ctx c).regions.any (fun r => r.contains a) = false) :
    (s.createWith c csp row w h).rmem.read? a = s.rmem.read? a := by
  have hthree := (hI.release c).1.accounts.allocThree_read? (w.toNat * h.toNat)
    ((chromaWidth row w).toNat * (chromaHeight row h).toNat) a
  rw [release_read?_of_notMem ha] at hthree
  unfold State.createWith
  dsimp only
  split
  · next hgiven =>
    rw [hgiven] at hthree
    exact hthree
  · next hfailed =>
    rw [hfailed] at hthree
    exact hthree

/-- Settles O44: a rejected command touches no memory, CREATE and DESTROY act through the allocator's port, the
phases of each other command write one memory. -/
theorem commandsReachOnlyTheirMemories : Obligations.CommandsReachOnlyTheirMemories := by
  intro s t i hexec
  have hdone := completes_of_exec hexec
  have hhost := hdone.hostSide_eq
  simp only [State.hostSide, Prod.mk.injEq] at hhost
  refine ⟨?_, hdone.cfg_eq, hhost⟩
  cases hdone with
  | illegal | rejected =>
    cases i with
    | create => exact ⟨rfl, fun _ => .inl rfl, fun _ _ _ => rfl⟩
    | destroy => exact ⟨rfl, fun _ => .inl rfl, fun _ _ => rfl⟩
    | rdctx | addr => exact ⟨rfl, rfl⟩
    | clear | sub | addclip | cpyrl | cpyrc | cpyra | cpypl | cpypc | cpypa => rfl
  | create c csp w h row =>
    have hinv := fun (hI : s.Inv) a => hI.createWith_read? (c := c) (a := a) csp row w h
    obtain ⟨u, X, r, hcreate, hport, -⟩ := createWith_cases s c csp row w h
    rw [hcreate] at hinv ⊢
    exact ⟨hport.pmem, hport.rmem, hinv⟩
  | destroy c =>
    have hrest := fun a => release_read?_of_notMem (s := s) (c := c) (a := a)
    obtain ⟨u, hrelease, hport⟩ := release_cases s c
    rw [hrelease] at hrest ⊢
    exact ⟨hport.pmem, hport.rmem, hrest⟩
  | rdctx | addr => exact ⟨rfl, rfl⟩
  | clear => rfl
  | sub _ _ _ _ _ u _ _ _ hrun =>
    obtain ⟨m, n, es, rfl⟩ := subPhases_frame hrun
    rfl
  | addclip _ _ _ _ _ u _ _ hrun =>
    obtain ⟨m, n, es, rfl⟩ := addPhases_frame hrun
    rfl
  | toResidual _ _ _ _ _ _ _ _ u hi _ _ hrun =>
    obtain ⟨m, rfl⟩ := copyRR_phases_frame hrun
    rcases hi with hi | ⟨cid, hi⟩ | hi <;> cases hi <;> rfl
  | toPixel _ _ _ _ _ _ _ _ u hi _ _ hrun =>
    obtain ⟨m, n, es, rfl⟩ := copyRP_phases_frame hrun
    rcases hi with hi | ⟨cid, hi⟩ | hi <;> cases hi <;> rfl

end Sys2Proof.Machine
end

section
/-! The command word and the response word (spec/30_encoding.md): decode and encode are inverse (R70 to R77), the
opcode table says which words are legal (R72, R76), a command that ends answers one response of R73's form, and the
command port runs the decoded command (R70, R191, R201). -/

namespace Sys2Proof

/-! ### What each check of the decoder lets through -/

/-- A chain of checks succeeds when its first check does and the rest of it does. -/
theorem bind_eq_ok {ε α β : Type} {x : Except ε α} {k : α → Except ε β} {r : β} :
    (x >>= k) = .ok r ↔ ∃ v, x = .ok v ∧ k v = .ok r := by
  cases x <;> simp [bind, Except.bind]

theorem pure_eq_ok {ε α : Type} {v r : α} : (pure v : Except ε α) = .ok r ↔ v = r := by
  simp [pure, Except.pure]

/-- The arm of an opcode, or the arms after it. -/
theorem ite_eq_ok_elim {ε α : Type} {c P : Prop} [Decidable c] {x y : Except ε α} {r : α}
    (hx : c → x = .ok r → P) (hy : y = .ok r → P) (h : (if c then x else y) = .ok r) : P := by
  by_cases hc : c
  · exact hx hc (by rwa [if_pos hc] at h)
  · exact hy (by rwa [if_neg hc] at h)

theorem mustBeZero_eq_ok {n : Nat} {name : String} {v : BitVec n} {u : Unit} :
    mustBeZero name v = .ok u ↔ v = 0 := by
  simp [mustBeZero]

theorem needContext_eq_ok {cfg : Config} {c : Id} {u : Unit} :
    needContext cfg c = .ok u ↔ ctxInRange cfg c = true := by
  simp [needContext]

theorem needCsp_eq_ok {cfg : Config} {code : Id} {u : Unit} :
    needCsp cfg code = .ok u ↔ cspDefined cfg code = true := by
  simp [needCsp]

theorem needSubSize_eq_ok {psize : Dim} {u : Unit} : needSubSize psize = .ok u ↔ subSizeOk psize = true := by
  simp [needSubSize]

/-- `planeOf` and `planeSel` are inverse (41_addressing R133). -/
theorem planeOf_eq_ok {sel : Id} {p : Plane} : planeOf sel = .ok p ↔ sel = planeSel p := by
  revert sel
  cases p <;> decide

/-- `fieldOf` and `fieldSel` are inverse (10_state R23). -/
theorem fieldOf_eq_ok {sel : Id} {f : CtxField} : fieldOf sel = .ok f ↔ sel = fieldSel f := by
  revert sel
  cases f <;> decide

/-! ### Decode and encode are inverse -/

/-- In the word of a well-formed command every check of its opcode's arm succeeds. -/
theorem decode_encode {cfg : Config} {i : Instr} (hwf : i.wf cfg = true) : decode cfg (encode i) = .ok i := by
  unfold decode
  rw [fieldsOf_encode]
  cases i <;> simp only [Instr.wf, Bool.and_eq_true] at hwf <;>
    simp [-bind_pure_comp, fieldsOfInstr, bind_eq_ok, pure_eq_ok, mustBeZero_eq_ok, needContext_eq_ok,
      needCsp_eq_ok, needSubSize_eq_ok, planeOf_eq_ok, fieldOf_eq_ok, hwf]

/-- The checks an arm of the decoder makes give every field of the word: the unused ones are 0, the used ones are
the operands of the command it returns. -/
theorem fieldsOf_eq_of_decode {cfg : Config} {w : Command} {i : Instr} :
    decode cfg w = .ok i → fieldsOf w = fieldsOfInstr i ∧ i.wf cfg = true := by
  unfold decode
  generalize fieldsOf w = f
  obtain ⟨op, ctx, a, b, sel, rsv, height, width, psize, pidx⟩ := f
  refine ite_eq_ok_elim ?create <| ite_eq_ok_elim ?destroy <| ite_eq_ok_elim ?clear <| ite_eq_ok_elim ?rdctx <|
    ite_eq_ok_elim ?addr <| ite_eq_ok_elim ?sub <| ite_eq_ok_elim ?addclip <| ite_eq_ok_elim ?cpyrl <|
    ite_eq_ok_elim ?cpyrc <| ite_eq_ok_elim ?cpyra <| ite_eq_ok_elim ?cpypl <| ite_eq_ok_elim ?cpypc <|
    ite_eq_ok_elim ?cpypa nofun
  all_goals
    simp only [bind_eq_ok, pure_eq_ok, mustBeZero_eq_ok, needContext_eq_ok, needCsp_eq_ok, needSubSize_eq_ok,
      planeOf_eq_ok, fieldOf_eq_ok, exists_and_left, exists_const]
  case create =>
    rintro rfl ⟨rfl, rfl, rfl, rfl, rfl, hctx, hcsp, rfl⟩
    exact ⟨rfl, by simp [Instr.wf, hctx, hcsp]⟩
  case destroy | clear =>
    rintro rfl ⟨rfl, rfl, rfl, rfl, rfl, rfl, rfl, rfl, hctx, rfl⟩
    exact ⟨rfl, hctx⟩
  case rdctx =>
    rintro rfl ⟨rfl, rfl, rfl, rfl, rfl, rfl, rfl, hctx, field, rfl, rfl⟩
    exact ⟨rfl, hctx⟩
  case addr =>
    rintro rfl ⟨rfl, rfl, rfl, rfl, rfl, hctx, plane, rfl, rfl⟩
    exact ⟨rfl, hctx⟩
  case sub =>
    rintro rfl ⟨rfl, rfl, rfl, rfl, hctx, hsize, rfl⟩
    exact ⟨rfl, by simp [Instr.wf, hctx, hsize]⟩
  case addclip =>
    rintro rfl ⟨rfl, rfl, rfl, rfl, hctx, ha, hb, rfl⟩
    exact ⟨rfl, by simp [Instr.wf, hctx, ha, hb]⟩
  case cpyrl | cpyra =>
    rintro rfl ⟨rfl, rfl, rfl, hctx, ha, rfl⟩
    exact ⟨rfl, by simp [Instr.wf, hctx, ha]⟩
  case cpyrc =>
    rintro rfl ⟨rfl, rfl, hctx, ha, rfl⟩
    exact ⟨rfl, by simp [Instr.wf, hctx, ha]⟩
  case cpypl | cpypa =>
    rintro rfl ⟨rfl, rfl, rfl, hctx, rfl⟩
    exact ⟨rfl, hctx⟩
  case cpypc =>
    rintro rfl ⟨rfl, rfl, hctx, rfl⟩
    exact ⟨rfl, hctx⟩

/-- The decoder in one line: the words that decode to `i` are `encode i` alone, and that one when `i` is well
formed. -/
theorem decode_eq_ok_iff {cfg : Config} {w : Command} {i : Instr} :
    decode cfg w = .ok i ↔ encode i = w ∧ i.wf cfg = true := by
  constructor
  · intro h
    obtain ⟨hfields, hwf⟩ := fieldsOf_eq_of_decode h
    exact ⟨command_ext (by rw [fieldsOf_encode, hfields]), hwf⟩
  · rintro ⟨rfl, hwf⟩
    exact decode_encode hwf

/-- Settles O6, by `decode_encode`. -/
theorem decodeOfEncodeIsTheCommand : Obligations.DecodeOfEncodeIsTheCommand :=
  fun _ _ => decode_encode

/-- Settles O7: the fields of a word that decodes are those of its command (`fieldsOf_eq_of_decode`), and a word is
its fields (`command_ext`). -/
theorem encodeOfDecodeIsTheWord : Obligations.EncodeOfDecodeIsTheWord :=
  fun _ _ _ h => (decode_eq_ok_iff.mp h).symm

/-- Settles O9: each word is the encoding of its command, which is well formed. -/
theorem writtenWordsDecode : Obligations.WrittenWordsDecode := by
  refine ⟨?_, ?_, ?_, ?_, ?_, ?_⟩ <;> exact decode_eq_ok_iff.mpr (by decide)

/-! ### The opcode table -/

/-- The bitwise and of each field, as a mask takes it of a word (`fieldsOf_and`). -/
def Fields.and (f g : Fields) : Fields :=
  { op := f.op &&& g.op, ctx := f.ctx &&& g.ctx, a := f.a &&& g.a, b := f.b &&& g.b, sel := f.sel &&& g.sel,
    rsv := f.rsv &&& g.rsv, height := f.height &&& g.height, width := f.width &&& g.width,
    psize := f.psize &&& g.psize, pidx := f.pidx &&& g.pidx }

theorem fieldsOf_and (v w : Command) : fieldsOf (v &&& w) = (fieldsOf v).and (fieldsOf w) := by
  simp [fieldsOf, Fields.and, BitVec.extractLsb'_and]

/-- A word matches a mask and a pattern when its fields do. -/
theorem and_eq_iff_fields {w mask pattern : Command} :
    w &&& mask = pattern ↔ (fieldsOf w).and (fieldsOf mask) = fieldsOf pattern := by
  rw [← fieldsOf_and]
  exact ⟨congrArg fieldsOf, command_ext⟩

/-- The opcode table over fields: which fields each opcode leaves unused, so that they must be 0 (30_encoding R72,
R75). -/
def Fields.MatchesRow (f : Fields) : Prop :=
  (f.op = 0x01 ∧ f.a = 0 ∧ f.b = 0 ∧ f.rsv = 0 ∧ f.psize = 0 ∧ f.pidx = 0) ∨
  (f.op = 0x02 ∧ f.a = 0 ∧ f.b = 0 ∧ f.sel = 0 ∧ f.rsv = 0 ∧ f.height = 0 ∧ f.width = 0 ∧ f.psize = 0 ∧
    f.pidx = 0) ∨
  (f.op = 0x03 ∧ f.a = 0 ∧ f.b = 0 ∧ f.sel = 0 ∧ f.rsv = 0 ∧ f.height = 0 ∧ f.width = 0 ∧ f.psize = 0 ∧
    f.pidx = 0) ∨
  (f.op = 0x04 ∧ f.a = 0 ∧ f.b = 0 ∧ f.rsv = 0 ∧ f.height = 0 ∧ f.width = 0 ∧ f.psize = 0 ∧ f.pidx = 0) ∨
  (f.op = 0x08 ∧ f.a = 0 ∧ f.b = 0 ∧ f.rsv = 0 ∧ f.height = 0 ∧ f.width = 0) ∨
  (f.op = 0x10 ∧ f.sel = 0 ∧ f.rsv = 0 ∧ f.height = 0 ∧ f.width = 0) ∨
  (f.op = 0x11 ∧ f.sel = 0 ∧ f.rsv = 0 ∧ f.height = 0 ∧ f.width = 0) ∨
  (f.op = 0x20 ∧ f.b = 0 ∧ f.sel = 0 ∧ f.rsv = 0) ∨
  (f.op = 0x21 ∧ f.b = 0 ∧ f.rsv = 0) ∨
  (f.op = 0x22 ∧ f.b = 0 ∧ f.sel = 0 ∧ f.rsv = 0) ∨
  (f.op = 0x24 ∧ f.b = 0 ∧ f.sel = 0 ∧ f.rsv = 0) ∨
  (f.op = 0x25 ∧ f.b = 0 ∧ f.rsv = 0) ∨
  (f.op = 0x26 ∧ f.b = 0 ∧ f.sel = 0 ∧ f.rsv = 0)

/-- The masks of opcode_table.json cover exactly the opcode and the unused fields of each row. -/
theorem exists_row_iff {w : Command} :
    (∃ r ∈ Claims.opcodeTable, w &&& r.mask = r.pattern) ↔ (fieldsOf w).MatchesRow := by
  have and_ones4 (v : BitVec 4) : v &&& 0xF#4 = v := BitVec.and_allOnes
  have and_ones8 (v : BitVec 8) : v &&& 0xFF#8 = v := BitVec.and_allOnes
  have and_ones16 (v : BitVec 16) : v &&& 0xFFFF#16 = v := BitVec.and_allOnes
  simp only [Claims.opcodeTable, List.mem_cons, List.not_mem_nil, exists_eq_or_imp, or_false, exists_eq_left,
    and_eq_iff_fields]
  generalize fieldsOf w = f
  simp [fieldsOf, Fields.and, Fields.MatchesRow, and_ones4, and_ones8, and_ones16]

/-- Every command's fields match its row. -/
theorem fieldsOfInstr_matchesRow (i : Instr) : (fieldsOfInstr i).MatchesRow := by
  cases i <;> simp [fieldsOfInstr, Fields.MatchesRow]

/-- A selector up to 2 names a plane (41_addressing R133). -/
theorem exists_planeSel : ∀ {sel : Id}, sel.toNat ≤ 2 → ∃ p ∈ Machine.allPlanes, sel = planeSel p := by
  decide

theorem planeSel_le (p : Plane) : (planeSel p).toNat ≤ 2 := by
  cases p <;> decide

/-- A selector up to 11 names a context field (10_state R23). -/
theorem exists_fieldSel : ∀ {sel : Id}, sel.toNat ≤ 11 → ∃ f ∈ ctxFields, sel = fieldSel f := by
  decide

theorem fieldSel_le (f : CtxField) : (fieldSel f).toNat ≤ 11 := by
  cases f <;> decide

/-- Fields that match a row are those of a command, if RDCTX's and ADDR's selectors name something. -/
theorem Fields.MatchesRow.exists_instr {f : Fields} (h : f.MatchesRow) (hrdctx : f.op = 0x04 → f.sel.toNat ≤ 11)
    (haddr : f.op = 0x08 → f.sel.toNat ≤ 2) : ∃ i, fieldsOfInstr i = f := by
  obtain ⟨op, ctx, a, b, sel, rsv, height, width, psize, pidx⟩ := f
  simp only [Fields.MatchesRow] at h hrdctx haddr
  rcases h with ⟨rfl, rfl, rfl, rfl, rfl, rfl⟩ | ⟨rfl, rfl, rfl, rfl, rfl, rfl, rfl, rfl, rfl⟩ |
    ⟨rfl, rfl, rfl, rfl, rfl, rfl, rfl, rfl, rfl⟩ | ⟨rfl, rfl, rfl, rfl, rfl, rfl, rfl, rfl⟩ |
    ⟨rfl, rfl, rfl, rfl, rfl, rfl⟩ | ⟨rfl, rfl, rfl, rfl, rfl⟩ | ⟨rfl, rfl, rfl, rfl, rfl⟩ |
    ⟨rfl, rfl, rfl, rfl⟩ | ⟨rfl, rfl, rfl⟩ | ⟨rfl, rfl, rfl, rfl⟩ | ⟨rfl, rfl, rfl, rfl⟩ | ⟨rfl, rfl, rfl⟩ |
    ⟨rfl, rfl, rfl, rfl⟩
  · exact ⟨.create ctx sel width height, rfl⟩
  · exact ⟨.destroy ctx, rfl⟩
  · exact ⟨.clear ctx, rfl⟩
  · obtain ⟨field, -, rfl⟩ := exists_fieldSel (hrdctx rfl)
    exact ⟨.rdctx ctx field, rfl⟩
  · obtain ⟨plane, -, rfl⟩ := exists_planeSel (haddr rfl)
    exact ⟨.addr ctx plane pidx psize, rfl⟩
  · exact ⟨.sub ctx a b pidx psize, rfl⟩
  · exact ⟨.addclip ctx a b pidx psize, rfl⟩
  · exact ⟨.cpyrl ctx a pidx psize width height, rfl⟩
  · exact ⟨.cpyrc ctx a sel pidx psize width height, rfl⟩
  · exact ⟨.cpyra ctx a pidx psize width height, rfl⟩
  · exact ⟨.cpypl ctx a pidx psize width height, rfl⟩
  · exact ⟨.cpypc ctx a sel pidx psize width height, rfl⟩
  · exact ⟨.cpypa ctx a pidx psize width height, rfl⟩

/-- The ranges of 30_encoding R76 (c), (d), (e) over fields, in the terms of `Instr.wf`. -/
def Fields.InRange (cfg : Config) (f : Fields) : Prop :=
  ctxInRange cfg f.ctx ∧
    (f.op.toNat ∈ [0x11, 0x20, 0x21, 0x22] → ctxInRange cfg f.a) ∧
    (f.op.toNat = 0x11 → ctxInRange cfg f.b) ∧
    (f.op.toNat = 0x01 → cspDefined cfg f.sel) ∧
    (f.op.toNat = 0x04 → f.sel.toNat ≤ 11) ∧
    (f.op.toNat = 0x08 → f.sel.toNat ≤ 2) ∧
    (f.op.toNat = 0x10 → subSizeOk f.psize)

/-- `rangesOk` reads a word's fields. -/
theorem rangesOk_iff_fields {cfg : Config} {w : Command} :
    Claims.rangesOk cfg w ↔ (fieldsOf w).InRange cfg := by
  simp only [Fields.InRange, ctxInRange, cspDefined, subSizeOk, subSizes, decide_eq_true_eq,
    List.contains_iff_mem, Option.isSome_iff_ne_none]
  exact Iff.rfl

/-- A command's fields are in range exactly when the command is well formed. -/
theorem fieldsOfInstr_inRange {cfg : Config} {i : Instr} : (fieldsOfInstr i).InRange cfg ↔ i.wf cfg = true := by
  cases i <;> simp [fieldsOfInstr, Fields.InRange, Instr.wf, planeSel_le, fieldSel_le, and_assoc]

/-- Settles O8: fields that match a row with selectors in range are those of a command, and the ranges say whether
that command is well formed. -/
theorem legalWordsMatchTheOpcodeTable : Obligations.LegalWordsMatchTheOpcodeTable := by
  intro cfg w
  rw [exists_row_iff, rangesOk_iff_fields]
  simp only [decode_eq_ok_iff]
  constructor
  · rintro ⟨i, rfl, hwf⟩
    rw [fieldsOf_encode]
    exact ⟨fieldsOfInstr_matchesRow i, fieldsOfInstr_inRange.mpr hwf⟩
  · rintro ⟨hrow, hranges⟩
    have ⟨_, _, _, _, hrdctx, haddr, _⟩ := hranges
    obtain ⟨i, hi⟩ := hrow.exists_instr (fun h => hrdctx (congrArg BitVec.toNat h))
      (fun h => haddr (congrArg BitVec.toNat h))
    rw [← hi] at hranges
    exact ⟨i, command_ext (by rw [fieldsOf_encode, hi]), fieldsOfInstr_inRange.mp hranges⟩

end Sys2Proof

namespace Sys2Proof.Machine

/-! ### The response -/

section

variable {s : State} {w : Command}

/-- A word that decodes runs its command. -/
theorem runCommand_of_ok {i : Instr} (h : decode s.cfg w = .ok i) : runCommand w s = exec i s := by
  simp only [runCommand, h]

/-- A word that does not decode is IllegalCommand. -/
theorem runCommand_of_error {e : DecodeError} (h : decode s.cfg w = .error e) :
    runCommand w s = .next { s with respPort := some (errorResponse .illegalCommand) } := by
  simp only [runCommand, h]
  rfl

end

/-- The value and the aux of a command that ends with OK (30_encoding R73). -/
def State.answer (s : State) : Instr → BitVec 32 × BitVec 16
  | .addr c p pidx psize => ((s.ctx c).addr32 s.cfg p pidx psize, (s.ctx c).pw p)
  | .rdctx c f => ((s.ctx c).field f, 0)
  | _ => (0, 0)

/-- What a command that completes presents: an error, or OK with its answer. -/
theorem Completes.respPort_eq {s t : State} {i : Instr} (h : Completes s i t) :
    (∃ e, t.respPort = some (errorResponse e)) ∨
      t.respPort = some (packResponse statusOk (s.answer i).1 (s.answer i).2) := by
  cases h with
  | illegal => exact .inl ⟨.illegalCommand, rfl⟩
  | rejected _ e => exact .inl ⟨e, rfl⟩
  | create c csp w h row =>
    obtain ⟨u, X, r, hcreate, -, ⟨rfl, -⟩ | ⟨rfl, -⟩⟩ := createWith_cases s c csp row w h
    · exact .inr (hcreate ▸ congrArg some okResponse_eq.symm)
    · exact .inl ⟨.allocation, hcreate ▸ congrArg some (by decide)⟩
  | destroy | clear | rdctx | addr | sub | addclip => exact .inr rfl
  | toResidual _ _ _ _ _ _ _ _ u hi | toPixel _ _ _ _ _ _ _ _ u hi =>
    rcases hi with hi | ⟨cid, hi⟩ | hi <;> cases hi <;> exact .inr rfl

/-- The low 48 bits of a response are its aux and its value. -/
theorem extractLsb'_packResponse (st : BitVec 4) (v : BitVec 32) (x : BitVec 16) :
    (packResponse st v x).extractLsb' 0 48 = x ++ v := by
  have hfields : ∀ r : Response, r.extractLsb' 0 48 = responseAux r ++ responseValue r := fun r => by
    rw [responseAux, responseValue, BitVec.extractLsb'_append_extractLsb'_eq_extractLsb' (by rfl)]
  rw [hfields, responseAux_packResponse, responseValue_packResponse]

/-- The fields of an error's response: a code of 1 to 4 and zeros (60_exceptions R200). -/
theorem errorResponse_fields (e : CmdError) :
    responseRsv (errorResponse e) = 0 ∧ (responseStatus (errorResponse e)).toNat ≤ 4 ∧
      responseStatus (errorResponse e) ≠ 0 ∧ (errorResponse e).extractLsb' 0 48 = (0 : BitVec 48) := by
  cases e <;> decide

/-- Settles O10: a word that does not decode presents an error; one that does presents what `Completes.respPort_eq`
says of its command, and no command touches the taken responses (`Completes.hostSide_eq`). -/
theorem everyCommandAnswersOneResponse : Obligations.EveryCommandAnswersOneResponse := by
  intro s t w hrun
  cases hdec : decode s.cfg w with
  | error e =>
    rw [runCommand_of_error hdec] at hrun
    cases hrun
    obtain ⟨hrsv, hle, hne, hlow⟩ := errorResponse_fields .illegalCommand
    exact ⟨rfl, _, rfl, hrsv, hle, fun _ => hlow, fun h => absurd h hne⟩
  | ok i =>
    rw [runCommand_of_ok hdec] at hrun
    have hdone := completes_of_exec hrun
    have hhost := hdone.hostSide_eq
    simp only [State.hostSide, Prod.mk.injEq] at hhost
    obtain ⟨-, -, -, hresponses, -⟩ := hhost
    refine ⟨hresponses, ?_⟩
    rcases hdone.respPort_eq with ⟨e, hport⟩ | hport
    · obtain ⟨hrsv, hle, hne, hlow⟩ := errorResponse_fields e
      exact ⟨_, hport, hrsv, hle, fun _ => hlow, fun h => absurd h hne⟩
    · obtain ⟨hstatus, hrsv, haux, hvalue⟩ := fields_packResponse statusOk (s.answer i).1 (s.answer i).2
      have hlow := extractLsb'_packResponse statusOk (s.answer i).1 (s.answer i).2
      have hzeros : (0 : BitVec 16) ++ (0 : BitVec 32) = (0 : BitVec 48) := rfl
      have hle : (responseStatus (packResponse statusOk (s.answer i).1 (s.answer i).2)).toNat ≤ 4 := by
        rw [hstatus]
        decide
      refine ⟨_, hport, hrsv, hle, fun h => absurd hstatus h, fun _ => ?_⟩
      cases i with
      | addr | rdctx => exact ⟨hvalue, haux⟩
      | create | destroy | clear | sub | addclip | cpyrl | cpyrc | cpyra | cpypl | cpypc | cpypa =>
        exact hlow.trans hzeros

/-! ### The command port -/

/-- The state in which the port has taken a command word or a part of one: the move is gone, the pending response
has been taken (45_external_interfaces R191), and `parts` wait (30_encoding R70). -/
def State.taken (s : State) (rest : List HostMove) (parts : Arrived) : State :=
  { s with
    inputs := rest, arrived := parts, respPort := none, responses := s.responses ++ s.respPort.toList }

/-- `accept` is the taking that leaves the waiting parts alone. -/
theorem State.accept_eq_taken (s : State) (rest : List HostMove) : s.accept rest = s.taken rest s.arrived := by
  rw [State.accept, State.takeResponse_eq]
  rfl

/-- After one taking no response is left for the next to take. -/
theorem State.taken_taken (s : State) (moves rest : List HostMove) (parts parts' : Arrived) :
    (s.taken moves parts).taken rest parts' = s.taken rest parts' := by
  simp [State.taken]

section

variable {s : State} {rest : List HostMove}

/-- A whole word runs in the state in which the port has taken it. -/
theorem step_of_command {w : Command} (h : s.inputs = .command w :: rest) :
    step s = runCommand w (s.taken rest s.arrived) := by
  rw [step_of_inputs h, runMove, State.accept_eq_taken]

/-- The first part of a word waits. -/
theorem step_of_firstPart {w2 : CommandPart} (h : s.inputs = .commandPart w2 :: rest) (ha : s.arrived = .none) :
    step s = .next (s.taken rest (.one w2)) := by
  rw [step_of_inputs h, runMove, State.accept_eq_taken, ha]
  rfl

/-- The second part waits with the first. -/
theorem step_of_secondPart {w2 w1 : CommandPart} (h : s.inputs = .commandPart w1 :: rest)
    (ha : s.arrived = .one w2) : step s = .next (s.taken rest (.two w2 w1)) := by
  rw [step_of_inputs h, runMove, State.accept_eq_taken, ha]
  rfl

/-- The third part completes the word, which runs. -/
theorem step_of_thirdPart {w2 w1 w0 : CommandPart} (h : s.inputs = .commandPart w0 :: rest)
    (ha : s.arrived = .two w2 w1) : step s = runCommand (w2 ++ w1 ++ w0) (s.taken rest .none) := by
  rw [step_of_inputs h, runMove, State.accept_eq_taken, ha]
  rfl

end

/-- A run goes on from the next state of its first step. -/
theorem run_succ_of_step {s t : State} (k : Nat) (h : step s = .next t) : core.run (k + 1) s = core.run k t := by
  have hcore : core.step s = .next t := h
  simp only [Host.Core.run, hcore]

/-- A run of one step is that step. -/
theorem run_one (s : State) : core.run 1 s = step s := by
  simp only [Host.Core.run]
  cases hstep : core.step s <;> exact hstep.symm

/-- Settles O3: the step hands the word to `runCommand`, which runs what it decodes to. -/
theorem stepRunsTheDecodedCommand : Obligations.StepRunsTheDecodedCommand := by
  intro s rest i
  refine ⟨fun w hin hdec => ?_, fun w2 w1 w0 hin harrived hdec => ?_, fun nbits w hdec => ?_⟩
  · exact (step_of_command hin).trans (runCommand_of_ok hdec)
  · exact (step_of_thirdPart hin harrived).trans (runCommand_of_ok hdec)
  · exact (step_of_command (s := s.withFetchWord nbits w) rfl).trans (runCommand_of_ok hdec)

/-- Settles O4: the first two parts wait, the third completes the word, and only the first finds a response to take
(`State.taken_taken`). -/
theorem threePartsMakeOneCommand : Obligations.ThreePartsMakeOneCommand := by
  intro s w2 w1 w0 rest i harrived hin hdec
  have hfirst := step_of_firstPart hin harrived
  have hsecond := step_of_secondPart
    (s := s.taken (.commandPart w1 :: .commandPart w0 :: rest) (.one w2)) rfl rfl
  have hthird := step_of_thirdPart (s := s.taken (.commandPart w0 :: rest) (.two w2 w1)) rfl rfl
  rw [State.taken_taken] at hsecond hthird
  constructor
  · rw [run_succ_of_step 1 hfirst, run_one, hsecond]
    rfl
  · rw [run_succ_of_step 2 hfirst, run_succ_of_step 1 hsecond, run_one, hthird, ← harrived]
    exact runCommand_of_ok hdec

/-- Settles O5: an illegal word presents status 4 alone (`runCommand_of_error`), and so does an ill-formed command
(`exec_illegal`). -/
theorem illegalCommandHasNoEffect : Obligations.IllegalCommandHasNoEffect := by
  have hresp : (0x4000000000000000 : Response) = errorResponse .illegalCommand := by decide
  simp only [Obligations.IllegalCommandHasNoEffect, hresp]
  refine ⟨fun s w rest e hin hdec => ?_, fun s w2 w1 w0 rest e hin harrived hdec => ?_, fun s i hwf => ?_⟩
  · exact (step_of_command hin).trans (runCommand_of_error hdec)
  · exact (step_of_thirdPart hin harrived).trans (runCommand_of_error hdec)
  · exact exec_illegal hwf

end Sys2Proof.Machine
end

section
/-! The lifecycle (spec/40_lifecycle.md): what CREATE, DESTROY and CLEAR do with the three regions of a context (R103 to
R107), and the account a command keeps with the allocator (spec/45_external_interfaces.md R193). -/

namespace Sys2Proof.Machine

/-! ### The cells of a context's regions -/

/-- A read after a fill: the value in the filled run, the old contents elsewhere. -/
theorem Mem.read?_writeAll_fillCells (m : Mem) (b n : Nat) (v : Sample) (a : Nat) :
    (m.writeAll (fillCells b n v)).read? a = if inRange b n a then some v else m.read? a := by
  by_cases ha : inRange b n a = true
  · rw [if_pos ha]
    exact Mem.read?_writeAll_of_mem _ m a v ⟨(a, v), mem_fillCells.mpr ⟨inRange_iff.mp ha, rfl⟩, rfl⟩
      fun e he _ => (mem_fillCells.mp he).2
  · rw [if_neg ha]
    refine Mem.read?_writeAll_of_notMem _ m a fun e he hea => ha (inRange_iff.mpr ?_)
    rw [← hea]
    exact (mem_fillCells.mp he).1

/-- An address is in a region of a Ready context when it is in one of the three planes' regions. -/
theorem Context.regions_any {X : Context} (hr : X.ready = true) (a : Nat) :
    (X.regions.any fun r => r.contains a) =
      ((X.region .y).contains a || ((X.region .cb).contains a || (X.region .cr).contains a)) := by
  simp only [Context.regions, hr, if_true, List.any_cons, List.any_nil, Bool.or_false]

/-- Of three nested choices with one outcome, the outcome is chosen when any of the conditions holds. -/
theorem ite_ite_ite_eq_ite_or {α : Type} (p q r : Bool) (x y : α) :
    (if r then x else if q then x else if p then x else y) = if p || (q || r) then x else y := by
  cases p <;> cases q <;> cases r <;> rfl

/-- Three regions forgotten one after the other: their cells have no value, the other cells keep theirs. -/
theorem Mem.read?_forget_three (m : Mem) (p q r : Region) (a : Nat) :
    (((m.forget p.base.toNat p.size).forget q.base.toNat q.size).forget r.base.toNat r.size).read? a =
      if p.contains a || (q.contains a || r.contains a) then none else m.read? a := by
  simp only [Mem.read?_forget]
  exact ite_ite_ite_eq_ite_or _ _ _ _ _

/-- The zeros of a Ready context's three planes: every cell of its regions is 0, every other keeps its contents. -/
theorem Context.read?_zeroCells {X : Context} (hr : X.ready = true) (m : Mem) (a : Nat) :
    (((m.writeAll (X.zeroCells .y)).writeAll (X.zeroCells .cb)).writeAll (X.zeroCells .cr)).read? a =
      if X.regions.any (fun r => r.contains a) then some 0 else m.read? a := by
  simp only [Context.zeroCells, Mem.read?_writeAll_fillCells]
  rw [Context.regions_any hr]
  exact ite_ite_ite_eq_ite_or _ _ _ _ _

/-- What a release changes: the bank, and by its three Frees the record, the cells and the trace. -/
theorem State.release_eq (s : State) (c : Id) :
    s.release c = { s with
      ctxs := s.ctxs.set c.toNat Context.uninit c.isLt
      rmem := ((s.rmem.forget (s.ctx c).baseY.toNat ((s.ctx c).samples .y)).forget (s.ctx c).baseCb.toNat
        ((s.ctx c).samples .cb)).forget (s.ctx c).baseCr.toNat ((s.ctx c).samples .cr)
      live := ((s.live.erase ((s.ctx c).region .y)).erase ((s.ctx c).region .cb)).erase ((s.ctx c).region .cr)
      rEpoch := s.rEpoch + 3
      trace := s.trace ++ [.free (s.ctx c).baseY ((s.ctx c).samples .y),
        .free (s.ctx c).baseCb ((s.ctx c).samples .cb), .free (s.ctx c).baseCr ((s.ctx c).samples .cr)] } := by
  simp [State.release, State.setCtx, State.free, State.forgetRegion, State.record, Context.region, Context.base]

/-- The release of a Ready context forgets exactly the cells of its regions. -/
theorem State.release_read? {s : State} {c : Id} (hr : (s.ctx c).ready = true) (a : Nat) :
    (s.release c).rmem.read? a =
      if (s.ctx c).regions.any (fun r => r.contains a) then none else s.rmem.read? a := by
  rw [Context.regions_any hr, State.release_eq]
  exact s.rmem.read?_forget_three ((s.ctx c).region .y) ((s.ctx c).region .cb) ((s.ctx c).region .cr) a

/-! ### CLEAR and DESTROY -/

/-- Ending a command with nothing to report presents the response 0. -/
theorem State.done_eq (s : State) : s.done = { s with respPort := some 0 } := by
  rw [← okResponse_eq]
  rfl

/-- What CLEAR does to a Ready context: it writes the zeros of the three planes. -/
theorem exec_clear {s : State} {c : Id} (hc : c.toNat < s.cfg.nctx) (hr : (s.ctx c).ready = true) :
    exec (.clear c) s = .next { s with
      rmem := ((s.rmem.writeAll ((s.ctx c).zeroCells .y)).writeAll ((s.ctx c).zeroCells .cb)).writeAll
        ((s.ctx c).zeroCells .cr)
      respPort := some 0 } := by
  have hwf : (Instr.clear c).wf s.cfg = true := decide_eq_true hc
  show whenLegal (.clear c) s _ = _
  rw [(whenLegal_eq _ _ _).1 hwf, if_pos hr, State.done_eq]
  simp only [State.writeR]

/-- What DESTROY does: it releases a Ready context. -/
theorem exec_destroy {s : State} {c : Id} (hc : c.toNat < s.cfg.nctx) :
    exec (.destroy c) s = .next (if (s.ctx c).ready then s.release c else s).done := by
  have hwf : (Instr.destroy c).wf s.cfg = true := decide_eq_true hc
  exact (whenLegal_eq _ _ _).1 hwf

/-- Settles O21: CLEAR is three fills (`exec_clear`), and a fill is read back where it wrote
(`Context.read?_zeroCells`). -/
theorem clearZeroesTheThreePlanes : Obligations.ClearZeroesTheThreePlanes := by
  intro s c hc hr
  refine ⟨_, exec_clear hc hr, rfl, fun a ha => ?_, fun a ha => ?_⟩
  · exact (Context.read?_zeroCells hr s.rmem a).trans (if_pos ha)
  · exact (Context.read?_zeroCells hr s.rmem a).trans (if_neg (Bool.eq_false_iff.mp ha))

/-- Settles O20: a DESTROY is a release, or nothing (`exec_destroy`). -/
theorem destroyFreesTheThreeRegions : Obligations.DestroyFreesTheThreeRegions := by
  intro s c hc
  rw [exec_destroy hc]
  refine ⟨fun hr => ?_, fun hr => ?_⟩
  · rw [if_neg (Bool.eq_false_iff.mp hr), State.done_eq]
  · rw [if_pos hr]
    have hread := State.release_read? hr
    simp only [State.done_eq, State.release_eq] at hread ⊢
    have hctx := State.ctx_of_set (s := s) (c := c) (X := Context.uninit) (u := { s with ctxs := _ }) rfl
    exact ⟨_, rfl, rfl, (hctx c).trans (if_pos rfl), fun d hd => (hctx d).trans (if_neg hd), rfl, rfl, hread, rfl⟩

/-! ### CREATE: the answer and the frame -/

/-- What a legal CREATE of a defined colour space does. -/
theorem exec_create {s : State} {c csp : Id} {row : CspRow} (w h : Dim) (hc : c.toNat < s.cfg.nctx)
    (hrow : s.cfg.cspShift csp = some row) :
    exec (.create c csp w h) s = .next (s.createWith c csp row w h) := by
  have hwf : (Instr.create c csp w h).wf s.cfg = true := by simp [Instr.wf, ctxInRange, cspDefined, hc, hrow]
  show whenLegal (.create c csp w h) s _ = _
  rw [(whenLegal_eq _ _ _).1 hwf, hrow]

/-- What CREATE leaves alone: the other banks, and every field but the context file, the response, RMEM and the
allocator's own with the trace. -/
theorem State.createWith_frame {s t : State} {c csp : Id} {row : CspRow} {w h : Dim}
    (ht : s.createWith c csp row w h = t) :
    (∀ d, d ≠ c → t.ctx d = s.ctx d) ∧ t = { s with
      ctxs := t.ctxs, respPort := t.respPort, trace := t.trace, live := t.live, allocScript := t.allocScript,
      rmem := t.rmem, allocCount := t.allocCount, rEpoch := t.rEpoch } := by
  obtain ⟨u, X, r, hcreate, hport, -⟩ := createWith_cases s c csp row w h
  obtain ⟨hcfg, hpmem, hpbufs, hinputs, harrived, hresponses, hpEpoch, -, hdraws, -, -⟩ := hport
  rw [← ht, hcreate]
  constructor
  · intro d hd
    rw [State.ctx_of_set (s := s) (c := c) (X := X) rfl, if_neg hd]
  · rw [← hcfg, ← hpmem, ← hpbufs, ← hinputs, ← harrived, ← hresponses, ← hpEpoch, ← hdraws]

/-- Settles O19: a legal CREATE names a defined colour space, and `createWith_cases` says how it ends. -/
theorem createAlwaysAnswers : Obligations.CreateAlwaysAnswers := by
  intro s c csp w h hwf
  simp only [Instr.wf, ctxInRange, cspDefined, Bool.and_eq_true, decide_eq_true_eq, Option.isSome_iff_exists] at hwf
  obtain ⟨hc, row, hrow⟩ := hwf
  obtain ⟨u, X, r, hcreate, -, hans⟩ := createWith_cases s c csp row w h
  refine ⟨_, exec_create w h hc hrow, ?_⟩
  rw [hcreate, State.ctx_of_set (s := s) (c := c) (X := X) rfl, if_pos rfl]
  exact hans.imp (.imp_left (congrArg some)) (.imp_left (congrArg some))

/-! ### CREATE's three requests -/

/-- The state after a request the allocator granted with region `r`. -/
def State.granted (s : State) (r : Region) : State :=
  { s with
    allocScript := s.allocScript.tail, allocCount := s.allocCount + 1,
    trace := s.trace ++ [.alloc r.size (some r.base)], live := r :: s.live,
    rmem := s.rmem.forget r.base.toNat r.size, rEpoch := s.rEpoch + 1 }

/-- A request whose scripted answer the contract admits is granted with it. -/
theorem State.alloc_of_script {s : State} {r : Region} {rest : List (Option Addr)}
    (hscript : s.allocScript = some r.base :: rest) (hfits : r.fits = true)
    (hapart : ∀ q ∈ s.live, r.disjoint q = true) : s.alloc r.size = (some r.base, s.granted r) := by
  have hans := State.allocAnswer_script hscript (State.allocAdmits_iff.mpr ⟨hfits, hapart⟩)
  rcases s.alloc_cases r.size with ⟨hno, -⟩ | ⟨b, hans', -, hgive⟩
  · rw [hans] at hno
    cases hno
  · rw [hans] at hans'
    cases hans'
    exact hgive

/-- What a request adds to the trace and to the record of live regions. -/
theorem State.alloc_trace_live {s t : State} {n : Nat} {o : Option Addr} (h : s.alloc n = (o, t)) :
    t.trace = s.trace ++ [PortEvent.alloc n o] ∧
      t.live = (o.map fun b => Region.mk b n).toList ++ s.live := by
  rcases s.alloc_cases n with ⟨-, hfail⟩ | ⟨b, -, -, hgive⟩
  · rw [hfail] at h
    cases h
    exact ⟨rfl, rfl⟩
  · rw [hgive] at h
    cases h
    exact ⟨rfl, rfl⟩

/-- The four ways CREATE's requests can end: the first failure stops them and what was obtained is freed
(40_lifecycle R103, R104). -/
inductive ThreeRequests (s : State) (nY nC : Nat) : Option Bases × State → Prop
  | firstFails (s1 : State) (h1 : s.alloc nY = (none, s1)) : ThreeRequests s nY nC (none, s1)
  | secondFails (bY : Addr) (s1 s2 : State) (h1 : s.alloc nY = (some bY, s1)) (h2 : s1.alloc nC = (none, s2)) :
      ThreeRequests s nY nC (none, s2.free bY nY)
  | thirdFails (bY bCb : Addr) (s1 s2 s3 : State) (h1 : s.alloc nY = (some bY, s1))
      (h2 : s1.alloc nC = (some bCb, s2)) (h3 : s2.alloc nC = (none, s3)) :
      ThreeRequests s nY nC (none, (s3.free bY nY).free bCb nC)
  | granted (bY bCb bCr : Addr) (s1 s2 s3 : State) (h1 : s.alloc nY = (some bY, s1))
      (h2 : s1.alloc nC = (some bCb, s2)) (h3 : s2.alloc nC = (some bCr, s3)) :
      ThreeRequests s nY nC (some { y := bY, cb := bCb, cr := bCr }, s3)

/-- CREATE's requests end in one of these ways. -/
theorem State.allocThree_cases (s : State) (nY nC : Nat) : ThreeRequests s nY nC (s.allocThree nY nC) := by
  unfold State.allocThree
  split
  · next s1 h1 => exact .firstFails s1 h1
  · next bY s1 h1 =>
    split
    · next s2 h2 => exact .secondFails bY s1 s2 h1 h2
    · next bCb s2 h2 =>
      split
      · next s3 h3 => exact .thirdFails bY bCb s1 s2 s3 h1 h2 h3
      · next bCr s3 h3 => exact .granted bY bCb bCr s1 s2 s3 h1 h2 h3

/-- Three scripted bases the contract admits in their turn are granted: their regions are live and their cells
forgotten. -/
theorem State.allocThree_of_script {s : State} {rY rCb rCr : Region} {rest : List (Option Addr)}
    (hscript : s.allocScript = some rY.base :: some rCb.base :: some rCr.base :: rest)
    (hfits : rY.fits = true ∧ rCb.fits = true ∧ rCr.fits = true)
    (hnew : rCb.disjoint rY = true ∧ rCr.disjoint rCb = true ∧ rCr.disjoint rY = true)
    (hold : ∀ q ∈ s.live, rY.disjoint q = true ∧ rCb.disjoint q = true ∧ rCr.disjoint q = true)
    (hsize : rCr.size = rCb.size) :
    ∃ t, s.allocThree rY.size rCb.size = (some { y := rY.base, cb := rCb.base, cr := rCr.base }, t) ∧
      t.trace = s.trace ++ [PortEvent.alloc rY.size (some rY.base), PortEvent.alloc rCb.size (some rCb.base),
        PortEvent.alloc rCr.size (some rCr.base)] ∧
      t.live = rCr :: rCb :: rY :: s.live ∧ t.allocScript = rest ∧
      ∀ a, t.rmem.read? a =
        if rY.contains a || (rCb.contains a || rCr.contains a) then none else s.rmem.read? a := by
  obtain ⟨hfitsY, hfitsCb, hfitsCr⟩ := hfits
  obtain ⟨hCbY, hCrCb, hCrY⟩ := hnew
  simp only [imp_and, forall_and] at hold
  obtain ⟨holdY, holdCb, holdCr⟩ := hold
  have h1 := State.alloc_of_script hscript hfitsY holdY
  have h2 := State.alloc_of_script (s := s.granted rY) (congrArg List.tail hscript) hfitsCb
    (List.forall_mem_cons.mpr ⟨hCbY, holdCb⟩)
  have h3 := State.alloc_of_script (s := (s.granted rY).granted rCb) (congrArg (·.tail.tail) hscript) hfitsCr
    (List.forall_mem_cons.mpr ⟨hCrCb, List.forall_mem_cons.mpr ⟨hCrY, holdCr⟩⟩)
  rw [hsize] at h3
  exact ⟨((s.granted rY).granted rCb).granted rCr, by simp only [State.allocThree, h1, h2, h3],
    by simp [State.granted], rfl, congrArg (·.tail.tail.tail) hscript, s.rmem.read?_forget_three rY rCb rCr⟩

/-- Failed requests leave the record of live regions as it was, and the trace is one of the three sequences of
R103. -/
theorem ThreeRequests.failed {s t : State} {nY nC : Nat} (h : ThreeRequests s nY nC (none, t)) :
    t.live = s.live ∧ ∃ bY bCb : Addr,
      (t.trace = s.trace ++ [PortEvent.alloc nY none] ∨
        t.trace = s.trace ++ [PortEvent.alloc nY (some bY), PortEvent.alloc nC none, PortEvent.free bY nY] ∨
        t.trace = s.trace ++ [PortEvent.alloc nY (some bY), PortEvent.alloc nC (some bCb), PortEvent.alloc nC none,
          PortEvent.free bY nY, PortEvent.free bCb nC]) := by
  cases h with
  | firstFails _ h1 =>
    obtain ⟨ht1, hl1⟩ := State.alloc_trace_live h1
    exact ⟨hl1, 0, 0, .inl ht1⟩
  | secondFails bY s1 s2 h1 h2 =>
    obtain ⟨ht1, hl1⟩ := State.alloc_trace_live h1
    obtain ⟨ht2, hl2⟩ := State.alloc_trace_live h2
    refine ⟨?_, bY, 0, .inr (.inl ?_)⟩
    · simp [hl2, hl1]
    · simp [ht2, ht1]
  | thirdFails bY bCb s1 s2 s3 h1 h2 h3 =>
    obtain ⟨ht1, hl1⟩ := State.alloc_trace_live h1
    obtain ⟨ht2, hl2⟩ := State.alloc_trace_live h2
    obtain ⟨ht3, hl3⟩ := State.alloc_trace_live h3
    refine ⟨?_, bY, bCb, .inr (.inr ?_)⟩
    · rw [State.free_live, State.free_live, List.erase_comm]
      simp [hl3, hl2, hl1]
    · simp [ht3, ht2, ht1]

/-! ### CREATE, granted and failed -/

section

variable {s s0 s1 : State} {c csp : Id} {row : CspRow} {w h : Dim}

/-- CREATE after the release of what its context held, its requests granted. -/
theorem State.createWith_of_granted {b : Bases} (hs0 : s0 = if (s.ctx c).ready then s.release c else s)
    (h3 : s0.allocThree (w.toNat * h.toNat) ((chromaWidth row w).toNat * (chromaHeight row h).toNat) =
      (some b, s1)) :
    s.createWith c csp row w h = (s1.setCtx c (createdContext csp row w h b)).done := by
  simp only [State.createWith, ← hs0, h3]

/-- CREATE after the release of what its context held, one of its requests failed. -/
theorem State.createWith_of_failed (hs0 : s0 = if (s.ctx c).ready then s.release c else s)
    (h3 : s0.allocThree (w.toNat * h.toNat) ((chromaWidth row w).toNat * (chromaHeight row h).toNat) =
      (none, s1)) :
    s.createWith c csp row w h = (s1.setCtx c Context.uninit).respond CmdError.allocation.code 0 0 := by
  simp only [State.createWith, ← hs0, h3]

/-- A release makes no request, so the allocator's coming answers stay. -/
theorem allocScript_of_release (hs0 : s0 = if (s.ctx c).ready then s.release c else s) :
    s0.allocScript = s.allocScript := by
  rw [hs0]
  split
  · rw [State.release_eq]
  · rfl

end

/-- Settles O18: `ThreeRequests.failed` says what the failed requests leave; in a state that meets the invariant they
forget no known cell (`Accounts.allocThree_read?`). -/
theorem createFailureLeavesTheContextUninitialized : Obligations.CreateFailureLeavesTheContextUninitialized := by
  intro s s0 c csp w h row hc hrow hs0 hfail
  obtain ⟨s1, h3⟩ : ∃ s1, s0.allocThree (w.toNat * h.toNat)
      ((chromaWidth row w).toNat * (chromaHeight row h).toNat) = (none, s1) := ⟨_, Prod.ext hfail rfl⟩
  have hcases := s0.allocThree_cases (w.toNat * h.toNat) ((chromaWidth row w).toNat * (chromaHeight row h).toNat)
  have hport := PortFrame.allocThree s0 (w.toNat * h.toNat)
    ((chromaWidth row w).toNat * (chromaHeight row h).toNat)
  rw [h3] at hcases hport
  obtain ⟨hlive, bY, bCb, htrace⟩ := hcases.failed
  have hcreate := State.createWith_of_failed (csp := csp) hs0 h3
  obtain ⟨hother, hframe⟩ := State.createWith_frame hcreate
  refine ⟨_, (exec_create w h hc hrow).trans (congrArg _ hcreate), congrArg some (by decide),
    State.ctx_setCtx_self _ _ _, hother, hlive, ⟨_, _, bY, bCb, rfl, rfl, htrace⟩, fun hI a => ?_, hport.rmem, hframe⟩
  have hkept := (hI.release c).1.accounts.allocThree_read? (w.toNat * h.toNat)
    ((chromaWidth row w).toNat * (chromaHeight row h).toNat) a
  rw [← hs0, h3] at hkept
  exact hkept

/-- Settles O17: the release leaves the allocator's script alone, and the contract admits the three scripted bases in
their turn (`State.allocThree_of_script`). -/
theorem createMakesTheContextReady : Obligations.CreateMakesTheContextReady := by
  intro s s0 c csp w h row bY bCb bCr rest hc hrow hs0 hscript cw ch hcw hch rY rCb rCr hrY hrCb hrCr hfits hnew hold
  subst hcw hch hrY hrCb hrCr
  obtain ⟨s1, hthree, htrace, hlive, hscript, hread⟩ := State.allocThree_of_script
    ((allocScript_of_release hs0).trans hscript) hfits hnew hold rfl
  have hcreate := State.createWith_of_granted (csp := csp) hs0 hthree
  obtain ⟨hother, hframe⟩ := State.createWith_frame hcreate
  refine ⟨_, (exec_create w h hc hrow).trans (congrArg _ hcreate), congrArg State.respPort (State.done_eq _), ?_,
    hother, htrace, hlive, hscript, fun a ha => ?_, fun a ha => ?_, hframe⟩
  · rw [State.done_ctx, State.ctx_setCtx_self]
    rfl
  · rw [Bool.or_assoc] at ha
    exact (hread a).trans (if_pos ha)
  · rw [Bool.or_assoc] at ha
    exact (hread a).trans (if_neg (Bool.eq_false_iff.mp ha))

/-! ### The account a command keeps with the allocator -/

/-- A trace in two parts is replayed part by part. -/
theorem replay_append {live live' : List Region} {es fs : List PortEvent} (h : replay live es = some live') :
    replay live (es ++ fs) = replay live' fs := by
  induction es generalizing live with
  | nil =>
    cases h
    rfl
  | cons e es ih =>
    cases e with
    | alloc n o => cases o <;> exact ih h
    | free b n =>
      simp only [replay, List.cons_append] at h ⊢
      split at h
      · next hmem => rw [if_pos hmem, ih h]
      · cases h
    | pixAddr | kinvoke => exact ih h

/-- The port requests from `s` to `t`, replayed on the allocator's record, lead from its record in `s` to that in
`t`. -/
def Replays (s t : State) : Prop := ∃ new, t.trace = s.trace ++ new ∧ replay s.live new = some t.live

/-- No request: the trace and the record are as before. -/
theorem Replays.of_eq {s t : State} (htrace : t.trace = s.trace) (hlive : t.live = s.live) : Replays s t :=
  ⟨[], by simp [htrace], by simp [replay, hlive]⟩

/-- Requests in sequence. -/
theorem Replays.trans {s t u : State} (h : Replays s t) (k : Replays t u) : Replays s u := by
  obtain ⟨es, htrace, hlive⟩ := h
  obtain ⟨fs, htrace', hlive'⟩ := k
  exact ⟨es ++ fs, by rw [htrace', htrace, List.append_assoc], by rw [replay_append hlive, hlive']⟩

/-- A request of the pixel-buffer port or the kernel port is no business of the allocator's. -/
theorem Replays.of_other {s t : State} {e : PortEvent} (he : ∀ live, replay live [e] = some live)
    (htrace : t.trace = s.trace ++ [e]) (hlive : t.live = s.live) : Replays s t :=
  ⟨[e], htrace, by rw [he, hlive]⟩

/-- An Alloc, granted or not. -/
theorem Replays.alloc {s t : State} {n : Nat} {o : Option Addr} (h : s.alloc n = (o, t)) : Replays s t := by
  obtain ⟨htrace, hlive⟩ := State.alloc_trace_live h
  refine ⟨_, htrace, ?_⟩
  cases o <;> exact congrArg some hlive.symm

/-- A Free of a live region. -/
theorem Replays.free {s : State} {b : Addr} {n : Nat} (h : { base := b, size := n } ∈ s.live) :
    Replays s (s.free b n) :=
  ⟨_, s.free_trace b n, by rw [replay, if_pos h]; rfl⟩

/-- A Free of a region the account lists. -/
theorem Accounts.replays_free {s : State} {hs : List Region} {b : Addr} {n : Nat}
    (h : Accounts s ({ base := b, size := n } :: hs)) : Replays s (s.free b n) :=
  .free (h.mem_live List.mem_cons_self)

/-- A query of the pixel-buffer port. -/
theorem Replays.pixAddr {pb : Id} {p : Plane} {pidx psize : Dim} {e : Extent} {s t : State} {q : Addr × Dim}
    (h : pixAddr pb p pidx psize e s = .ok (q, t)) : Replays s t := by
  obtain ⟨d, -, -, -, rfl⟩ := pixAddr_ok.mp h
  exact .of_other (fun _ => rfl) (State.record_trace _ _) rfl

/-- A kernel run. -/
theorem Replays.kinvoke {r : KRecord} {s t : State} (h : kinvoke r s = .ok t) : Replays s t := by
  unfold Machine.kinvoke at h
  rcases runKernel_cases r (s.record (.kinvoke r)) with ⟨ws, hrun⟩ | ⟨ws, hrun⟩ | hrun <;> rw [hrun] at h <;> cases h
  · exact .of_other (e := .kinvoke r) (fun _ => rfl) rfl rfl
  · exact .of_other (e := .kinvoke r) (fun _ => rfl) rfl rfl

/-- A subtract phase makes two queries and a kernel run. -/
theorem Replays.subPhase {T : Context} {a b : Id} {pidx psize : Dim} {p : Plane} {s t : State}
    (h : subPhase T a b pidx psize p s = .ok t) : Replays s t := by
  unfold Machine.subPhase at h
  dsimp only at h
  split at h
  · cases h
  · next hqa =>
    split at h
    · cases h
    · next hqb => exact ((Replays.pixAddr hqa).trans (.pixAddr hqb)).trans (.kinvoke h)

/-- A narrowing copy makes a query and a kernel run. -/
theorem Replays.copyRP {S : Context} {pb : Id} {pidx psize w h : Dim} {p : Plane} {s t : State}
    (hok : copyRP S pb pidx psize w h p s = .ok t) : Replays s t := by
  unfold Machine.copyRP at hok
  split at hok
  · cases hok
  · next hq => exact (Replays.pixAddr hq).trans (.kinvoke hok)

/-- Phases whose requests each replay. -/
theorem Replays.runPhases {phase : Plane → State → Except Fault State} {ps : List Plane} {s t : State}
    (hrun : runPhases phase ps s = .ok t) (hphase : ∀ p u v, phase p u = .ok v → Replays u v) : Replays s t :=
  runPhases_ok hrun (.of_eq rfl rfl) fun p _ u v hu hv => hu.trans (hphase p u v hv)

/-- The release of a Ready context frees the three regions the account lists first. -/
theorem State.Inv.replays_release {s : State} (hI : s.Inv) (c : Id) :
    Replays s (if (s.ctx c).ready then s.release c else s) := by
  by_cases hr : (s.ctx c).ready = true
  · rw [if_pos hr]
    have hacc := hI.accounts.perm (held_perm s c)
    simp only [Context.regions, hr, if_true, List.cons_append, List.nil_append] at hacc
    exact ((hacc.replays_free.trans hacc.free.replays_free).trans hacc.free.free.replays_free).trans (.of_eq rfl rfl)
  · rw [if_neg hr]
    exact .of_eq rfl rfl

/-- CREATE's three requests free only what they obtained: what has been obtained is live until it is freed. -/
theorem ThreeRequests.replays {s : State} {nY nC : Nat} {r : Option Bases × State} (h : ThreeRequests s nY nC r) :
    Replays s r.2 := by
  cases h with
  | firstFails s1 h1 => exact .alloc h1
  | secondFails bY s1 s2 h1 h2 =>
    obtain ⟨-, hl1⟩ := State.alloc_trace_live h1
    obtain ⟨-, hl2⟩ := State.alloc_trace_live h2
    have hY : { base := bY, size := nY } ∈ s2.live := by simp [hl2, hl1]
    exact ((Replays.alloc h1).trans (.alloc h2)).trans (.free hY)
  | thirdFails bY bCb s1 s2 s3 h1 h2 h3 =>
    obtain ⟨-, hl1⟩ := State.alloc_trace_live h1
    obtain ⟨-, hl2⟩ := State.alloc_trace_live h2
    obtain ⟨-, hl3⟩ := State.alloc_trace_live h3
    have hlive : s3.live = { base := bCb, size := nC } :: { base := bY, size := nY } :: s.live := by
      simp [hl3, hl2, hl1]
    have hY : { base := bY, size := nY } ∈ s3.live := by simp [hlive]
    have hCb : { base := bCb, size := nC } ∈ (s3.free bY nY).live := by
      rw [State.free_live, hlive, List.Perm.mem_iff (List.Perm.erase _ (List.Perm.swap _ _ _)), List.erase_cons_head]
      exact List.mem_cons_self
    exact ((((Replays.alloc h1).trans (.alloc h2)).trans (.alloc h3)).trans (.free hY)).trans (.free hCb)
  | granted _ _ _ _ _ _ h1 h2 h3 => exact ((Replays.alloc h1).trans (.alloc h2)).trans (.alloc h3)

/-- CREATE frees what its context held and then makes its three requests. -/
theorem State.Inv.replays_createWith {s : State} (hI : s.Inv) (c csp : Id) (row : CspRow) (w h : Dim) :
    Replays s (s.createWith c csp row w h) := by
  refine (hI.replays_release c).trans ?_
  generalize hs0 : (if (s.ctx c).ready then s.release c else s) = s0
  have hthree := (s0.allocThree_cases (w.toNat * h.toNat)
    ((chromaWidth row w).toNat * (chromaHeight row h).toNat)).replays
  rcases hreq : s0.allocThree (w.toNat * h.toNat) ((chromaWidth row w).toNat * (chromaHeight row h).toNat)
    with ⟨_ | b, s1⟩ <;> rw [hreq] at hthree
  · rw [State.createWith_of_failed hs0.symm hreq]
    exact hthree.trans (.of_eq rfl rfl)
  · rw [State.createWith_of_granted hs0.symm hreq]
    exact hthree.trans (.of_eq rfl rfl)

/-- Settles O45: CREATE and DESTROY free regions that are live in their turn, and the phases of the other commands ask
the allocator for nothing. -/
theorem freesNameLiveRegions : Obligations.FreesNameLiveRegions := by
  intro s t i hI hexec
  suffices Replays s t from this
  cases completes_of_exec hexec with
  | illegal | rejected | rdctx | addr => exact .of_eq rfl rfl
  | clear => exact .of_eq (by simp) (by simp)
  | create c csp w h row => exact hI.replays_createWith c csp row w h
  | destroy c => exact (hI.replays_release c).trans (.of_eq rfl rfl)
  | sub _ _ _ _ _ u _ _ _ hrun => exact (Replays.runPhases hrun fun _ _ _ => .subPhase).trans (.of_eq rfl rfl)
  | addclip _ _ _ _ _ u _ _ hrun => exact (Replays.runPhases hrun fun _ _ _ => .kinvoke).trans (.of_eq rfl rfl)
  | toResidual _ _ _ _ _ _ _ _ u _ _ _ hrun =>
    obtain ⟨m, rfl⟩ := copyRR_phases_frame hrun
    exact .of_eq rfl rfl
  | toPixel _ _ _ _ _ _ _ _ u _ _ _ hrun =>
    exact (Replays.runPhases hrun fun _ _ _ => .copyRP).trans (.of_eq rfl rfl)

end Sys2Proof.Machine
end

section
/-! The address unit (spec/41_addressing.md): the reference PARTMAP (R123), the Pixel Buffer's coordinates (R135),
checked rectangles in their regions (R130), ADDR (R133), and the commands with nothing to do (R128 c, 44_copy R175 a). -/

open Sys2Proof.Claims

namespace Sys2Proof.Machine

/-! ### The reference PARTMAP -/

section

variable {cfg : Config} {g : Nat} (pidx psize : Dim)

/-- The row of the raster of R123. -/
theorem rowOf_raster (h : cfg.partMap = .raster g) :
    rowOf cfg pidx psize = pidx.toNat * psize.toNat / g * psize.toNat := by
  rw [rowOf, h]

/-- The column of the raster of R123. -/
theorem colOf_raster (h : cfg.partMap = .raster g) : colOf cfg pidx psize = pidx.toNat * psize.toNat % g := by
  rw [colOf, h]

end

/-- Settles O11: the raster's two formulas (`rowOf_raster`, `colOf_raster`); where the size divides the grid's width it
cancels from the quotient and factors out of the remainder. -/
theorem referenceMapIsTheRaster : Obligations.ReferenceMapIsTheRaster := by
  refine ⟨fun cfg g pidx psize hmap => ?_, rfl, by decide⟩
  rw [rowOf_raster pidx psize hmap, colOf_raster pidx psize hmap]
  refine ⟨rfl, rfl, ?zero, ?divides⟩
  case zero =>
    rintro rfl -
    simp
  case divides =>
    rintro n hpos rfl
    rw [Nat.mul_div_mul_right _ _ hpos, Nat.mul_mod_mul_right]
    exact ⟨rfl, rfl⟩

/-! ### The Pixel Buffer's coordinates -/

/-- A pixel buffer's row is the luma row by its vertical shift, as a context's row is (45_external_interfaces R189). -/
theorem PixelBuffer.row_eq {X : Context} {d : PixelBuffer} (h : d.vShift = X.vshift) (cfg : Config) (p : Plane)
    (pidx psize : Dim) : d.row cfg p pidx psize = X.row cfg p pidx psize := by
  cases p with
  | y => rfl
  | cb | cr => exact congrArg (fun k : BitVec 2 => rowOf cfg pidx psize >>> k.toNat) h

/-- A pixel buffer's column is the luma column by its horizontal shift, as a context's column is
(45_external_interfaces R189). -/
theorem PixelBuffer.col_eq {X : Context} {d : PixelBuffer} (h : d.hShift = X.hshift) (cfg : Config) (p : Plane)
    (pidx psize : Dim) : d.col cfg p pidx psize = X.col cfg p pidx psize := by
  cases p with
  | y => rfl
  | cb | cr => exact congrArg (fun k : BitVec 2 => colOf cfg pidx psize >>> k.toNat) h

/-- Settles O14: both sides shift PARTMAP's row and column, chroma by equal shifts. -/
theorem pixelBufferAddressesTheSameCoordinates : Obligations.PixelBufferAddressesTheSameCoordinates :=
  fun cfg _ _ p pidx psize hh hv => ⟨PixelBuffer.row_eq hv cfg p pidx psize, PixelBuffer.col_eq hh cfg p pidx psize⟩

/-! ### Checked rectangles -/

/-- Settles O12: the region of a plane runs from its base for its sample count, and holds every cell of a checked
rectangle (`region_contains_of_inBounds`). -/
theorem inBoundsRectangleLiesInItsRegion : Obligations.InBoundsRectangleLiesInItsRegion :=
  fun _ _ _ _ _ _ _ hb ha => Region.contains_iff.mp (region_contains_of_inBounds hb ha)

/-! ### ADDR -/

/-- ADDR's point check: row and column lie in the plane (41_addressing R133). -/
theorem Context.hasPoint_iff {cfg : Config} {X : Context} {p : Plane} {pidx psize : Dim} :
    X.hasPoint cfg p pidx psize = true ↔
      X.row cfg p pidx psize < (X.ph p).toNat ∧ X.col cfg p pidx psize < (X.pw p).toNat := by
  simp [Context.hasPoint]

/-- What ADDR does for a point of a Ready context's plane: it answers the address and the stride. -/
theorem exec_addr {s : State} {c : Id} {p : Plane} {pidx psize : Dim} (hc : c.toNat < s.cfg.nctx)
    (hr : (s.ctx c).ready = true) (hp : (s.ctx c).hasPoint s.cfg p pidx psize = true) :
    exec (.addr c p pidx psize) s =
      .next (s.respond statusOk ((s.ctx c).addr32 s.cfg p pidx psize) ((s.ctx c).pw p)) := by
  have hwf : (Instr.addr c p pidx psize).wf s.cfg = true := decide_eq_true hc
  show whenLegal (.addr c p pidx psize) s _ = _
  rw [(whenLegal_eq _ _ _).1 hwf, if_pos hr, if_pos hp]

/-- Settles O16: ADDR answers the 32-bit address (`exec_addr`), which for a point of the plane is the exact one
(`addr32_toNat`). -/
theorem addrAnswersTheAddress : Obligations.AddrAnswersTheAddress := by
  intro s c p pidx psize hI hc hr hrow hcol
  refine ⟨(s.ctx c).addr32 s.cfg p pidx psize, ?_, exec_addr hc hr (Context.hasPoint_iff.mpr ⟨hrow, hcol⟩)⟩
  rw [addr32_toNat hI hr hrow hcol, Nat.add_assoc]
  rfl

/-! ### The commands with nothing to do -/

section

variable {s : State} {c a : Id} {pidx psize w h : Dim}

/-- A residual-to-residual copy with an empty active plan is done at once: no bounds check, no phase
(44_copy R162, R175 a). -/
theorem copyToResidual_of_empty_plan {planes : List Plane} (hc : (s.ctx c).ready = true)
    (ha : (s.ctx a).ready = true) (hplan : (s.ctx c).plan planes w h = []) :
    copyToResidual planes c a pidx psize w h s = .next s.done := by
  simp [copyToResidual, hc, ha, hplan, runPhases, finish]

/-- So is a residual-to-pixel copy: it asks the pixel buffer for no address. -/
theorem copyToPixel_of_empty_plan {planes : List Plane} (hc : (s.ctx c).ready = true)
    (hplan : (s.ctx c).plan planes w h = []) : copyToPixel planes c a pidx psize w h s = .next s.done := by
  simp [copyToPixel, hc, hplan, runPhases, finish]

/-- So is a legal ADDCLIP all of whose phases are skipped or empty (41_addressing R128 c). -/
theorem exec_addclip_of_empty_plan {b : Id} (hwf : (Instr.addclip c a b pidx psize).wf s.cfg = true)
    (hc : (s.ctx c).ready = true) (ha : (s.ctx a).ready = true) (hb : (s.ctx b).ready = true)
    (hplan : (s.ctx c).plan allPlanes psize psize = []) :
    exec (.addclip c a b pidx psize) s = .next s.done := by
  show whenLegal (.addclip c a b pidx psize) s _ = _
  rw [(whenLegal_eq _ _ _).1 hwf]
  simp [hc, ha, hb, hplan, runPhases, finish]

end

/-- Settles O38: each of the seven commands is done at once when its plan is empty (`exec_addclip_of_empty_plan`,
`copyToResidual_of_empty_plan`, `copyToPixel_of_empty_plan`); no other command has a plan in the premise. -/
theorem emptyPlanIsANoOp : Obligations.EmptyPlanIsANoOp := by
  intro s i hwf hready hplan
  rw [← State.done_eq]
  cases i with
  | addclip c a b pidx psize =>
    simp only [needsReady, List.forall_mem_cons] at hready
    obtain ⟨hc, ha, hb, -⟩ := hready
    exact exec_addclip_of_empty_plan hwf hc ha hb hplan
  | cpyrl | cpyrc | cpyra =>
    simp only [needsReady, List.forall_mem_cons] at hready
    obtain ⟨hc, ha, -⟩ := hready
    exact ((whenLegal_eq _ _ _).1 hwf).trans (copyToResidual_of_empty_plan hc ha hplan)
  | cpypl | cpypc | cpypa =>
    simp only [needsReady, List.forall_mem_cons] at hready
    obtain ⟨hc, -⟩ := hready
    exact ((whenLegal_eq _ _ _).1 hwf).trans (copyToPixel_of_empty_plan hc hplan)
  | create | destroy | clear | rdctx | addr | sub => exact hplan.elim

end Sys2Proof.Machine
end

section
/-! SUB and its inverse ADDCLIP (spec/42_subtract.md, spec/43_addclip.md): the samples their phases store (R145, R154),
their port requests (R141 to R143, R151, R152, R181), and the round trip through both (R156). -/

namespace Sys2Proof.Machine

/-! ### The cells a command addresses -/

/-- The RMEM address of row `y` and column `x` of the addressed rectangle of plane `p` of `X` (41_addressing R129). -/
abbrev Context.cell (cfg : Config) (X : Context) (p : Plane) (pidx psize : Dim) (y x : Nat) : Nat :=
  X.addr cfg p pidx psize + y * (X.pw p).toNat + x

/-- The PMEM address of row `y` and column `x` at the pointer a pixel buffer answers (45_external_interfaces R189). -/
abbrev PixelBuffer.cell (cfg : Config) (d : PixelBuffer) (p : Plane) (pidx psize : Dim) (y x : Nat) : Nat :=
  d.pointer cfg p pidx psize + y * (d.plane p).stride.toNat + x

/-- The planes of `T` that SUB and ADDCLIP work on (41_addressing R128). -/
abbrev Context.squarePlan (T : Context) (psize : Dim) : List Plane := T.plan allPlanes psize psize

/-- A cell of a checked rectangle lies in its plane's region. -/
theorem region_contains_cell {cfg : Config} {X : Context} {p : Plane} {pidx psize : Dim} {e : Extent} {y x : Nat}
    (hb : X.inBounds cfg p pidx psize e = true) (hy : y < e.h) (hx : x < e.w) :
    (X.region p).contains (X.cell cfg p pidx psize y x) = true :=
  region_contains_of_inBounds hb ⟨y, hy, x, hx, rfl⟩

/-- A cell of plane `p` of a Ready context is in no checked rectangle of another plane (10_state R32). -/
theorem not_rectHas_of_region {s : State} {c k : Id} {p q : Plane} {pidx psize : Dim} {e : Extent} {adr : Nat}
    (hI : s.Inv) (hc : (s.ctx c).ready = true) (hb : (s.ctx c).inBounds s.cfg q pidx psize e = true)
    (hk : (s.ctx k).ready = true) (hin : ((s.ctx k).region p).contains adr = true) (hne : (k, p) ≠ (c, q)) :
    ¬ (s.ctx c).rectHas s.cfg q pidx psize e adr := by
  intro hrect
  have hout := Region.not_contains_of_disjoint (planes_apart hI hk hc hne) hin
  rw [region_contains_of_inBounds hb hrect] at hout
  cases hout

/-- Every pixel cell reads as a PIXW-bit value, written or not (20_memory R52, R55). -/
theorem State.Inv.readP_lt {s : State} (hI : s.Inv) (a : Nat) : (s.readP a).toNat < 2 ^ s.cfg.pixw := by
  unfold State.readP
  split
  · next v hv => exact (hI.pmemCells _ (Mem.mem_of_read? hv)).2
  · exact truncTo_lt _ _

/-! ### Phases that each write their rectangle -/

/-- `t` differs from `s` by runs of subtract and add kernels: RMEM, the counter of free values, the ports' trace. -/
def ResultsOnly (s t : State) : Prop := ∃ m n es, t = { s with rmem := m, draws := n, trace := es }

theorem ResultsOnly.refl (s : State) : ResultsOnly s s := ⟨_, _, _, rfl⟩

theorem ResultsOnly.trans {s t u : State} (h : ResultsOnly s t) (k : ResultsOnly t u) : ResultsOnly s u := by
  obtain ⟨m, n, es, rfl⟩ := h
  obtain ⟨m', n', es', rfl⟩ := k
  exact ⟨_, _, _, rfl⟩

section

variable {s t : State} (h : ResultsOnly s t)

include h

theorem ResultsOnly.cfg : t.cfg = s.cfg := by
  obtain ⟨m, n, es, rfl⟩ := h
  rfl

theorem ResultsOnly.ctx : t.ctx = s.ctx := by
  obtain ⟨m, n, es, rfl⟩ := h
  rfl

theorem ResultsOnly.pbuf : t.pbuf = s.pbuf := by
  obtain ⟨m, n, es, rfl⟩ := h
  rfl

theorem ResultsOnly.readP : t.readP = s.readP := by
  obtain ⟨m, n, es, rfl⟩ := h
  rfl

/-- A residual cell that kept its contents reads as before. -/
theorem ResultsOnly.readR {a : Nat} (ha : t.rmem.read? a = s.rmem.read? a) : t.readR a = s.readR a := by
  refine State.readR_congr ha ?_
  obtain ⟨m, n, es, rfl⟩ := h
  rfl

end

/-- `t` is `s` after the phases of a SUB or ADDCLIP of `T`: the sample stored at row `y`, column `x` of each active
plane's rectangle is as `val` says, and no other cell changes. -/
structure RectsStored (s t : State) (T : Context) (pidx psize : Dim) (val : Plane → Nat → Nat → Sample → Prop) :
    Prop where
  results : ResultsOnly s t
  inside : ∀ p ∈ T.squarePlan psize, ∀ y < (T.extent psize psize p).h, ∀ x < (T.extent psize psize p).w,
    val p y x (t.readR (T.cell s.cfg p pidx psize y x))
  outside : ∀ adr, (∀ p ∈ T.squarePlan psize, ¬ T.rectHas s.cfg p pidx psize (T.extent psize psize p) adr) →
    t.rmem.read? adr = s.rmem.read? adr

/-- Checked phases that each write their own rectangle do so together: the rectangles of different planes share no
cell. A phase may count on the cells of plane `p` of every Ready context, from which it reads its sources, being as
at the start (42_subtract R142). -/
theorem runPhases_rectsStored {s : State} {c : Id} {pidx psize : Dim} {phase : Plane → State → Except Fault State}
    {val : Plane → Nat → Nat → Sample → Prop} (hI : s.Inv) (hr : (s.ctx c).ready = true)
    (hb : s.boundsOk (s.ctx c) (s.ctx c) allPlanes pidx psize psize psize = true)
    (hphase : ∀ p ∈ (s.ctx c).squarePlan psize, ∀ u, ResultsOnly s u →
      (∀ k adr, (s.ctx k).ready = true → ((s.ctx k).region p).contains adr = true →
        u.rmem.read? adr = s.rmem.read? adr) →
      ∃ v f, phase p u = .ok v ∧ ResultsOnly u v ∧
        v.rmem = u.rmem.writeAll (rectCells ((s.ctx c).addr s.cfg p pidx psize) ((s.ctx c).pw p).toNat
          ((s.ctx c).extent psize psize p).w ((s.ctx c).extent psize psize p).h f) ∧
        ∀ y < ((s.ctx c).extent psize psize p).h, ∀ x < ((s.ctx c).extent psize psize p).w, val p y x (f y x)) :
    ∃ t, runPhases phase ((s.ctx c).squarePlan psize) s = .ok t ∧ RectsStored s t (s.ctx c) pidx psize val := by
  have hbounds := State.boundsOk_iff.mp hb
  have houtside : ∀ p q, p ≠ q → q ∈ (s.ctx c).squarePlan psize → ∀ k adr, (s.ctx k).ready = true →
      ((s.ctx k).region p).contains adr = true →
      ¬ (s.ctx c).rectHas s.cfg q pidx psize ((s.ctx c).extent psize psize q) adr :=
    fun p q hpq hq k adr hk hin =>
      not_rectHas_of_region hI hr (hbounds q hq) hk hin fun h => hpq (congrArg Prod.snd h)
  obtain ⟨t, hrun, hframe, hout, hin⟩ := runPhases_effect (phase := phase) (m := State.rmem) (Frm := ResultsOnly)
    (R := fun p => (s.ctx c).rectHas s.cfg p pidx psize ((s.ctx c).extent psize psize p))
    (G := fun p adr o => ∀ y < ((s.ctx c).extent psize psize p).h, ∀ x < ((s.ctx c).extent psize psize p).w,
      adr = (s.ctx c).cell s.cfg p pidx psize y x → ∃ v, o = some v ∧ val p y x v)
    ResultsOnly.refl ResultsOnly.trans (Context.plan_nodup (by decide))
    (fun p hp q hq hpq adr ⟨hadr, hadr'⟩ =>
      houtside p q hpq hq c adr hr (region_contains_of_inBounds (hbounds p hp) hadr) hadr')
    (fun p hp u hu hagree => by
      obtain ⟨v, f, hok, hv, hrmem, hval⟩ := hphase p hp u hu fun k adr hk hin =>
        hagree adr fun q hq hqp => houtside p q hqp.symm hq k adr hk hin
      have hwidth : ((s.ctx c).extent psize psize p).w ≤ ((s.ctx c).pw p).toNat :=
        (Nat.le_add_left _ _).trans (Context.inBounds_iff.mp (hbounds p hp)).1
      refine ⟨v, hok, hv, fun adr hadr => ?_, ?_⟩
      · rw [hrmem]
        exact Mem.read?_writeAll_rectCells_of_not _ _ hadr
      rintro _ - y hy x hx rfl
      rw [hrmem]
      exact ⟨_, Mem.read?_writeAll_rectCells _ f hwidth hy hx, hval y hy x hx⟩)
  refine ⟨t, hrun, hframe, fun p hp y hy x hx => ?_, hout⟩
  obtain ⟨v, hread, hv⟩ := hin p hp _ ⟨y, hy, x, hx, rfl⟩ y hy x hx rfl
  rwa [State.readR, hread]

/-! ### SUB -/

/-- The exact difference SUB stores at row `y`, column `x` of plane `p` (42_subtract R145). -/
def State.difference (s : State) (dA dB : PixelBuffer) (p : Plane) (pidx psize : Dim) (y x : Nat) : Int :=
  subExact (s.readP (dA.cell s.cfg p pidx psize y x)) (s.readP (dB.cell s.cfg p pidx psize y x))

/-- What SUB may store there: the difference where it is a wide sample, else any sample (log entry 7). -/
def State.IsDifference (s : State) (dA dB : PixelBuffer) (pidx psize : Dim) (p : Plane) (y x : Nat) (v : Sample) :
    Prop :=
  -32768 ≤ s.difference dA dB p pidx psize y x → s.difference dA dB p pidx psize y x ≤ 32767 →
    v.toInt = s.difference dA dB p pidx psize y x

section

variable {s : State} {c a b : Id} {pidx psize : Dim}

/-- A SUB with every check passed is its phases. -/
theorem exec_sub (hwf : (Instr.sub c a b pidx psize).wf s.cfg = true) (hr : (s.ctx c).ready = true)
    (hb : s.boundsOk (s.ctx c) (s.ctx c) allPlanes pidx psize psize psize = true) :
    exec (.sub c a b pidx psize) s =
      finish (runPhases (subPhase (s.ctx c) a b pidx psize) ((s.ctx c).squarePlan psize) s) := by
  show whenLegal (.sub c a b pidx psize) s _ = _
  rw [(whenLegal_eq _ _ _).1 hwf, if_pos hr]
  exact if_pos hb

/-- A phase of SUB, its checks passed, stores the differences, in the state the earlier phases led to. -/
theorem subPhase_of_checked {p : Plane} {dA dB : PixelBuffer} {u : State} (hI : s.Inv)
    (hr : (s.ctx c).ready = true) (hz : subSizeOk psize = true) (hp : p ∈ (s.ctx c).squarePlan psize)
    (hb : (s.ctx c).inBounds s.cfg p pidx psize ((s.ctx c).extent psize psize p) = true)
    (hA : s.pbuf a = some dA) (hB : s.pbuf b = some dB)
    (hdA : dA.holds s.cfg p pidx psize ((s.ctx c).extent psize psize p) = true)
    (hdB : dB.holds s.cfg p pidx psize ((s.ctx c).extent psize psize p) = true) (hu : ResultsOnly s u) :
    ∃ v, subPhase (s.ctx c) a b pidx psize p u = .ok v ∧ ResultsOnly u v ∧
      v.rmem = u.rmem.writeAll (rectCells ((s.ctx c).addr s.cfg p pidx psize) ((s.ctx c).pw p).toNat
        ((s.ctx c).extent psize psize p).w ((s.ctx c).extent psize psize p).h fun y x =>
          u.wide ((s.ctx c).cell s.cfg p pidx psize y x) (s.difference dA dB p pidx psize y x)) := by
  obtain ⟨hw, hh⟩ := Context.extent_pos hp
  obtain ⟨hluma, hchroma⟩ := sub_extent hI hr p hz
  rw [← hu.cfg] at hdA hdB hchroma
  rw [← hu.pbuf] at hA hB
  refine ⟨_, subPhase_eq hA hB hdA hdB hluma hchroma, ⟨_, _, _, rfl⟩, ?_⟩
  dsimp only
  rw [PixelBuffer.holds_pointer hdA hw, PixelBuffer.holds_pointer hdB hw, hu.cfg,
    addr32_toNat_of_inBounds hI hr hb hw hh, State.subCells, hu.readP]
  rfl

/-- SUB stores in each active plane the differences that are wide samples, exactly. -/
theorem exec_sub_stores {dA dB : PixelBuffer} (hI : s.Inv) (hwf : (Instr.sub c a b pidx psize).wf s.cfg = true)
    (hr : (s.ctx c).ready = true) (hb : s.boundsOk (s.ctx c) (s.ctx c) allPlanes pidx psize psize psize = true)
    (hA : s.pbuf a = some dA) (hB : s.pbuf b = some dB)
    (hholds : ∀ p ∈ (s.ctx c).squarePlan psize,
      dA.holds s.cfg p pidx psize ((s.ctx c).extent psize psize p) = true ∧
      dB.holds s.cfg p pidx psize ((s.ctx c).extent psize psize p) = true) :
    ∃ t, exec (.sub c a b pidx psize) s = .next t.done ∧
      RectsStored s t (s.ctx c) pidx psize (s.IsDifference dA dB pidx psize) := by
  have hz : subSizeOk psize = true := (Bool.and_eq_true _ _ ▸ hwf :).2
  obtain ⟨t, hrun, hstored⟩ := runPhases_rectsStored (phase := subPhase (s.ctx c) a b pidx psize)
    (val := s.IsDifference dA dB pidx psize) hI hr hb fun p hp u hu _ => by
      obtain ⟨hdA, hdB⟩ := hholds p hp
      obtain ⟨v, hok, hv, hrmem⟩ := subPhase_of_checked hI hr hz hp (State.boundsOk_iff.mp hb p hp) hA hB hdA hdB hu
      exact ⟨v, _, hok, hv, hrmem, fun y _ x _ hlo hhi => u.wide_toInt _ hlo hhi⟩
  refine ⟨t, ?_, hstored⟩
  rw [exec_sub hwf hr hb, hrun]
  rfl

/-- Up to PIXW 15 every difference is a wide sample (42_subtract R145). -/
theorem State.Inv.difference_fits (hI : s.Inv) (hw : s.cfg.pixw ≤ 15) (dA dB : PixelBuffer) (p : Plane) (y x : Nat) :
    -32768 ≤ s.difference dA dB p pidx psize y x ∧ s.difference dA dB p pidx psize y x ≤ 32767 := by
  have hpow : 2 ^ s.cfg.pixw ≤ 2 ^ 15 := Nat.pow_le_pow_right (by decide) hw
  have hA := hI.readP_lt (dA.cell s.cfg p pidx psize y x)
  have hB := hI.readP_lt (dB.cell s.cfg p pidx psize y x)
  simp only [State.difference, subExact]
  omega

end

/-- Settles O23: the phases store the differences that are wide samples (`exec_sub_stores`), and up to PIXW 15 they all
are (`State.Inv.difference_fits`). -/
theorem subStoresTheDifference : Obligations.SubStoresTheDifference := by
  intro s c a b pidx psize dA dB hI hwf hr hb hA hB hholds
  obtain ⟨t, hexec, hstored⟩ := exec_sub_stores hI hwf hr hb hA hB hholds
  refine ⟨t.done, hexec, ?frame, ?samples, hstored.outside⟩
  case frame =>
    obtain ⟨m, n, es, rfl⟩ := hstored.results
    exact State.done_eq _
  case samples =>
    rintro p hp y hy x hx _ _ rfl rfl hfit
    obtain ⟨hlo, hhi⟩ := hfit.elim (fun hw => hI.difference_fits (pidx := pidx) (psize := psize) hw dA dB p y x) id
    exact hstored.inside p hp y hy x hx hlo hhi

/-! ### ADDCLIP -/

/-- The exact clipped sum ADDCLIP stores at row `y`, column `x` of plane `p` (43_addclip R154). -/
def State.clippedSum (s : State) (A B : Context) (p : Plane) (pidx psize : Dim) (y x : Nat) : Int :=
  addExact s.cfg (s.readR (A.cell s.cfg p pidx psize y x)) (s.readR (B.cell s.cfg p pidx psize y x))

/-- What ADDCLIP may store there: a sample within 0 .. maxSample, the clipped sum where that is a wide sample
(log entry 7). -/
def State.IsClippedSum (s : State) (A B : Context) (pidx psize : Dim) (p : Plane) (y x : Nat) (v : Sample) : Prop :=
  (0 ≤ v.toInt ∧ v.toInt ≤ maxSample s.cfg) ∧
    (s.clippedSum A B p pidx psize y x ≤ 32767 → v.toInt = s.clippedSum A B p pidx psize y x)

/-- A clipped sum is within 0 .. maxSample (43_addclip R154). -/
theorem addExact_range (cfg : Config) (v w : Sample) : 0 ≤ addExact cfg v w ∧ addExact cfg v w ≤ maxSample cfg := by
  have hmax : 0 ≤ maxSample cfg := Int.sub_nonneg_of_le (one_le_pow₀ (by decide))
  rw [addExact, clip_eq hmax]
  omega

/-- Adding back what was subtracted gives a sample within 0 .. maxSample back (43_addclip R156). -/
theorem addExact_sub_add {cfg : Config} {v w : Sample} {vA vB : Int} (hv : v.toInt = vA - vB) (hw : w.toInt = vB)
    (hlo : 0 ≤ vA) (hhi : vA ≤ maxSample cfg) : addExact cfg v w = vA := by
  rw [addExact, clip_eq (hlo.trans hhi)]
  omega

section

variable {s : State} {c a b : Id} {pidx psize : Dim}

/-- An ADDCLIP with every check passed is its phases. -/
theorem exec_addclip (hwf : (Instr.addclip c a b pidx psize).wf s.cfg = true)
    (hr : ∀ k ∈ [c, a, b], (s.ctx k).ready = true)
    (hb : ∀ k ∈ [c, a, b], s.boundsOk (s.ctx k) (s.ctx c) allPlanes pidx psize psize psize = true) :
    exec (.addclip c a b pidx psize) s =
      finish (runPhases (fun p u => kinvoke (addRecord u.cfg (s.ctx c) (s.ctx a) (s.ctx b) p pidx psize) u)
        ((s.ctx c).squarePlan psize) s) := by
  simp only [List.forall_mem_cons, List.not_mem_nil, false_imp_iff, implies_true, and_true] at hr hb
  obtain ⟨hc, ha, hb'⟩ := hr
  obtain ⟨hbc, hba, hbb⟩ := hb
  show whenLegal (.addclip c a b pidx psize) s _ = _
  rw [(whenLegal_eq _ _ _).1 hwf, if_pos (by rw [hc, ha, hb']; rfl)]
  refine if_pos ?_
  simp only [all_and3, boundsOk_eq, hbc, hba, hbb, Bool.and_self]

/-- A phase of ADDCLIP, its checks passed, stores the clipped sums of the state the earlier phases led to. -/
theorem addPhase_of_checked {p : Plane} {u : State} (hI : s.Inv) (hr : ∀ k ∈ [c, a, b], (s.ctx k).ready = true)
    (hp : p ∈ (s.ctx c).squarePlan psize)
    (hb : ∀ k ∈ [c, a, b], (s.ctx k).inBounds s.cfg p pidx psize ((s.ctx c).extent psize psize p) = true)
    (hu : ResultsOnly s u) :
    ∃ v, kinvoke (addRecord u.cfg (s.ctx c) (s.ctx a) (s.ctx b) p pidx psize) u = .ok v ∧ ResultsOnly u v ∧
      v.rmem = u.rmem.writeAll (rectCells ((s.ctx c).addr s.cfg p pidx psize) ((s.ctx c).pw p).toNat
        ((s.ctx c).extent psize psize p).w ((s.ctx c).extent psize psize p).h fun y x =>
          u.wideSum ((s.ctx c).cell s.cfg p pidx psize y x)
            (u.clippedSum (s.ctx a) (s.ctx b) p pidx psize y x)) := by
  obtain ⟨hw, hh⟩ := Context.extent_pos hp
  obtain ⟨hew, heh⟩ := (s.ctx c).extent_ofNat psize psize p
  have haddr : ∀ k ∈ [c, a, b],
      ((s.ctx k).addr32 s.cfg p pidx psize).toNat = (s.ctx k).addr s.cfg p pidx psize :=
    fun k hk => addr32_toNat_of_inBounds hI (hr k hk) (hb k hk) hw hh
  refine ⟨_, addPhase_eq _ _ _ _ _ _ _ _, ⟨_, _, _, rfl⟩, ?_⟩
  dsimp only
  rw [hew, heh, State.addCells]
  simp only [State.clippedSum, hu.cfg, haddr c (by simp), haddr a (by simp), haddr b (by simp)]

/-- The clipped sum of two checked cells is the same wherever their planes' cells are. -/
theorem clippedSum_congr {p : Plane} {e : Extent} {u : State} {y x : Nat} (hu : ResultsOnly s u)
    (hagree : ∀ k adr, (s.ctx k).ready = true → ((s.ctx k).region p).contains adr = true →
      u.rmem.read? adr = s.rmem.read? adr)
    (hr : ∀ k ∈ [c, a, b], (s.ctx k).ready = true)
    (hb : ∀ k ∈ [c, a, b], (s.ctx k).inBounds s.cfg p pidx psize e = true) (hy : y < e.h) (hx : x < e.w) :
    u.clippedSum (s.ctx a) (s.ctx b) p pidx psize y x = s.clippedSum (s.ctx a) (s.ctx b) p pidx psize y x := by
  have hread : ∀ k ∈ [c, a, b],
      u.readR ((s.ctx k).cell s.cfg p pidx psize y x) = s.readR ((s.ctx k).cell s.cfg p pidx psize y x) :=
    fun k hk => hu.readR (hagree k _ (hr k hk) (region_contains_cell (hb k hk) hy hx))
  simp only [State.clippedSum, hu.cfg, hread a (by simp), hread b (by simp)]

/-- ADDCLIP stores in each active plane the clipped sums, exactly those that are wide samples. -/
theorem exec_addclip_stores (hI : s.Inv) (hwf : (Instr.addclip c a b pidx psize).wf s.cfg = true)
    (hr : ∀ k ∈ [c, a, b], (s.ctx k).ready = true)
    (hb : ∀ k ∈ [c, a, b], s.boundsOk (s.ctx k) (s.ctx c) allPlanes pidx psize psize psize = true) :
    ∃ t, exec (.addclip c a b pidx psize) s = .next t.done ∧
      RectsStored s t (s.ctx c) pidx psize (s.IsClippedSum (s.ctx a) (s.ctx b) pidx psize) := by
  obtain ⟨t, hrun, hstored⟩ := runPhases_rectsStored
    (phase := fun p u => kinvoke (addRecord u.cfg (s.ctx c) (s.ctx a) (s.ctx b) p pidx psize) u)
    (val := s.IsClippedSum (s.ctx a) (s.ctx b) pidx psize) hI (hr c (by simp)) (hb c (by simp))
    fun p hp u hu hagree => by
      have hbounds := fun k hk => State.boundsOk_iff.mp (hb k hk) p hp
      obtain ⟨v, hok, hv, hrmem⟩ := addPhase_of_checked hI hr hp hbounds hu
      refine ⟨v, _, hok, hv, hrmem, fun y hy x hx => ?_⟩
      rw [clippedSum_congr hu hagree hr hbounds hy hx]
      obtain ⟨hlo, hhi⟩ : 0 ≤ s.clippedSum (s.ctx a) (s.ctx b) p pidx psize y x ∧ _ := addExact_range _ _ _
      exact ⟨u.wideSum_range _ hlo hhi, u.wideSum_toInt _ ((by decide : (-32768 : Int) ≤ 0).trans hlo)⟩
  refine ⟨t, ?_, hstored⟩
  rw [exec_addclip hwf hr hb, hrun]
  rfl

end

/-! ### The ports -/

/-- No error's response is that of a command that completed. -/
theorem packResponse_error_ne_zero (e : CmdError) : packResponse e.code 0 0 ≠ 0 := by
  cases e <;> decide

section

variable {s t : State} {c a b : Id} {pidx psize : Dim}

/-- A SUB that answers OK ran its phases. -/
theorem exec_sub_ok (hexec : exec (.sub c a b pidx psize) s = .next t) (hok : t.respPort = some 0) :
    ∃ u, runPhases (subPhase (s.ctx c) a b pidx psize) ((s.ctx c).squarePlan psize) s = .ok u ∧ t = u.done := by
  cases completes_of_exec hexec with
  | illegal => exact absurd (Option.some.inj hok) (packResponse_error_ne_zero _)
  | rejected _ e => exact absurd (Option.some.inj hok) (packResponse_error_ne_zero e)
  | sub _ _ _ _ _ u _ _ _ hrun => exact ⟨u, hrun, rfl⟩
  | toResidual _ _ _ _ _ _ _ _ _ hi => simp at hi
  | toPixel _ _ _ _ _ _ _ _ _ hi => simp at hi

/-- An ADDCLIP that answers OK ran its phases. -/
theorem exec_addclip_ok (hexec : exec (.addclip c a b pidx psize) s = .next t) (hok : t.respPort = some 0) :
    ∃ u, runPhases (fun p v => kinvoke (addRecord v.cfg (s.ctx c) (s.ctx a) (s.ctx b) p pidx psize) v)
      ((s.ctx c).squarePlan psize) s = .ok u ∧ t = u.done := by
  cases completes_of_exec hexec with
  | illegal => exact absurd (Option.some.inj hok) (packResponse_error_ne_zero _)
  | rejected _ e => exact absurd (Option.some.inj hok) (packResponse_error_ne_zero e)
  | addclip _ _ _ _ _ u _ _ hrun => exact ⟨u, hrun, rfl⟩
  | toResidual _ _ _ _ _ _ _ _ _ hi => simp at hi
  | toPixel _ _ _ _ _ _ _ _ _ hi => simp at hi

/-- A kernel run is requested once (45_external_interfaces R181). -/
theorem kinvoke_trace {r : KRecord} (h : kinvoke r s = .ok t) : t.trace = s.trace ++ [.kinvoke r] := by
  unfold kinvoke at h
  rcases runKernel_cases r (s.record (.kinvoke r)) with ⟨ws, hrun⟩ | ⟨ws, hrun⟩ | hrun <;> rw [hrun] at h <;> cases h
  · rfl
  · rfl

/-- The record of a SUB phase: luma by the size class alone, chroma by the class and the colour space
(42_subtract R141, R143). -/
theorem subRecord_eq {cls : BitVec 3} (hcls : sizeClass psize = cls) (cfg : Config) (T : Context) (p : Plane)
    (qa qb : Addr × Dim) :
    subRecord cfg T p pidx psize qa qb =
      if p = .y then .subLuma cls (T.addr32 cfg p pidx psize) T.width qa.1 qa.2 qb.1 qb.2
      else .subChroma cls T.csp (T.addr32 cfg p pidx psize) T.cwidth qa.1 qa.2 qb.1 qb.2 := by
  subst hcls
  cases p <;> rfl

/-- A SUB phase asks for the two addresses, then for the kernel run (42_subtract R141). -/
theorem subPhase_trace {T : Context} {p : Plane} {dA dB : PixelBuffer} (hA : s.pbuf a = some dA)
    (hB : s.pbuf b = some dB) (h : subPhase T a b pidx psize p s = .ok t) :
    t.trace = s.trace ++
      [.pixAddr a p pidx psize (BitVec.ofNat 32 (dA.pointer s.cfg p pidx psize)) (dA.plane p).stride,
       .pixAddr b p pidx psize (BitVec.ofNat 32 (dB.pointer s.cfg p pidx psize)) (dB.plane p).stride,
       .kinvoke (subRecord s.cfg T p pidx psize
         (BitVec.ofNat 32 (dA.pointer s.cfg p pidx psize), (dA.plane p).stride)
         (BitVec.ofNat 32 (dB.pointer s.cfg p pidx psize), (dB.plane p).stride))] := by
  unfold subPhase at h
  dsimp only at h
  split at h
  · cases h
  · next hqa =>
    obtain ⟨dA', hA', -, rfl, rfl⟩ := pixAddr_ok.mp hqa
    obtain rfl : dA = dA' := Option.some.inj (hA.symm.trans hA')
    split at h
    · cases h
    · next hqb =>
      obtain ⟨dB', hB', -, rfl, rfl⟩ := pixAddr_ok.mp hqb
      obtain rfl : dB = dB' := Option.some.inj (hB.symm.trans hB')
      simpa only [State.record_trace, State.record_cfg, List.append_assoc, List.cons_append, List.nil_append]
        using kinvoke_trace h

/-- The record of an ADDCLIP phase, with the luma size shifted to the plane's width and height (43_addclip R152). -/
theorem addRecord_eq (cfg : Config) (T A B : Context) (p : Plane) (pidx psize : Dim) :
    addRecord cfg T A B p pidx psize =
      .add (psize >>> T.hs p) (psize >>> T.vs p) (T.addr32 cfg p pidx psize) (T.pw p)
        (A.addr32 cfg p pidx psize) (A.pw p) (B.addr32 cfg p pidx psize) (B.pw p) := by
  have hshift : ∀ k, BitVec.ofNat 16 (psize.toNat >>> k) = psize >>> k := fun k =>
    BitVec.eq_of_toNat_eq <| by
      rw [BitVec.toNat_ushiftRight, BitVec.toNat_ofNat,
        Nat.mod_eq_of_lt ((Nat.shiftRight_le _ _).trans_lt psize.isLt)]
  simp only [addRecord, Context.extent, hshift]

end

/-- Settles O24: a SUB that answers OK ran its phases (`exec_sub_ok`), each with two queries and its record
(`subPhase_trace`, `subRecord_eq`). -/
theorem subPortTrace : Obligations.SubPortTrace := by
  intro s t c a b pidx psize dA dB cls hcls hA hB hexec hok
  obtain ⟨u, hrun, rfl⟩ := exec_sub_ok hexec hok
  rw [State.done_trace]
  refine runPhases_trace (P := ResultsOnly s) hrun (.refl s) fun p _ v v' hv hphase => ⟨?results, ?trace⟩
  case results =>
    obtain ⟨ws, es, rfl⟩ := subPhase_frame hphase
    exact hv.trans ⟨_, _, _, rfl⟩
  case trace =>
    rw [subPhase_trace (hv.pbuf ▸ hA) (hv.pbuf ▸ hB) hphase, subRecord_eq (sizeClass_eq hcls), hv.cfg]

/-- Settles O26: an ADDCLIP that answers OK ran its phases (`exec_addclip_ok`), each with its record
(`kinvoke_trace`, `addRecord_eq`). -/
theorem addclipPortTrace : Obligations.AddclipPortTrace := by
  intro s t c a b pidx psize hexec hok
  obtain ⟨u, hrun, rfl⟩ := exec_addclip_ok hexec hok
  rw [List.map_eq_flatMap, State.done_trace]
  refine runPhases_trace (P := ResultsOnly s) hrun (.refl s) fun p _ v v' hv hphase => ⟨?results, ?trace⟩
  case results =>
    rw [addPhase_eq] at hphase
    cases hphase
    exact hv.trans ⟨_, _, _, rfl⟩
  case trace =>
    rw [kinvoke_trace hphase, addRecord_eq, hv.cfg]

/-! ### The round trip -/

section

variable {T X : Context} (hh : X.hshift = T.hshift) (hv : X.vshift = T.vshift)

include hh hv

/-- Contexts of one chroma layout give a command the same extents (41_addressing R127). -/
theorem Context.extent_eq_of_layout : X.extent = T.extent := by
  funext w h p
  cases p with
  | y => rfl
  | cb | cr => simp only [Context.extent, Context.hs, Context.vs, hh, hv]

/-- And the same active planes (41_addressing R128). -/
theorem Context.plan_eq_of_layout (hc : X.cpres = T.cpres) : X.plan = T.plan := by
  have hactive : X.active = T.active := by
    funext w h p
    simp only [Context.active, Context.extent_eq_of_layout hh hv, hc]
  funext planes w h
  simp only [Context.plan, hactive]

end

/-- In the state SUB of A and B leaves in R, the clipped sum of R and another context W that holds B's sample is A's
sample, where that is within 0 .. maxSample and the difference is a wide sample (43_addclip R156). -/
theorem clippedSum_after_sub {s t : State} {r w : Id} {p : Plane} {pidx psize : Dim} {dA dB : PixelBuffer} {y x : Nat}
    {vA vB : Int} (hI : s.Inv) (hr : (s.ctx r).ready = true) (hw : (s.ctx w).ready = true) (hrw : r ≠ w)
    (hb : ∀ k, k = r ∨ k = w → ∀ q ∈ (s.ctx r).squarePlan psize,
      (s.ctx k).inBounds s.cfg q pidx psize ((s.ctx r).extent psize psize q) = true)
    (hdiff : RectsStored s t (s.ctx r) pidx psize (s.IsDifference dA dB pidx psize))
    (hp : p ∈ (s.ctx r).squarePlan psize) (hy : y < ((s.ctx r).extent psize psize p).h)
    (hx : x < ((s.ctx r).extent psize psize p).w)
    (hA : vA = (s.readP (dA.cell s.cfg p pidx psize y x)).toNat)
    (hB : vB = (s.readP (dB.cell s.cfg p pidx psize y x)).toNat)
    (hmax : vA ≤ maxSample s.cfg) (hhi : vA ≤ 32767) (hlo : -32768 ≤ vA - vB)
    (hW : (s.readR ((s.ctx w).cell s.cfg p pidx psize y x)).toInt = vB) :
    t.clippedSum (s.ctx r) (s.ctx w) p pidx psize y x = vA := by
  have hdifference : s.difference dA dB p pidx psize y x = vA - vB := by rw [State.difference, subExact, hA, hB]
  have hR : (t.readR ((s.ctx r).cell s.cfg p pidx psize y x)).toInt = vA - vB := by
    rw [← hdifference]
    exact hdiff.inside p hp y hy x hx (by omega) (by omega)
  have hkept : t.readR ((s.ctx w).cell s.cfg p pidx psize y x) = s.readR ((s.ctx w).cell s.cfg p pidx psize y x) :=
    hdiff.results.readR <| hdiff.outside _ fun q hq =>
      not_rectHas_of_region hI hr (hb r (.inl rfl) q hq) hw (region_contains_cell (hb w (.inr rfl) p hp) hy hx)
        fun h => hrw (congrArg Prod.fst h).symm
  rw [State.clippedSum, hdiff.results.cfg]
  exact addExact_sub_add hR (hkept ▸ hW) (by omega) hmax

/-- Settles O27: SUB stores the difference in R (`exec_sub_stores`), so what ADDCLIP stores in D, the clipped sum of
R and W (`exec_addclip_stores`), is A's sample (`clippedSum_after_sub`). -/
theorem subThenAddclipReconstructs : Obligations.SubThenAddclipReconstructs := by
  intro s r w d a b pidx psize dA dB hI hsub hadd hr hw hd hrw hlayout hb hA hB hpix
  obtain ⟨hh, hv, hc⟩ := hlayout d (.inr rfl)
  have hextent := Context.extent_eq_of_layout hh hv
  have hplan := Context.plan_eq_of_layout hh hv hc
  obtain ⟨t, hexec, hdiff⟩ := exec_sub_stores hI hsub hr (hb r (.inl rfl)) hA hB fun p hp =>
    have ⟨hdA, hdB, _⟩ := hpix p hp
    ⟨hdA, hdB⟩
  have hcfg : t.done.cfg = s.cfg := hdiff.results.cfg
  have hctx : t.done.ctx = s.ctx := hdiff.results.ctx
  have hnamed : ∀ k ∈ [d, r, w], k = r ∨ k = w ∨ k = d := by simp
  have hready : ∀ k ∈ [d, r, w], (t.done.ctx k).ready = true := by
    intro k hk
    rw [hctx]
    rcases hnamed k hk with rfl | rfl | rfl <;> assumption
  have hbounds : ∀ k ∈ [d, r, w],
      t.done.boundsOk (t.done.ctx k) (t.done.ctx d) allPlanes pidx psize psize psize = true := by
    intro k hk
    simp only [State.boundsOk, hcfg, hctx, hplan, hextent]
    exact hb k (hnamed k hk)
  obtain ⟨t', hexec', hsum⟩ :=
    exec_addclip_stores ((completes_of_exec hexec).inv hI) (hcfg.symm ▸ hadd) hready hbounds
  refine ⟨_, _, hexec, hexec', congrArg some okResponse_eq, fun p hp y hy x hx => ?_⟩
  obtain ⟨-, -, hsamples⟩ := hpix p hp
  obtain ⟨hmax, hhi, hlo, hW⟩ := hsamples y hy x hx _ _ rfl rfl
  have hsumA := clippedSum_after_sub hI hr hw hrw
    (fun k hk => State.boundsOk_iff.mp (hb k (hk.imp_right .inl))) hdiff hp hy hx rfl rfl hmax hhi hlo hW
  rw [hctx] at hsum
  obtain ⟨-, hexact⟩ := hsum.inside p (by rwa [Context.squarePlan, hplan]) y (by rwa [hextent]) x (by rwa [hextent])
  rw [hcfg] at hexact
  exact (hexact (hsumA.trans_le hhi)).trans hsumA

end Sys2Proof.Machine
end

section
/-! ADDCLIP's samples as 43_addclip R154 states them: the maximum and minimum that the clip is, and where the clipped
sum is a wide sample, so that the cell holds it exactly. -/

namespace Sys2Proof.Machine

/-- The add kernel's exact result as a maximum and a minimum (43_addclip R154). -/
theorem addExact_eq (cfg : Config) (v w : Sample) :
    addExact cfg v w = max 0 (min (maxSample cfg) (v.toInt + w.toInt)) := by
  obtain ⟨hlo, hhi⟩ := addExact_range cfg v w
  exact clip_eq (hlo.trans hhi)

/-- Up to BIT_DEPTH 15 the largest sample is a wide sample (00_scope R7, R8). -/
theorem maxSample_le {cfg : Config} (hd : cfg.bitDepth ≤ 15) : maxSample cfg ≤ 32767 := by
  have hpow : (2 : Int) ^ cfg.bitDepth ≤ 2 ^ 15 := pow_le_pow_right₀ (by decide) hd
  rw [maxSample]
  omega

/-- A clipped sum is a wide sample up to BIT_DEPTH 15, and at any depth where the sum before the clip is at most 32767
(43_addclip R154; log entry 7). -/
theorem addExact_le {cfg : Config} {v w : Sample} (h : cfg.bitDepth ≤ 15 ∨ v.toInt + w.toInt ≤ 32767) :
    addExact cfg v w ≤ 32767 := by
  rcases h with hdepth | hsum
  · exact (addExact_range cfg v w).2.trans (maxSample_le hdepth)
  · rw [addExact_eq]
    omega

/-- Settles O25: the phases store samples within the range, the clipped sums that are wide samples exactly
(`exec_addclip_stores`), and the sums the statement speaks of are such (`addExact_le`). -/
theorem addclipStoresTheClippedSum : Obligations.AddclipStoresTheClippedSum := by
  intro s c a b pidx psize hI hwf hc ha hb hbc hba hbb
  obtain ⟨t, hexec, hstored⟩ := exec_addclip_stores hI hwf
    (List.forall_mem_cons.mpr ⟨hc, List.forall_mem_cons.mpr ⟨ha, List.forall_mem_singleton.mpr hb⟩⟩)
    (List.forall_mem_cons.mpr ⟨hbc, List.forall_mem_cons.mpr ⟨hba, List.forall_mem_singleton.mpr hbb⟩⟩)
  refine ⟨t.done, hexec, ?frame, ?samples, hstored.outside⟩
  case frame =>
    obtain ⟨m, n, es, rfl⟩ := hstored.results
    exact State.done_eq _
  case samples =>
    intro p hp y hy x hx
    obtain ⟨hrange, hexact⟩ := hstored.inside p hp y hy x hx
    refine ⟨hrange, ?_⟩
    rintro _ rfl hfit
    exact (hexact (addExact_le hfit)).trans (addExact_eq ..)

end Sys2Proof.Machine
end

section
/-! The copies (spec/44_copy.md): the samples they store (R163 to R167, R168 to R173), the self-copy (R164), the planes
and contexts they leave alone (R176), and the port requests of the residual-to-pixel copies (R181, R189). -/

open Sys2Proof.Claims

namespace Sys2Proof.Machine

/-! ### Which plan a copy runs -/

/-- A command that answers OK is legal: an ill-formed one is IllegalCommand (60_exceptions R201). -/
theorem wf_of_exec_ok {i : Instr} {s t : State} (hexec : exec i s = .next t) (hok : t.respPort = some 0) :
    i.wf s.cfg = true := by
  by_contra hwf
  rw [exec_illegal (Bool.eq_false_iff.mpr hwf)] at hexec
  cases hexec
  exact packResponse_error_ne_zero _ (Option.some.inj hok)

/-- No channel plan of 44_copy R161 names a plane twice. -/
theorem channelPlan_nodup : ∀ cid : Id, ∀ planes ∈ [[.y], channels cid, allPlanes], planes.Nodup := by decide

section

variable {s t : State} {c a cid : Id} {pidx psize w h : Dim} {ip : Instr × List Plane}

/-- A legal CPYRL, CPYRC or CPYRA is the copy of its channel plan (44_copy R165 to R167). -/
theorem exec_of_mem_residualCopies (hip : ip ∈ residualCopies c a cid pidx psize w h) (hwf : ip.1.wf s.cfg = true) :
    exec ip.1 s = copyToResidual ip.2 c a pidx psize w h s := by
  simp only [residualCopies, List.mem_cons, List.not_mem_nil, or_false] at hip
  rcases hip with rfl | rfl | rfl <;> exact (whenLegal_eq _ _ _).1 hwf

theorem nodup_of_mem_residualCopies (hip : ip ∈ residualCopies c a cid pidx psize w h) : ip.2.Nodup :=
  channelPlan_nodup cid ip.2 (List.mem_map_of_mem (f := Prod.snd) hip)

/-- A legal CPYPL, CPYPC or CPYPA is the copy of its channel plan (44_copy R171 to R173). -/
theorem exec_of_mem_pixelCopies (hip : ip ∈ pixelCopies c a cid pidx psize w h) (hwf : ip.1.wf s.cfg = true) :
    exec ip.1 s = copyToPixel ip.2 c a pidx psize w h s := by
  simp only [pixelCopies, List.mem_cons, List.not_mem_nil, or_false] at hip
  rcases hip with rfl | rfl | rfl <;> exact (whenLegal_eq _ _ _).1 hwf

theorem nodup_of_mem_pixelCopies (hip : ip ∈ pixelCopies c a cid pidx psize w h) : ip.2.Nodup :=
  channelPlan_nodup cid ip.2 (List.mem_map_of_mem (f := Prod.snd) hip)

variable {planes : List Plane}

/-- A residual-to-residual copy with every check passed is its phases (44_copy R162). -/
theorem copyToResidual_of_checked (hc : (s.ctx c).ready = true) (ha : (s.ctx a).ready = true)
    (hbc : s.boundsOk (s.ctx c) (s.ctx c) planes pidx psize w h = true)
    (hba : s.boundsOk (s.ctx a) (s.ctx c) planes pidx psize w h = true) :
    copyToResidual planes c a pidx psize w h s =
      finish (runPhases (copyRR (s.ctx c) (s.ctx a) pidx psize w h) ((s.ctx c).plan planes w h) s) := by
  unfold copyToResidual
  dsimp only
  rw [if_pos (by rw [hc, ha]; rfl)]
  refine if_pos ?_
  rw [all_and2, boundsOk_eq, boundsOk_eq, hbc, hba]
  rfl

/-- A residual-to-pixel copy with every check passed is its phases (44_copy R162). -/
theorem copyToPixel_of_checked (hc : (s.ctx c).ready = true)
    (hbc : s.boundsOk (s.ctx c) (s.ctx c) planes pidx psize w h = true) :
    copyToPixel planes c a pidx psize w h s =
      finish (runPhases (copyRP (s.ctx c) a pidx psize w h) ((s.ctx c).plan planes w h) s) := by
  unfold copyToPixel
  dsimp only
  rw [if_pos hc]
  exact if_pos hbc

/-- A residual-to-residual copy that answers OK passed its checks and ran its phases. -/
theorem copyToResidual_ok (hcopy : copyToResidual planes c a pidx psize w h s = .next t) (hok : t.respPort = some 0) :
    (s.ctx c).ready = true ∧ (s.ctx a).ready = true ∧
      s.boundsOk (s.ctx c) (s.ctx c) planes pidx psize w h = true ∧
      s.boundsOk (s.ctx a) (s.ctx c) planes pidx psize w h = true ∧
      ∃ u, runPhases (copyRR (s.ctx c) (s.ctx a) pidx psize w h) ((s.ctx c).plan planes w h) s = .ok u ∧
        t = u.done := by
  rcases copyToResidual_cases hcopy with ⟨e, -, rfl⟩ | ⟨u, hr, hb, hrun, rfl⟩
  · exact absurd (Option.some.inj hok) (packResponse_error_ne_zero e)
  · exact ⟨hr c (by simp), hr a (by simp), hb c (by simp), hb a (by simp), u, hrun, rfl⟩

/-- A residual-to-pixel copy that answers OK ran its phases. -/
theorem copyToPixel_ok (hcopy : copyToPixel planes c a pidx psize w h s = .next t) (hok : t.respPort = some 0) :
    ∃ u, runPhases (copyRP (s.ctx c) a pidx psize w h) ((s.ctx c).plan planes w h) s = .ok u ∧ t = u.done := by
  rcases copyToPixel_cases hcopy with ⟨e, -, rfl⟩ | ⟨u, -, -, hrun, rfl⟩
  · exact absurd (Option.some.inj hok) (packResponse_error_ne_zero e)
  · exact ⟨u, hrun, rfl⟩

end

/-! ### The self-copy -/

/-- Two addressed, checked rectangles of one plane begin at the same cell only where they are of the same context:
two Ready contexts' regions share no cell (10_state R32, 44_copy R164). -/
theorem addr_eq_iff {s : State} {c d : Id} {p : Plane} {pidx psize : Dim} {e : Extent} (hI : s.Inv)
    (hc : (s.ctx c).ready = true) (hd : (s.ctx d).ready = true) (hw : 0 < e.w) (hh : 0 < e.h)
    (hbc : (s.ctx c).inBounds s.cfg p pidx psize e = true) (hbd : (s.ctx d).inBounds s.cfg p pidx psize e = true) :
    (s.ctx c).addr s.cfg p pidx psize = (s.ctx d).addr s.cfg p pidx psize ↔ c = d := by
  refine ⟨fun heq => ?_, fun hcd => hcd ▸ rfl⟩
  by_contra hcd
  have hfirst : (s.ctx d).rectHas s.cfg p pidx psize e ((s.ctx c).addr s.cfg p pidx psize) :=
    ⟨0, hh, 0, hw, by simp [heq]⟩
  have hin : ((s.ctx c).region p).contains ((s.ctx c).addr s.cfg p pidx psize) = true :=
    region_contains_of_inBounds hbc ⟨0, hh, 0, hw, by simp⟩
  exact not_rectHas_of_region hI hd hbd hc hin (fun h => hcd (congrArg Prod.fst h)) hfirst

/-- The phases of a self-copy do nothing: each meets equal addresses (44_copy R164). -/
theorem copyRR_self_phases (S : Context) (pidx psize w h : Dim) (ps : List Plane) (s : State) :
    runPhases (copyRR S S pidx psize w h) ps s = .ok s := by
  obtain ⟨t, hrun, rfl⟩ := runPhases_completes (phase := copyRR S S pidx psize w h) (P := (· = s)) (ps := ps) rfl
    fun p _ u hu => ⟨u, if_pos rfl, hu⟩
  exact hrun

/-- Settles O29: with the checks passed a self-copy is its phases, which do nothing (`copyRR_self_phases`); equal
addresses mean the same context (`addr_eq_iff`). -/
theorem selfCopyIsANoOp : Obligations.SelfCopyIsANoOp := by
  refine ⟨?noop, fun s c d p pidx psize e hI hc hd hw hh hbc hbd => addr_eq_iff hI hc hd hw hh hbc hbd⟩
  case noop =>
    intro s c cid pidx psize w h ip hip hwf hr hb
    rw [exec_of_mem_residualCopies hip hwf, copyToResidual_of_checked hr hr hb hb, copyRR_self_phases]
    exact congrArg _ (State.done_eq s)

/-! ### Residual-to-residual copies -/

/-- `t` differs from `s` by raw copies: RMEM. -/
def ResidualOnly (s t : State) : Prop := ∃ m, t = { s with rmem := m }

theorem ResidualOnly.refl (s : State) : ResidualOnly s s := ⟨_, rfl⟩

theorem ResidualOnly.trans {s t u : State} (h : ResidualOnly s t) (k : ResidualOnly t u) : ResidualOnly s u := by
  obtain ⟨m, rfl⟩ := h
  obtain ⟨m', rfl⟩ := k
  exact ⟨_, rfl⟩

/-- A cell of plane `p` of `D` with the contents `o`, written or not, reads as the sample a copy from `S` sends there
(44_copy R163; log entry 6). -/
def State.IsCopied (s : State) (S D : Context) (pidx psize w h : Dim) (p : Plane) (adr : Nat) (o : Option Sample) :
    Prop :=
  ∀ y < (S.extent w h p).h, ∀ x < (S.extent w h p).w, adr = D.cell s.cfg p pidx psize y x →
    o.getD (Config.unwrittenResidual s.rEpoch adr) = s.readR (S.cell s.cfg p pidx psize y x)

/-- `t` is `s` after the phases of a copy of the given planes from context `c` to context `a`: each active plane's
destination rectangle holds the source's samples, and no other cell changes. -/
structure RectsCopied (s t : State) (c a : Id) (planes : List Plane) (pidx psize w h : Dim) : Prop where
  frame : ResidualOnly s t
  inside : ∀ p ∈ (s.ctx c).plan planes w h, ∀ y < ((s.ctx c).extent w h p).h, ∀ x < ((s.ctx c).extent w h p).w,
    t.readR ((s.ctx a).cell s.cfg p pidx psize y x) = s.readR ((s.ctx c).cell s.cfg p pidx psize y x)
  outside : ∀ adr, (∀ p ∈ (s.ctx c).plan planes w h,
      ¬ (s.ctx a).rectHas s.cfg p pidx psize ((s.ctx c).extent w h p) adr) →
    t.rmem.read? adr = s.rmem.read? adr

section

variable {s : State} {c a : Id} {pidx psize w h : Dim}

/-- One phase, its checks passed, in a state `u` in which the source's plane is as in `s`: equal addresses are those of
a self-copy (`addr_eq_iff`), whose cells hold their samples already; else the rectangle is written. -/
theorem copyRR_of_checked {p : Plane} {u : State} (hI : s.Inv) (hc : (s.ctx c).ready = true)
    (ha : (s.ctx a).ready = true) (hw : 0 < ((s.ctx c).extent w h p).w) (hh : 0 < ((s.ctx c).extent w h p).h)
    (hbc : (s.ctx c).inBounds s.cfg p pidx psize ((s.ctx c).extent w h p) = true)
    (hba : (s.ctx a).inBounds s.cfg p pidx psize ((s.ctx c).extent w h p) = true)
    (hu : ResidualOnly s u)
    (hsource : ∀ adr, ((s.ctx c).region p).contains adr = true → u.rmem.read? adr = s.rmem.read? adr) :
    ∃ v, copyRR (s.ctx c) (s.ctx a) pidx psize w h p u = .ok v ∧ ResidualOnly u v ∧
      (∀ adr, ¬ (s.ctx a).rectHas s.cfg p pidx psize ((s.ctx c).extent w h p) adr →
        v.rmem.read? adr = u.rmem.read? adr) ∧
      ∀ adr, s.IsCopied (s.ctx c) (s.ctx a) pidx psize w h p adr (v.rmem.read? adr) := by
  obtain ⟨m, rfl⟩ := hu
  have hread : ∀ y < ((s.ctx c).extent w h p).h, ∀ x < ((s.ctx c).extent w h p).w,
      State.readR { s with rmem := m } ((s.ctx c).cell s.cfg p pidx psize y x) =
        s.readR ((s.ctx c).cell s.cfg p pidx psize y x) :=
    fun y hy x hx => State.readR_congr (hsource _ (region_contains_cell hbc hy hx)) rfl
  rcases copyRR_cases (s.ctx c) (s.ctx a) pidx psize w h p { s with rmem := m } with ⟨heq, hcopy⟩ | ⟨-, hcopy⟩
  · obtain rfl := (addr_eq_iff hI hc ha hw hh hbc hba).mp heq
    refine ⟨_, hcopy, .refl _, fun _ _ => rfl, ?_⟩
    rintro _ y hy x hx rfl
    rw [← hread y hy x hx, State.readR_eq]
  · have hwidth : ((s.ctx c).extent w h p).w ≤ ((s.ctx a).pw p).toNat :=
      (Nat.le_add_left _ _).trans (Context.inBounds_iff.mp hba).1
    refine ⟨_, hcopy, ⟨_, rfl⟩, fun _ hadr => Mem.read?_writeAll_rectCells_of_not _ _ hadr, ?_⟩
    rintro _ y hy x hx rfl
    rw [State.rawCells, Mem.read?_writeAll_rectCells _ _ hwidth hy hx]
    exact hread y hy x hx

/-- Checked phases copy each its rectangle: a phase writes its own plane of the destination alone, so it leaves the
sources of the later phases and the cells of the earlier ones as they were (10_state R32, 20_memory R67). -/
theorem runPhases_rectsCopied {planes : List Plane} (hnd : planes.Nodup) (hI : s.Inv) (hc : (s.ctx c).ready = true)
    (ha : (s.ctx a).ready = true) (hbc : s.boundsOk (s.ctx c) (s.ctx c) planes pidx psize w h = true)
    (hba : s.boundsOk (s.ctx a) (s.ctx c) planes pidx psize w h = true) :
    ∃ t, runPhases (copyRR (s.ctx c) (s.ctx a) pidx psize w h) ((s.ctx c).plan planes w h) s = .ok t ∧
      RectsCopied s t c a planes pidx psize w h := by
  have hboundsC := State.boundsOk_iff.mp hbc
  have hboundsA := State.boundsOk_iff.mp hba
  have hapart : ∀ p q, p ≠ q → q ∈ (s.ctx c).plan planes w h → ∀ k adr, (s.ctx k).ready = true →
      ((s.ctx k).region p).contains adr = true →
      ¬ (s.ctx a).rectHas s.cfg q pidx psize ((s.ctx c).extent w h q) adr :=
    fun p q hpq hq k adr hk hin =>
      not_rectHas_of_region hI ha (hboundsA q hq) hk hin fun h => hpq (congrArg Prod.snd h)
  obtain ⟨t, hrun, hframe, hout, hin⟩ := runPhases_effect
    (phase := copyRR (s.ctx c) (s.ctx a) pidx psize w h) (m := State.rmem) (Frm := ResidualOnly)
    (R := fun p => (s.ctx a).rectHas s.cfg p pidx psize ((s.ctx c).extent w h p))
    (G := s.IsCopied (s.ctx c) (s.ctx a) pidx psize w h)
    ResidualOnly.refl ResidualOnly.trans (Context.plan_nodup hnd)
    (fun p hp q hq hpq adr ⟨hadr, hadr'⟩ =>
      hapart p q hpq hq a adr ha (region_contains_of_inBounds (hboundsA p hp) hadr) hadr')
    (fun p hp u hu hagree => by
      obtain ⟨hw, hh⟩ := Context.extent_pos hp
      obtain ⟨v, hok, hv, hout, hcopied⟩ := copyRR_of_checked hI hc ha hw hh (hboundsC p hp) (hboundsA p hp) hu
        fun adr hin => hagree adr fun q hq hqp => hapart p q hqp.symm hq c adr hc hin
      exact ⟨v, hok, hv, hout, fun adr _ => hcopied adr⟩)
  refine ⟨t, hrun, hframe, fun p hp y hy x hx => ?_, hout⟩
  rw [← hin p hp _ ⟨y, hy, x, hx, rfl⟩ y hy x hx rfl, State.readR_eq]
  obtain ⟨m, rfl⟩ := hframe
  rfl

end

/-- Settles O28: each of the three is the copy of its channel plan (`exec_of_mem_residualCopies`), whose phases copy the
rectangles (`runPhases_rectsCopied`). -/
theorem residualCopyCopiesTheRectangle : Obligations.ResidualCopyCopiesTheRectangle := by
  intro s c a cid pidx psize w h hI ip hip hwf hc ha hbc hba
  obtain ⟨t, hrun, hcopied⟩ := runPhases_rectsCopied (nodup_of_mem_residualCopies hip) hI hc ha hbc hba
  refine ⟨t.done, ?exec, ?frame, hcopied.inside, hcopied.outside⟩
  case exec =>
    rw [exec_of_mem_residualCopies hip hwf, copyToResidual_of_checked hc ha hbc hba, hrun]
    rfl
  case frame =>
    obtain ⟨m, rfl⟩ := hcopied.frame
    exact State.done_eq _

/-- A CPYRC, whatever it answers, leaves every cell of a Ready context's plane as it was, but where the context is the
destination and the plane is one of its channels (44_copy R166, R176). -/
theorem exec_cpyrc_read?_of_region {s t : State} {c a cid k : Id} {pidx psize w h : Dim} {p : Plane} {adr : Nat}
    (hI : s.Inv) (hexec : exec (.cpyrc c a cid pidx psize w h) s = .next t) (hk : (s.ctx k).ready = true)
    (hin : ((s.ctx k).region p).contains adr = true) (hother : k ≠ a ∨ p ∉ channels cid) :
    t.rmem.read? adr = s.rmem.read? adr := by
  cases completes_of_exec hexec with
  | illegal | rejected => rfl
  | toResidual _ _ _ _ _ _ _ _ u hi hr hb hrun =>
    simp only [Prod.mk.injEq, Instr.cpyrc.injEq, reduceCtorEq, false_and, false_or, or_false] at hi
    obtain ⟨_, ⟨rfl, rfl, rfl, rfl, rfl, rfl, rfl⟩, rfl⟩ := hi
    have ha := hr a (by simp)
    have hba := hb a (by simp)
    have hnd := channelPlan_nodup cid (channels cid) (by simp)
    obtain ⟨u', hrun', hcopied⟩ := runPhases_rectsCopied hnd hI (hr c (by simp)) ha (hb c (by simp)) hba
    obtain rfl : u' = u := Except.ok.inj (hrun'.symm.trans hrun)
    refine hcopied.outside adr fun q hq => not_rectHas_of_region hI ha (State.boundsOk_iff.mp hba q hq) hk hin ?_
    rintro ⟨⟩
    exact hother.elim (· rfl) (· (Context.mem_plan.mp hq).1)
  | toPixel _ _ _ _ _ _ _ _ _ hi => simp at hi

/-- Settles O30: luma and the other channel are planes the copy does not name, another context is not its destination
(`exec_cpyrc_read?_of_region`). -/
theorem singleChannelCopyTouchesOneChannel : Obligations.SingleChannelCopyTouchesOneChannel := by
  intro s t c a cid pidx psize w h hI hexec ha
  refine ⟨?cb, ?cr, fun d p adr hda hd hin => exec_cpyrc_read?_of_region hI hexec hd hin (.inl hda)⟩
  case cb =>
    rintro rfl adr (hin | hin) <;> exact exec_cpyrc_read?_of_region hI hexec ha hin (.inr (by decide))
  case cr =>
    rintro rfl adr (hin | hin) <;> exact exec_cpyrc_read?_of_region hI hexec ha hin (.inr (by decide))

/-! ### CPYRA in two commands -/

section

variable {S D : Context} {pidx psize w h : Dim}

/-- A phase of a residual-to-residual copy does not see the pending response. -/
theorem copyRR_done {p : Plane} {s t : State} (hcopy : copyRR S D pidx psize w h p s = .ok t) :
    copyRR S D pidx psize w h p s.done = .ok t.done := by
  rcases copyRR_cases S D pidx psize w h p s with ⟨heq, hcases⟩ | ⟨hne, hcases⟩
  · rw [hcases] at hcopy
    cases hcopy
    exact if_pos heq
  · rw [hcases] at hcopy
    cases hcopy
    exact if_neg hne

/-- Nor do its phases together. -/
theorem copyRR_phases_done {ps : List Plane} {s t : State}
    (hrun : runPhases (copyRR S D pidx psize w h) ps s = .ok t) :
    runPhases (copyRR S D pidx psize w h) ps s.done = .ok t.done := by
  induction ps generalizing s with
  | nil =>
    cases hrun
    rfl
  | cons p ps ih =>
    simp only [runPhases] at hrun ⊢
    split at hrun
    · next u hcopy =>
      rw [copyRR_done hcopy]
      exact ih hrun
    · cases hrun

end

/-- The bounds check of two lists of planes is that of each. -/
theorem boundsOk_append (s : State) (X T : Context) (ps qs : List Plane) (pidx psize w h : Dim) :
    s.boundsOk X T (ps ++ qs) pidx psize w h =
      (s.boundsOk X T ps pidx psize w h && s.boundsOk X T qs pidx psize w h) := by
  simp only [State.boundsOk, Context.plan, List.filter_append, List.all_append]

/-- A residual-to-residual copy of two lists of planes that answers OK is the copy of the first list, then that of the
second: the first changes neither parameters nor contexts, so the second's checks pass too. -/
theorem copyToResidual_append {ps qs : List Plane} {c a : Id} {pidx psize w h : Dim} {s t : State}
    (hcopy : copyToResidual (ps ++ qs) c a pidx psize w h s = .next t) (hok : t.respPort = some 0) :
    ∃ t1, copyToResidual ps c a pidx psize w h s = .next t1 ∧ t1.respPort = some 0 ∧ t1.cfg = s.cfg ∧
      copyToResidual qs c a pidx psize w h t1 = .next t := by
  obtain ⟨hc, ha, hbc, hba, u, hrun, rfl⟩ := copyToResidual_ok hcopy hok
  simp only [boundsOk_append, Bool.and_eq_true] at hbc hba
  obtain ⟨hbc, hbc'⟩ := hbc
  obtain ⟨hba, hba'⟩ := hba
  rw [show (s.ctx c).plan (ps ++ qs) w h = _ from List.filter_append .., runPhases_append] at hrun
  split at hrun
  · next u1 hfirst =>
    refine ⟨u1.done, ?_, congrArg some okResponse_eq, ?_⟩
    · rw [copyToResidual_of_checked hc ha hbc hba]
      exact congrArg finish hfirst
    · obtain ⟨m, rfl⟩ := copyRR_phases_frame hfirst
      refine ⟨rfl, ?_⟩
      rw [copyToResidual_of_checked (s := State.done { s with rmem := m }) hc ha hbc' hba']
      exact congrArg finish (copyRR_phases_done hrun)
  · cases hrun

/-- Settles O31: CPYRA's channel plan is CPYRL's followed by that of CPYRC with both channels (44_copy R161,
`copyToResidual_append`). -/
theorem copyAllIsLumaThenBothChroma : Obligations.CopyAllIsLumaThenBothChroma := by
  intro s t c a cid pidx psize w h h0 h1 hexec hok
  have hwf := wf_of_exec_ok hexec hok
  have hboth : chromaPlanes cid = [.cb, .cr] := by rw [chromaPlanes, if_neg h0, if_neg h1]
  have hcopy : copyToResidual ([.y] ++ chromaPlanes cid) c a pidx psize w h s = .next t := by
    rw [hboth, ← hexec]
    exact ((whenLegal_eq _ _ _).1 hwf).symm
  obtain ⟨t1, hluma, hok1, hcfg, hchroma⟩ := copyToResidual_append hcopy hok
  refine ⟨t1, ((whenLegal_eq _ _ _).1 hwf).trans hluma, hok1, ((whenLegal_eq _ _ _).1 ?_).trans hchroma⟩
  rw [hcfg]
  exact hwf

end Sys2Proof.Machine
end

section
/-! The residual-to-pixel copies (spec/44_copy.md): the samples they narrow into the pixel planes (R168, R170 to R173,
R187) and their port requests (R168, R169, R173, R181, R189). -/

open Sys2Proof.Claims

namespace Sys2Proof.Machine

/-! ### The samples -/

/-- `t` differs from `s` by runs of the copy kernel: PMEM, the counter of free values, the ports' trace. -/
def PixelsOnly (s t : State) : Prop := ∃ m n es, t = { s with pmem := m, draws := n, trace := es }

theorem PixelsOnly.refl (s : State) : PixelsOnly s s := ⟨_, _, _, rfl⟩

theorem PixelsOnly.trans {s t u : State} (h : PixelsOnly s t) (k : PixelsOnly t u) : PixelsOnly s u := by
  obtain ⟨m, n, es, rfl⟩ := h
  obtain ⟨m', n', es', rfl⟩ := k
  exact ⟨_, _, _, rfl⟩

/-- `o` is the low PIXW bits of one of the samples of plane `p` that a copy sends to PMEM address `adr`
(44_copy R170; log entry 23). -/
def State.IsNarrowed (s : State) (S : Context) (d : PixelBuffer) (pidx psize w h : Dim) (p : Plane) (adr : Nat)
    (o : Option Sample) : Prop :=
  ∃ y < (S.extent w h p).h, ∃ x < (S.extent w h p).w, adr = d.cell s.cfg p pidx psize y x ∧
    o = some (truncTo s.cfg.pixw (s.readR (S.cell s.cfg p pidx psize y x)))

section

variable {s : State} {c a : Id} {pidx psize w h : Dim} {d : PixelBuffer}

/-- One phase, its checks passed, in the state the earlier phases led to: it narrows the source's samples into its
rectangle of the pixel plane and touches no other pixel cell (44_copy R168, 45_external_interfaces R187). -/
theorem copyRP_of_checked {p : Plane} {u : State} (hI : s.Inv) (hc : (s.ctx c).ready = true)
    (hw : 0 < ((s.ctx c).extent w h p).w) (hh : 0 < ((s.ctx c).extent w h p).h)
    (hb : (s.ctx c).inBounds s.cfg p pidx psize ((s.ctx c).extent w h p) = true) (hd : s.pbuf a = some d)
    (hholds : d.holds s.cfg p pidx psize ((s.ctx c).extent w h p) = true) (hu : PixelsOnly s u) :
    ∃ v, copyRP (s.ctx c) a pidx psize w h p u = .ok v ∧ PixelsOnly u v ∧
      (∀ adr, ¬ pixelRectHas s.cfg d p pidx psize ((s.ctx c).extent w h p) adr →
        v.pmem.read? adr = u.pmem.read? adr) ∧
      ∀ adr, pixelRectHas s.cfg d p pidx psize ((s.ctx c).extent w h p) adr →
        s.IsNarrowed (s.ctx c) d pidx psize w h p adr (v.pmem.read? adr) := by
  obtain ⟨m, n, es, rfl⟩ := hu
  obtain ⟨hew, heh⟩ := (s.ctx c).extent_ofNat w h p
  have hcells := fun adr => State.read?_writeAll_narrowCells { s with pmem := m, draws := n, trace := es } m
    (d.pointer s.cfg p pidx psize) (d.plane p).stride.toNat ((s.ctx c).addr s.cfg p pidx psize)
    ((s.ctx c).pw p).toNat ((s.ctx c).extent w h p) adr
  have hcopy := copyRP_eq (s := { s with pmem := m, draws := n, trace := es }) hd hholds
  rw [PixelBuffer.holds_pointer hholds hw, addr32_toNat_of_inBounds hI hc hb hw hh, hew, heh] at hcopy
  exact ⟨_, hcopy, ⟨_, _, _, rfl⟩, fun adr => (hcells adr).2, fun adr => (hcells adr).1⟩

/-- Phases into pixel rectangles that share no cell narrow each its own (44_copy R168, R173). -/
theorem runPhases_narrowed {planes : List Plane} (hnd : planes.Nodup) (hI : s.Inv) (hc : (s.ctx c).ready = true)
    (hb : s.boundsOk (s.ctx c) (s.ctx c) planes pidx psize w h = true) (hd : s.pbuf a = some d)
    (hholds : ∀ p ∈ (s.ctx c).plan planes w h, d.holds s.cfg p pidx psize ((s.ctx c).extent w h p) = true)
    (hapart : ∀ p ∈ (s.ctx c).plan planes w h, ∀ q ∈ (s.ctx c).plan planes w h, p ≠ q → ∀ adr,
      ¬ (pixelRectHas s.cfg d p pidx psize ((s.ctx c).extent w h p) adr ∧
        pixelRectHas s.cfg d q pidx psize ((s.ctx c).extent w h q) adr)) :
    ∃ t, runPhases (copyRP (s.ctx c) a pidx psize w h) ((s.ctx c).plan planes w h) s = .ok t ∧ PixelsOnly s t ∧
      (∀ adr, (∀ p ∈ (s.ctx c).plan planes w h,
          ¬ pixelRectHas s.cfg d p pidx psize ((s.ctx c).extent w h p) adr) →
        t.pmem.read? adr = s.pmem.read? adr) ∧
      ∀ p ∈ (s.ctx c).plan planes w h, ∀ adr, pixelRectHas s.cfg d p pidx psize ((s.ctx c).extent w h p) adr →
        s.IsNarrowed (s.ctx c) d pidx psize w h p adr (t.pmem.read? adr) :=
  runPhases_effect (m := State.pmem) (Frm := PixelsOnly) PixelsOnly.refl PixelsOnly.trans (Context.plan_nodup hnd)
    hapart fun p hp _ hu _ =>
      have ⟨hw, hh⟩ := Context.extent_pos hp
      copyRP_of_checked hI hc hw hh (State.boundsOk_iff.mp hb p hp) hd (hholds p hp) hu

/-- A cell that holds a narrowed sample reads as that sample modulo `2^PIXW`. -/
theorem State.IsNarrowed.readP {t : State} {S : Context} {p : Plane} {adr : Nat}
    (hn : s.IsNarrowed S d pidx psize w h p adr (t.pmem.read? adr)) :
    ∃ y < (S.extent w h p).h, ∃ x < (S.extent w h p).w, adr = d.cell s.cfg p pidx psize y x ∧
      (t.readP adr).toNat = (s.readR (S.cell s.cfg p pidx psize y x)).toNat % 2 ^ s.cfg.pixw := by
  obtain ⟨y, hy, x, hx, hadr, hread⟩ := hn
  refine ⟨y, hy, x, hx, hadr, ?_⟩
  rw [State.readP, hread]
  exact truncTo_toNat _ _

end

/-- Settles O32: each of the three is the copy of its channel plan (`exec_of_mem_pixelCopies`), whose phases leave in
each cell of their rectangles the narrowing of a sample that goes there (`runPhases_narrowed`); where only one does, it
is that one's. -/
theorem pixelCopyTruncates : Obligations.PixelCopyTruncates := by
  intro s c a cid pidx psize w h d hI ip hip hwf hc hb hd hholds hapart
  obtain ⟨t, hrun, hframe, hout, hin⟩ :=
    runPhases_narrowed (nodup_of_mem_pixelCopies hip) hI hc hb hd hholds hapart
  have hnarrowed := fun p hp adr hadr => (hin p hp adr hadr).readP
  refine ⟨t.done, ?exec, ?frame, ?single, hnarrowed, hout⟩
  case exec =>
    rw [exec_of_mem_pixelCopies hip hwf, copyToPixel_of_checked hc hb, hrun]
    rfl
  case frame =>
    obtain ⟨m, n, es, rfl⟩ := hframe
    exact State.done_eq _
  case single =>
    intro p hp y hy x hx hunique
    obtain ⟨y', hy', x', hx', hadr, hread⟩ := hnarrowed p hp _ ⟨y, hy, x, hx, rfl⟩
    dsimp only [PixelBuffer.cell] at hadr
    obtain ⟨rfl, rfl⟩ := hunique y' hy' x' hx' (by omega)
    exact hread

/-! ### The ports -/

/-- The record of a copy phase, with the luma width and height shifted to the plane's (44_copy R168, R169). -/
theorem copyRecord_eq (cfg : Config) (S : Context) (p : Plane) (pidx psize w h : Dim) (q : Addr × Dim) :
    copyRecord cfg S p pidx psize w h q =
      .copy (w >>> S.hs p) (h >>> S.vs p) q.1 q.2 (S.addr32 cfg p pidx psize) (S.pw p) := by
  obtain ⟨hew, heh⟩ := S.extent_ofNat w h p
  have hwidth : BitVec.ofNat 16 (S.extent w h p).w = w >>> S.hs p := BitVec.eq_of_toNat_eq hew
  have hheight : BitVec.ofNat 16 (S.extent w h p).h = h >>> S.vs p := BitVec.eq_of_toNat_eq heh
  rw [copyRecord, hwidth, hheight]

/-- Settles O33: a copy that answers OK ran its phases (`copyToPixel_ok`), each with its query and its record
(`copyRP_eq`, `copyRecord_eq`). -/
theorem pixelCopyPortTrace : Obligations.PixelCopyPortTrace := by
  intro s t c a cid pidx psize w h d hd ip hip hexec hok
  rw [exec_of_mem_pixelCopies hip (wf_of_exec_ok hexec hok)] at hexec
  obtain ⟨u, hrun, rfl⟩ := copyToPixel_ok hexec hok
  rw [State.done_trace]
  refine runPhases_trace (P := PixelsOnly s) hrun (.refl s) fun p _ v v' hv hphase => ?_
  obtain ⟨m, n, es, rfl⟩ := hv
  obtain ⟨d', hd', hholds⟩ := copyRP_ok hphase
  obtain rfl : d = d' := Option.some.inj (hd.symm.trans hd')
  rw [copyRP_eq hd' hholds, copyRecord_eq] at hphase
  cases hphase
  exact ⟨⟨_, _, _, rfl⟩, rfl⟩

end Sys2Proof.Machine
end

section
/-! The external interfaces (spec/45_external_interfaces.md): when a command faults at the pixel-buffer port (R190,
R228, 93_implementation_defined U3), and what the unit guarantees of the kernel records it sends (R183). -/

open Sys2Proof.Claims

namespace Sys2Proof.Machine

/-! ### How a command can end -/

/-- Why a command that met a fault met it: a phase of a SUB of a Ready context, or of a residual-to-pixel copy,
faulted. -/
def PhasesFault (s : State) (i : Instr) (f : Fault) : Prop :=
  match i with
  | .sub c a b pidx psize => (s.ctx c).ready = true ∧
      runPhases (subPhase (s.ctx c) a b pidx psize) ((s.ctx c).squarePlan psize) s = .error f
  | .cpypl c a pidx psize w h =>
      runPhases (copyRP (s.ctx c) a pidx psize w h) ((s.ctx c).plan [.y] w h) s = .error f
  | .cpypc c a cid pidx psize w h =>
      runPhases (copyRP (s.ctx c) a pidx psize w h) ((s.ctx c).plan (channels cid) w h) s = .error f
  | .cpypa c a pidx psize w h =>
      runPhases (copyRP (s.ctx c) a pidx psize w h) ((s.ctx c).plan allPlanes w h) s = .error f
  | _ => False

section

variable {s : State} {c a b : Id} {pidx psize w h : Dim} {planes : List Plane}

/-- The end of a command's effects is a next state or the fault of its phases, never a refusal. -/
theorem finish_outcome (r : Except Fault State) :
    (∃ t, finish r = .next t) ∨ ∃ f, finish r = .fault f ∧ r = .error f := by
  cases r with
  | ok u => exact .inl ⟨u.done, rfl⟩
  | error f => exact .inr ⟨f, rfl, rfl⟩

/-- The phases of a residual-to-residual copy always complete. -/
theorem copyToResidual_outcome : ∃ t, copyToResidual planes c a pidx psize w h s = .next t := by
  unfold copyToResidual
  dsimp only
  split
  · split
    · obtain ⟨u, hrun, -⟩ := runPhases_completes (phase := copyRR (s.ctx c) (s.ctx a) pidx psize w h)
        (P := fun _ => True) (ps := (s.ctx c).plan planes w h) (s := s) trivial fun p _ u _ => by
          rcases copyRR_cases (s.ctx c) (s.ctx a) pidx psize w h p u with ⟨-, hcopy⟩ | ⟨-, hcopy⟩ <;>
            exact ⟨_, hcopy, trivial⟩
      rw [hrun]
      exact ⟨_, rfl⟩
    · exact ⟨_, rfl⟩
  · exact ⟨_, rfl⟩

/-- A residual-to-pixel copy answers, or ends in the fault of its phases. -/
theorem copyToPixel_outcome : (∃ t, copyToPixel planes c a pidx psize w h s = .next t) ∨
    ∃ f, copyToPixel planes c a pidx psize w h s = .fault f ∧
      runPhases (copyRP (s.ctx c) a pidx psize w h) ((s.ctx c).plan planes w h) s = .error f := by
  unfold copyToPixel
  dsimp only
  split
  · split
    · exact finish_outcome _
    · exact .inl ⟨_, rfl⟩
  · exact .inl ⟨_, rfl⟩

/-- The phases of an ADDCLIP always complete. -/
theorem execAddclip_outcome (hwf : (Instr.addclip c a b pidx psize).wf s.cfg = true) :
    ∃ t, execAddclip c a b pidx psize s = .next t := by
  rw [execAddclip, (whenLegal_eq _ _ _).1 hwf]
  dsimp only
  split
  · split
    · obtain ⟨u, hrun, -⟩ := runPhases_completes
        (phase := fun p u => kinvoke (addRecord u.cfg (s.ctx c) (s.ctx a) (s.ctx b) p pidx psize) u)
        (P := fun _ => True) (ps := (s.ctx c).plan allPlanes psize psize) (s := s) trivial
        fun p _ u _ => ⟨_, addPhase_eq _ _ _ _ _ _ _ _, trivial⟩
      rw [hrun]
      exact ⟨_, rfl⟩
    · exact ⟨_, rfl⟩
  · exact ⟨_, rfl⟩

/-- A SUB answers, or ends in the fault of its phases. -/
theorem execSub_outcome (hwf : (Instr.sub c a b pidx psize).wf s.cfg = true) :
    (∃ t, execSub c a b pidx psize s = .next t) ∨
      ∃ f, execSub c a b pidx psize s = .fault f ∧ PhasesFault s (.sub c a b pidx psize) f := by
  rw [execSub, (whenLegal_eq _ _ _).1 hwf]
  dsimp only
  split
  · next hr =>
    split
    · exact (finish_outcome _).imp_right fun ⟨f, hfault, hrun⟩ => ⟨f, hfault, hr, hrun⟩
    · exact .inl ⟨_, rfl⟩
  · exact .inl ⟨_, rfl⟩

end

/-- Every command ends in a next state, or in the fault of its phases: none is refused. -/
theorem exec_outcome (s : State) (i : Instr) :
    (∃ t, exec i s = .next t) ∨ ∃ f, exec i s = .fault f ∧ PhasesFault s i f := by
  by_cases hwf : i.wf s.cfg = true
  swap
  · exact .inl ⟨_, exec_illegal (Bool.eq_false_iff.mpr hwf)⟩
  have hlegal := fun k => (whenLegal_eq i s k).1 hwf
  cases i with
  | create c csp w h =>
    simp only [exec, execCreate, hlegal]
    split <;> exact .inl ⟨_, rfl⟩
  | destroy c => exact .inl ⟨_, hlegal _⟩
  | clear c =>
    simp only [exec, execClear, hlegal]
    split <;> exact .inl ⟨_, rfl⟩
  | rdctx c f => exact .inl ⟨_, hlegal _⟩
  | addr c p pidx psize =>
    simp only [exec, execAddr, hlegal]
    split
    · split <;> exact .inl ⟨_, rfl⟩
    · exact .inl ⟨_, rfl⟩
  | sub => exact execSub_outcome hwf
  | addclip => exact .inl (execAddclip_outcome hwf)
  | cpyrl | cpyrc | cpyra =>
    obtain ⟨t, hcopy⟩ := copyToResidual_outcome
    exact .inl ⟨t, (hlegal _).trans hcopy⟩
  | cpypl | cpypc | cpypa =>
    rcases copyToPixel_outcome with ⟨t, hcopy⟩ | ⟨f, hcopy, hrun⟩
    · exact .inl ⟨t, (hlegal _).trans hcopy⟩
    · exact .inr ⟨f, (hlegal _).trans hcopy, hrun⟩

/-! ### The address queries of a command -/

/-- `u` has the parameters and the pixel-buffer descriptors of `s`, on which the answers of the pixel-buffer port
depend (45_external_interfaces R189). -/
structure SameQueries (s u : State) : Prop where
  cfg : u.cfg = s.cfg
  pbuf : u.pbuf = s.pbuf

theorem SameQueries.refl (s : State) : SameQueries s s := ⟨rfl, rfl⟩

theorem SameQueries.trans {s t u : State} (h : SameQueries s t) (k : SameQueries t u) : SameQueries s u :=
  ⟨k.cfg.trans h.cfg, k.pbuf.trans h.pbuf⟩

section

variable {s t u : State} {pb a b : Id} {p : Plane} {pidx psize w h : Dim} {S T : Context} {f g : Fault}
  {planes : List Plane}

/-- A query faults for the same reason in every state with the same parameters and descriptors. -/
theorem SameQueries.pixAddr_error {e : Extent} (hu : SameQueries s u) :
    pixAddr pb p pidx psize e u = .error f ↔ pixAddr pb p pidx psize e s = .error f := by
  rw [Machine.pixAddr_error, Machine.pixAddr_error, hu.cfg, hu.pbuf]

theorem SameQueries.subPhase (h : subPhase T a b pidx psize p s = .ok t) : SameQueries s t := by
  obtain ⟨ws, es, rfl⟩ := subPhase_frame h
  exact ⟨rfl, rfl⟩

theorem SameQueries.copyRP (hok : copyRP S pb pidx psize w h p s = .ok t) : SameQueries s t := by
  obtain ⟨d, hd, hholds⟩ := copyRP_ok hok
  rw [copyRP_eq hd hholds] at hok
  cases hok
  exact ⟨rfl, rfl⟩

/-- What `pixelFault` says: the query of some active plane faults. -/
theorem pixelFault_iff : pixelFault s T pb planes pidx psize w h f ↔
    ∃ p ∈ T.plan planes w h, pixAddr pb p pidx psize (T.extent w h p) s = .error f := by
  simp only [pixelFault, pixAddr_error]
  constructor
  · rintro (⟨hf, hnone, hplan⟩ | ⟨hf, d, hd, p, hp, hholds⟩)
    · obtain ⟨p, hp⟩ := List.exists_mem_of_ne_nil _ hplan
      exact ⟨p, hp, .inl ⟨hf, hnone⟩⟩
    · exact ⟨p, hp, .inr ⟨hf, d, hd, hholds⟩⟩
  · rintro ⟨p, hp, ⟨hf, hnone⟩ | ⟨hf, d, hd, hholds⟩⟩
    · exact .inl ⟨hf, hnone, List.ne_nil_of_mem hp⟩
    · exact .inr ⟨hf, d, hd, p, hp, hholds⟩

/-- The queries of one pixel buffer fault for one reason: the buffer is live or it is not. -/
theorem pixelFault_unique (hf : pixelFault s T pb planes pidx psize w h f)
    (hg : pixelFault s T pb planes pidx psize w h g) : f = g := by
  rcases hf with ⟨rfl, hnone, -⟩ | ⟨rfl, d, hd, -⟩ <;> rcases hg with ⟨rfl, hnone', -⟩ | ⟨rfl, d', hd', -⟩
  · rfl
  · rw [hnone] at hd'
    cases hd'
  · rw [hd] at hnone'
    cases hnone'
  · rfl

/-- A narrowing copy faults only where its query does. -/
theorem pixAddr_error_of_copyRP (hf : copyRP S pb pidx psize w h p s = .error f) :
    pixAddr pb p pidx psize (S.extent w h p) s = .error f :=
  pixAddr_error.mpr (copyRP_error hf)

/-- A query of a live buffer whose plane holds the rectangle is answered. -/
theorem pixAddr_ne_error {e : Extent} {d : PixelBuffer} (hd : s.pbuf pb = some d)
    (hholds : d.holds s.cfg p pidx psize e = true) : pixAddr pb p pidx psize e s ≠ .error f := by
  rw [pixAddr_ok.mpr ⟨d, hd, hholds, rfl, rfl⟩]
  nofun

/-- A narrowing copy that completes has its query answered. -/
theorem pixAddr_ne_error_of_copyRP (hok : copyRP S pb pidx psize w h p s = .ok t) :
    pixAddr pb p pidx psize (S.extent w h p) s ≠ .error f := by
  obtain ⟨d, hd, hholds⟩ := copyRP_ok hok
  exact pixAddr_ne_error hd hholds

/-- A subtract phase that completes has both its queries answered. -/
theorem pixAddr_ne_error_of_subPhase (hok : subPhase T a b pidx psize p s = .ok t) (hpb : pb = a ∨ pb = b) :
    pixAddr pb p pidx psize (T.extent psize psize p) s ≠ .error f := by
  obtain ⟨dA, dB, hA, hB, hdA, hdB⟩ := subPhase_ok hok
  rcases hpb with rfl | rfl
  · exact pixAddr_ne_error hA hdA
  · exact pixAddr_ne_error hB hdB

/-- Phases that complete together each complete, from a state the earlier ones led to. -/
theorem runPhases_ok_each {phase : Plane → State → Except Fault State} {P : State → Prop} :
    ∀ {ps : List Plane} {s t : State}, runPhases phase ps s = .ok t → P s →
      (∀ p ∈ ps, ∀ u v, P u → phase p u = .ok v → P v) → ∀ p ∈ ps, ∃ u v, P u ∧ phase p u = .ok v
  | [], _, _, _, _, _, _, hp => by cases hp
  | q :: ps, s, t, hrun, hs, hkeep, p, hp => by
    simp only [runPhases] at hrun
    split at hrun
    · next u hu =>
      rcases List.mem_cons.mp hp with rfl | hp
      · exact ⟨s, u, hs, hu⟩
      · exact runPhases_ok_each hrun (hkeep q List.mem_cons_self s u hs hu)
          (fun r hr => hkeep r (List.mem_cons_of_mem _ hr)) p hp
    · cases hrun

/-- The phases of a residual-to-pixel copy fault only where a query of an active plane does. -/
theorem pixelFault_of_copyRP_phases
    (hrun : runPhases (copyRP S pb pidx psize w h) (S.plan planes w h) s = .error f) :
    pixelFault s S pb planes pidx psize w h f := by
  obtain ⟨p, hp, u, hu, hphase⟩ := runPhases_error (P := SameQueries s) hrun (.refl s)
    fun p _ u v hu hv => hu.trans (.copyRP hv)
  exact pixelFault_iff.mpr ⟨p, hp, hu.pixAddr_error.mp (pixAddr_error_of_copyRP hphase)⟩

/-- Phases of a residual-to-pixel copy that complete have every query answered. -/
theorem not_pixelFault_of_copyRP_phases
    (hrun : runPhases (copyRP S pb pidx psize w h) (S.plan planes w h) s = .ok t) :
    ¬ pixelFault s S pb planes pidx psize w h f := by
  intro hfault
  obtain ⟨p, hp, hquery⟩ := pixelFault_iff.mp hfault
  obtain ⟨u, v, hu, hphase⟩ := runPhases_ok_each (P := SameQueries s) hrun (.refl s)
    (fun p _ u v hu hv => hu.trans (.copyRP hv)) p hp
  exact pixAddr_ne_error_of_copyRP hphase (hu.pixAddr_error.mpr hquery)

/-- The phases of a SUB, its colour space defined, fault only where a query of one of its pixel buffers does. -/
theorem pixelFault_of_subPhases (hcsp : s.cfg.cspShift T.csp ≠ none)
    (hrun : runPhases (subPhase T a b pidx psize) (T.squarePlan psize) s = .error f) :
    pixelFault s T a allPlanes pidx psize psize psize f ∨ pixelFault s T b allPlanes pidx psize psize psize f := by
  obtain ⟨p, hp, u, hu, hphase⟩ := runPhases_error (P := SameQueries s) hrun (.refl s)
    fun p _ u v hu hv => hu.trans (.subPhase hv)
  rcases subPhase_error hphase with ⟨pb, hpb, hquery⟩ | ⟨-, -, hnone⟩
  · have hfault : pixelFault s T pb allPlanes pidx psize psize psize f :=
      pixelFault_iff.mpr ⟨p, hp, hu.pixAddr_error.mp (pixAddr_error.mpr hquery)⟩
    rcases hpb with rfl | rfl
    · exact .inl hfault
    · exact .inr hfault
  · rw [hu.cfg] at hnone
    exact absurd hnone hcsp

/-- Phases of a SUB that complete have every query of both pixel buffers answered. -/
theorem not_pixelFault_of_subPhases (hpb : pb = a ∨ pb = b)
    (hrun : runPhases (subPhase T a b pidx psize) (T.squarePlan psize) s = .ok t) :
    ¬ pixelFault s T pb allPlanes pidx psize psize psize f := by
  intro hfault
  obtain ⟨p, hp, hquery⟩ := pixelFault_iff.mp hfault
  obtain ⟨u, v, hu, hphase⟩ := runPhases_ok_each (P := SameQueries s) hrun (.refl s)
    (fun p _ u v hu hv => hu.trans (.subPhase hv)) p hp
  exact pixAddr_ne_error_of_subPhase hphase hpb (hu.pixAddr_error.mpr hquery)

end

/-! ### When a command faults -/

/-- A Ready context's colour space is one the kernel table knows (10_state R28, 40_lifecycle R101). -/
theorem State.Inv.csp_defined {s : State} {c : Id} (hI : s.Inv) (hr : (s.ctx c).ready = true) :
    s.cfg.cspShift (s.ctx c).csp ≠ none := by
  have hok := hI.ctxOk c
  simp only [Context.Ok, hr, if_true] at hok
  obtain ⟨hrow, -⟩ := hok
  simp [hrow]

/-- Settles O39: a command that does not answer met the fault of its phases (`exec_outcome`), which is one of their
address queries' (`pixelFault_of_subPhases`, `pixelFault_of_copyRP_phases`). -/
theorem onlyThePixelSideFaults : Obligations.OnlyThePixelSideFaults := by
  intro s i
  rcases exec_outcome s i with ⟨t, hnext⟩ | ⟨f', hfault, hphases⟩
  · rw [hnext]
    exact ⟨nofun, nofun⟩
  rw [hfault]
  refine ⟨nofun, ?_⟩
  rintro f hI ⟨⟩
  cases i with
  | sub c a b pidx psize =>
    obtain ⟨hr, hrun⟩ := hphases
    exact pixelFault_of_subPhases (hI.csp_defined hr) hrun
  | cpypl | cpypc | cpypa => exact pixelFault_of_copyRP_phases hphases
  | create | destroy | clear | rdctx | addr | addclip | cpyrl | cpyrc | cpyra => exact hphases

/-- Settles O40: the command is its phases (`exec_sub`, `copyToPixel_of_checked`), which do not all complete where a
query faults, and so fault as a query does. -/
theorem deadOrOutsidePixelRectanglesFault : Obligations.DeadOrOutsidePixelRectanglesFault := by
  refine ⟨fun s c a b pidx psize pb f hI hwf hr hb hpb hfault => ?sub,
    fun s c a cid pidx psize w h f ip hip hwf hr hb hfault => ?copy⟩
  case sub =>
    rw [exec_sub hwf hr hb]
    cases hrun : runPhases (subPhase (s.ctx c) a b pidx psize) ((s.ctx c).squarePlan psize) s with
    | ok t => exact absurd hfault (not_pixelFault_of_subPhases hpb hrun)
    | error g => exact ⟨g, rfl, pixelFault_of_subPhases (hI.csp_defined hr) hrun⟩
  case copy =>
    rw [exec_of_mem_pixelCopies hip hwf, copyToPixel_of_checked hr hb]
    cases hrun : runPhases (copyRP (s.ctx c) a pidx psize w h) ((s.ctx c).plan ip.2 w h) s with
    | ok t => exact absurd hfault (not_pixelFault_of_copyRP_phases hrun)
    | error g =>
      obtain rfl := pixelFault_unique hfault (pixelFault_of_copyRP_phases hrun)
      rfl

/-! ### What a record's RMEM and PMEM sides are -/

section

variable {s : State} {c k a b : Id} {p : Plane} {pidx psize w h : Dim} {planes : List Plane} {new : List PortEvent}

/-- The address and stride of a checked rectangle of an active plane are a record's RMEM side (R183 a). -/
theorem residualSide_of_checked (hI : s.Inv) (hr : (s.ctx k).ready = true) (hp : p ∈ (s.ctx c).plan planes w h)
    (hb : (s.ctx k).inBounds s.cfg p pidx psize ((s.ctx c).extent w h p) = true) :
    residualSide s k p pidx psize ((s.ctx k).addr32 s.cfg p pidx psize) ((s.ctx k).pw p)
      ((s.ctx c).extent w h p) := by
  obtain ⟨hw, hh⟩ := Context.extent_pos hp
  have haddr := addr32_toNat_of_inBounds hI hr hb hw hh
  refine ⟨hr, hw, hh, hb, haddr, rfl, fun adr hadr => ?_⟩
  rw [haddr] at hadr
  exact region_contains_of_inBounds hb hadr

/-- A record's 16-bit width and height give the rectangle's extent back. -/
theorem Context.extent_of_ofNat (T : Context) (w h : Dim) (p : Plane) :
    ({ w := (BitVec.ofNat 16 (T.extent w h p).w).toNat, h := (BitVec.ofNat 16 (T.extent w h p).h).toNat } : Extent) =
      T.extent w h p := by
  obtain ⟨hw, hh⟩ := T.extent_ofNat w h p
  rw [hw, hh]

/-- The sizes of SUB_SIZES, and their classes (00_scope R11). -/
theorem subSizeOk_class (hz : subSizeOk psize = true) :
    psize.toNat ∈ [4, 8, 16, 32, 64] ∧ psize.toNat = 2 ^ ((sizeClass psize).toNat + 2) :=
  ⟨List.contains_iff_mem.mp hz, (classSide_sizeClass hz).symm⟩

/-- The record of a SUB phase after its two queries (42_subtract R141, R143). -/
theorem recordGuaranteed_subRecord {qa qb : Addr × Dim} (hI : s.Inv) (hr : (s.ctx c).ready = true)
    (hz : subSizeOk psize = true) (hp : p ∈ (s.ctx c).squarePlan psize)
    (hb : (s.ctx c).inBounds s.cfg p pidx psize ((s.ctx c).extent psize psize p) = true)
    (ha : .pixAddr a p pidx psize qa.1 qa.2 ∈ new) (hb' : .pixAddr b p pidx psize qb.1 qb.2 ∈ new) :
    recordGuaranteed s (.sub c a b pidx psize) new (subRecord s.cfg (s.ctx c) p pidx psize qa qb) := by
  have hside := residualSide_of_checked hI hr hp hb
  obtain ⟨hmem, hclass⟩ := subSizeOk_class hz
  cases p with
  | y => exact ⟨c, a, b, pidx, psize, rfl, hmem, hclass, hside, ha, hb'⟩
  | cb => exact ⟨c, a, b, pidx, psize, .cb, rfl, by decide, hmem, hclass, rfl, hside, ha, hb'⟩
  | cr => exact ⟨c, a, b, pidx, psize, .cr, rfl, by decide, hmem, hclass, rfl, hside, ha, hb'⟩

/-- The record of an ADDCLIP phase (43_addclip R151, R152). -/
theorem recordGuaranteed_addRecord (hI : s.Inv) (hr : ∀ k ∈ [c, a, b], (s.ctx k).ready = true)
    (hp : p ∈ (s.ctx c).squarePlan psize)
    (hb : ∀ k ∈ [c, a, b], (s.ctx k).inBounds s.cfg p pidx psize ((s.ctx c).extent psize psize p) = true) :
    recordGuaranteed s (.addclip c a b pidx psize) new
      (addRecord s.cfg (s.ctx c) (s.ctx a) (s.ctx b) p pidx psize) := by
  have hside := fun k hk => residualSide_of_checked hI (hr k hk) hp (hb k hk)
  rw [← (s.ctx c).extent_of_ofNat psize psize p] at hside
  exact ⟨c, a, b, pidx, psize, p, rfl, hside c (by simp), hside a (by simp), hside b (by simp)⟩

/-- The record of a narrowing copy's phase after its query (44_copy R168, R169). -/
theorem recordGuaranteed_copyRecord {i : Instr} {q : Addr × Dim} (hI : s.Inv)
    (hi : copyOperands i = some (c, a, pidx, psize)) (hr : (s.ctx c).ready = true)
    (hp : p ∈ (s.ctx c).plan planes w h)
    (hb : (s.ctx c).inBounds s.cfg p pidx psize ((s.ctx c).extent w h p) = true)
    (hq : .pixAddr a p pidx psize q.1 q.2 ∈ new) :
    recordGuaranteed s i new (copyRecord s.cfg (s.ctx c) p pidx psize w h q) := by
  have hside := residualSide_of_checked hI hr hp hb
  rw [← (s.ctx c).extent_of_ofNat w h p] at hside
  exact ⟨c, a, pidx, psize, p, hi, hside, hq⟩

/-- A record's guarantees speak of what was asked, so further requests leave them (45_external_interfaces R183). -/
theorem recordGuaranteed_mono {i : Instr} {new' : List PortEvent} {r : KRecord} (hsub : new ⊆ new')
    (h : recordGuaranteed s i new r) : recordGuaranteed s i new' r := by
  cases r with
  | subLuma =>
    obtain ⟨c, a, b, pidx, psize, hi, hmem, hclass, hside, ha, hb⟩ := h
    exact ⟨c, a, b, pidx, psize, hi, hmem, hclass, hside, hsub ha, hsub hb⟩
  | subChroma =>
    obtain ⟨c, a, b, pidx, psize, p, hi, hp, hmem, hclass, hcsp, hside, ha, hb⟩ := h
    exact ⟨c, a, b, pidx, psize, p, hi, hp, hmem, hclass, hcsp, hside, hsub ha, hsub hb⟩
  | add => exact h
  | copy =>
    obtain ⟨c, pb, pidx, psize, p, hi, hside, hq⟩ := h
    exact ⟨c, pb, pidx, psize, p, hi, hside, hsub hq⟩

end

/-! ### The records a command sends -/

/-- The port requests from `u` to `v`: every kernel record among them is as the guarantees for command `i`, begun in
`s`, ask. -/
def SendsGuaranteed (s : State) (i : Instr) (u v : State) : Prop :=
  ∃ new, v.trace = u.trace ++ new ∧ ∀ r, .kinvoke r ∈ new → recordGuaranteed s i new r

namespace SendsGuaranteed

variable {s u v : State} {i : Instr}

/-- No request. -/
theorem of_eq (htrace : v.trace = u.trace) : SendsGuaranteed s i u v :=
  ⟨[], by simp [htrace], by simp⟩

/-- Requests in sequence. -/
theorem trans {x : State} (h : SendsGuaranteed s i u v) (k : SendsGuaranteed s i v x) : SendsGuaranteed s i u x := by
  obtain ⟨es, htrace, hes⟩ := h
  obtain ⟨fs, htrace', hfs⟩ := k
  refine ⟨es ++ fs, by rw [htrace', htrace, List.append_assoc], fun r hr => ?_⟩
  rcases List.mem_append.mp hr with hr | hr
  · exact recordGuaranteed_mono (List.subset_append_left _ _) (hes r hr)
  · exact recordGuaranteed_mono (List.subset_append_right _ _) (hfs r hr)

/-- An Alloc sends no record. -/
theorem alloc {n : Nat} {o : Option Addr} (h : u.alloc n = (o, v)) : SendsGuaranteed s i u v :=
  ⟨_, (State.alloc_trace_live h).1, by simp⟩

/-- Nor does a Free. -/
theorem free (b : Addr) (n : Nat) : SendsGuaranteed s i u (u.free b n) :=
  ⟨_, u.free_trace b n, by simp⟩

/-- Nor does the release of what a context holds. -/
theorem release (c : Id) : SendsGuaranteed s i u (if (u.ctx c).ready then u.release c else u) := by
  split
  · exact (((free _ _).trans (free _ _)).trans (free _ _)).trans (of_eq rfl)
  · exact of_eq rfl

/-- Nor do CREATE's three requests. -/
theorem threeRequests {nY nC : Nat} {r : Option Bases × State} (h : ThreeRequests u nY nC r) :
    SendsGuaranteed s i u r.2 := by
  cases h with
  | firstFails _ h1 => exact alloc h1
  | secondFails _ _ _ h1 h2 => exact ((alloc h1).trans (alloc h2)).trans (free _ _)
  | thirdFails _ _ _ _ _ h1 h2 h3 =>
    exact ((((alloc h1).trans (alloc h2)).trans (alloc h3)).trans (free _ _)).trans (free _ _)
  | granted _ _ _ _ _ _ h1 h2 h3 => exact ((alloc h1).trans (alloc h2)).trans (alloc h3)

/-- Nor does CREATE. -/
theorem createWith (c csp : Id) (row : CspRow) (w h : Dim) : SendsGuaranteed s i u (u.createWith c csp row w h) := by
  refine (release c).trans ?_
  generalize hs0 : (if (u.ctx c).ready then u.release c else u) = s0
  have hthree := threeRequests (s := s) (i := i) (s0.allocThree_cases (w.toNat * h.toNat)
    ((chromaWidth row w).toNat * (chromaHeight row h).toNat))
  rcases hreq : s0.allocThree (w.toNat * h.toNat) ((chromaWidth row w).toNat * (chromaHeight row h).toNat)
    with ⟨_ | b, s1⟩ <;> rw [hreq] at hthree
  · rw [State.createWith_of_failed hs0.symm hreq]
    exact hthree.trans (of_eq rfl)
  · rw [State.createWith_of_granted hs0.symm hreq]
    exact hthree.trans (of_eq rfl)

/-- Phases that each send guaranteed records, from any state with the parameters and descriptors of the first. -/
theorem runPhases {phase : Plane → State → Except Fault State} {ps : List Plane} {t : State}
    (hrun : Machine.runPhases phase ps s = .ok t)
    (hphase : ∀ p ∈ ps, ∀ u v, SameQueries s u → phase p u = .ok v → SameQueries u v ∧ SendsGuaranteed s i u v) :
    SendsGuaranteed s i s t.done := by
  obtain ⟨-, hsends⟩ := runPhases_ok (P := fun u => SameQueries s u ∧ SendsGuaranteed s i s u) hrun
    ⟨.refl s, of_eq rfl⟩ fun p hp u v ⟨hu, hsent⟩ hv => by
      obtain ⟨hkeep, hsend⟩ := hphase p hp u v hu hv
      exact ⟨hu.trans hkeep, hsent.trans hsend⟩
  exact hsends.trans (of_eq rfl)

end SendsGuaranteed

/-- Settles O47: CREATE and DESTROY send no record; each phase of the other commands sends one, with the guarantees of
its kind (`recordGuaranteed_subRecord`, `recordGuaranteed_addRecord`, `recordGuaranteed_copyRecord`). -/
theorem kernelRecordsAreGuaranteed : Obligations.KernelRecordsAreGuaranteed := by
  intro s t i hI hexec
  suffices SendsGuaranteed s i s t from this
  cases completes_of_exec hexec with
  | illegal | rejected | rdctx | addr => exact .of_eq rfl
  | clear => exact .of_eq (by simp)
  | create c csp w h row => exact .createWith c csp row w h
  | destroy c => exact (SendsGuaranteed.release c).trans (.of_eq rfl)
  | sub c a b pidx psize u hz hr hb hrun =>
    refine .runPhases hrun fun p hp v v' hv hphase => ⟨.subPhase hphase, ?_⟩
    obtain ⟨dA, dB, hA, hB, -, -⟩ := subPhase_ok hphase
    refine ⟨_, subPhase_trace hA hB hphase, fun r hr' => ?_⟩
    obtain rfl : r = _ := by simpa using hr'
    rw [hv.cfg]
    exact recordGuaranteed_subRecord hI hr hz hp (State.boundsOk_iff.mp hb p hp) (by simp) (by simp)
  | addclip c a b pidx psize u hr hb hrun =>
    refine .runPhases hrun fun p hp v v' hv hphase => ⟨?_, ?_⟩
    · rw [addPhase_eq] at hphase
      cases hphase
      exact ⟨rfl, rfl⟩
    refine ⟨_, kinvoke_trace hphase, fun r hr' => ?_⟩
    obtain rfl : r = _ := by simpa using hr'
    rw [hv.cfg]
    exact recordGuaranteed_addRecord hI hr hp fun k hk => State.boundsOk_iff.mp (hb k hk) p hp
  | toResidual _ _ _ _ _ _ _ _ u _ _ _ hrun =>
    obtain ⟨m, rfl⟩ := copyRR_phases_frame hrun
    exact .of_eq rfl
  | toPixel _ planes c a pidx psize w h u hi hr hb hrun =>
    have hoperands : copyOperands i = some (c, a, pidx, psize) := by
      rcases hi with hi | ⟨cid, hi⟩ | hi <;> cases hi <;> rfl
    refine .runPhases hrun fun p hp v v' hv hphase => ⟨.copyRP hphase, ?_⟩
    obtain ⟨d, hd, hholds⟩ := copyRP_ok hphase
    rw [copyRP_eq hd hholds] at hphase
    cases hphase
    refine ⟨_, rfl, fun r hr' => ?_⟩
    obtain rfl : r = _ := by simpa using hr'
    rw [hv.cfg]
    exact recordGuaranteed_copyRecord hI hoperands hr hp (State.boundsOk_iff.mp hb p hp) (by simp)

end Sys2Proof.Machine
end

section
/-! The error responses (spec/60_exceptions.md): which one a command reports, in the order of R205 (R203, R204), and
that three of the four leave everything else as it was (R206). -/

open Sys2Proof.Claims

namespace Sys2Proof.Machine

/-! ### Responses and their statuses -/

/-- The status of a response can be read back, so responses of different statuses differ (30_encoding R73). -/
theorem status_eq_of_packResponse_eq {st st' : BitVec 4} {v v' : BitVec 32} {x x' : BitVec 16}
    (h : packResponse st v x = packResponse st' v' x') : st = st' := by
  simpa only [responseStatus_packResponse] using congrArg responseStatus h

/-- The four errors have four codes (60_exceptions R200). -/
theorem CmdError.code_injective : Function.Injective CmdError.code := by
  intro e e'
  cases e <;> cases e' <;> decide

/-- And none of them is that of OK. -/
theorem CmdError.code_ne_statusOk (e : CmdError) : e.code ≠ statusOk := by
  cases e <;> decide

/-- A state that presents two errors' responses presents one error. -/
theorem error_eq_of_respPort {t : State} {e e' : CmdError} {v v' : BitVec 32} {x x' : BitVec 16}
    (h : t.respPort = some (packResponse e.code v x)) (h' : t.respPort = some (packResponse e'.code v' x')) : e = e' :=
  CmdError.code_injective (status_eq_of_packResponse_eq (Option.some.inj (h.symm.trans h')))

/-! ### The verdict on a command -/

/-- The bounds check of command `i` fails: that of a plane of its active plan for one of its contexts
(41_addressing R130), or ADDR's point check (R133). -/
def CheckFails (s : State) (i : Instr) : Prop :=
  match i with
  | .addr c p pidx psize =>
    ¬ ((s.ctx c).row s.cfg p pidx psize < ((s.ctx c).ph p).toNat ∧
      (s.ctx c).col s.cfg p pidx psize < ((s.ctx c).pw p).toNat)
  | .sub c _ _ pidx psize => s.boundsOk (s.ctx c) (s.ctx c) allPlanes pidx psize psize psize = false
  | .addclip c a b pidx psize =>
    ∃ k ∈ [c, a, b], s.boundsOk (s.ctx k) (s.ctx c) allPlanes pidx psize psize psize = false
  | .cpyrl c a pidx psize w h => ∃ k ∈ [c, a], s.boundsOk (s.ctx k) (s.ctx c) [.y] pidx psize w h = false
  | .cpyrc c a cid pidx psize w h =>
    ∃ k ∈ [c, a], s.boundsOk (s.ctx k) (s.ctx c) (channels cid) pidx psize w h = false
  | .cpyra c a pidx psize w h => ∃ k ∈ [c, a], s.boundsOk (s.ctx k) (s.ctx c) allPlanes pidx psize w h = false
  | .cpypl c _ pidx psize w h => s.boundsOk (s.ctx c) (s.ctx c) [.y] pidx psize w h = false
  | .cpypc c _ cid pidx psize w h => s.boundsOk (s.ctx c) (s.ctx c) (channels cid) pidx psize w h = false
  | .cpypa c _ pidx psize w h => s.boundsOk (s.ctx c) (s.ctx c) allPlanes pidx psize w h = false
  | .create .. | .destroy _ | .clear _ | .rdctx .. => False

/-- What a command whose checks passed can report: OK, or a CREATE's AllocationError. -/
def ReportsOkOrAllocation (i : Instr) (t : State) : Prop :=
  (∃ v x, t.respPort = some (packResponse statusOk v x)) ∨
    (t.respPort = some (errorResponse .allocation) ∧ ∃ c csp w h, i = .create c csp w h)

/-- The four ways exec can end, in the order of its checks (60_exceptions R205): the first that fails is answered at
once, and only a command that passed them all has an effect. -/
inductive Verdict (s : State) (i : Instr) : Result → Prop
  /-- IllegalCommand (R201). -/
  | illegal (hwf : i.wf s.cfg = false) : Verdict s i (.next (s.respond CmdError.illegalCommand.code 0 0))
  /-- InvalidStateError (R203). -/
  | notReady (hwf : i.wf s.cfg = true) (hr : ∃ c ∈ needsReady i, (s.ctx c).ready = false) :
      Verdict s i (.next (s.respond CmdError.invalidState.code 0 0))
  /-- DimensionMismatchError (R204). -/
  | outOfBounds (hwf : i.wf s.cfg = true) (hr : ∀ c ∈ needsReady i, (s.ctx c).ready = true) (hb : CheckFails s i) :
      Verdict s i (.next (s.respond CmdError.dimensionMismatch.code 0 0))
  /-- The effects, which may also end in a fault. -/
  | passed (hwf : i.wf s.cfg = true) (hr : ∀ c ∈ needsReady i, (s.ctx c).ready = true) (hb : ¬ CheckFails s i)
      (r : Result) (hans : ∀ t, r = .next t → ReportsOkOrAllocation i t) : Verdict s i r

section

variable {s : State} {i : Instr}

/-- A completed run of phases reports OK. -/
theorem reportsOk_of_finish {r : Except Fault State} {t : State} (h : finish r = .next t) :
    ReportsOkOrAllocation i t := by
  obtain ⟨u, -, rfl⟩ := finish_next.mp h
  exact .inl ⟨0, 0, rfl⟩

/-- CREATE reports OK or AllocationError (40_lifecycle R103, R104). -/
theorem reports_createWith (c csp : Id) (row : CspRow) (w h : Dim) :
    ReportsOkOrAllocation (.create c csp w h) (s.createWith c csp row w h) := by
  obtain ⟨u, X, r, hcreate, -, ⟨rfl, -⟩ | ⟨rfl, -⟩⟩ := createWith_cases s c csp row w h
  · exact .inl ⟨0, 0, hcreate ▸ congrArg some okResponse_eq.symm⟩
  · exact .inr ⟨hcreate ▸ congrArg some (by decide), c, csp, w, h, rfl⟩

/-- The legality check comes first (60_exceptions R201). -/
theorem verdict_whenLegal {k : Result} (hk : i.wf s.cfg = true → Verdict s i k) : Verdict s i (whenLegal i s k) := by
  cases hwf : i.wf s.cfg with
  | false =>
    rw [(whenLegal_eq i s k).2 hwf]
    exact .illegal hwf
  | true =>
    rw [(whenLegal_eq i s k).1 hwf]
    exact hk hwf

/-- The shape the meanings share: the state check, the bounds check, the effects. -/
theorem verdict_of_checks (hwf : i.wf s.cfg = true) {ready fits : Bool} {effects : Result}
    (hready : ready = true ↔ ∀ c ∈ needsReady i, (s.ctx c).ready = true) (hfits : fits = false ↔ CheckFails s i)
    (hans : ∀ t, effects = .next t → ReportsOkOrAllocation i t) :
    Verdict s i (if ready then if fits then effects else raise .dimensionMismatch s else raise .invalidState s) := by
  cases ready with
  | false =>
    refine .notReady hwf ?_
    simpa using mt hready.mpr Bool.false_ne_true
  | true =>
    cases fits with
    | false => exact .outOfBounds hwf (hready.mp rfl) (hfits.mp rfl)
    | true => exact .passed hwf (hready.mp rfl) (fun hb => Bool.noConfusion (hfits.mpr hb)) _ hans

/-- A residual-to-residual copy checks its two contexts (44_copy R162). -/
theorem verdict_copyToResidual {planes : List Plane} {c a : Id} {pidx psize w h : Dim} (hwf : i.wf s.cfg = true)
    (hneeds : needsReady i = [c, a])
    (hfails : CheckFails s i ↔ ∃ k ∈ [c, a], s.boundsOk (s.ctx k) (s.ctx c) planes pidx psize w h = false) :
    Verdict s i (copyToResidual planes c a pidx psize w h s) := by
  refine verdict_of_checks hwf ?_ ?_ fun t => reportsOk_of_finish
  · simp [hneeds]
  · simp only [all_and2, boundsOk_eq, Bool.and_eq_false_iff, hfails]
    simp

/-- A residual-to-pixel copy checks its one context (44_copy R162). -/
theorem verdict_copyToPixel {planes : List Plane} {c a : Id} {pidx psize w h : Dim} (hwf : i.wf s.cfg = true)
    (hneeds : needsReady i = [c])
    (hfails : CheckFails s i ↔ s.boundsOk (s.ctx c) (s.ctx c) planes pidx psize w h = false) :
    Verdict s i (copyToPixel planes c a pidx psize w h s) := by
  refine verdict_of_checks hwf ?_ hfails.symm fun t => reportsOk_of_finish
  simp [hneeds]

end

/-- Every command in every state has its verdict. -/
theorem exec_verdict (s : State) (i : Instr) : Verdict s i (exec i s) := by
  cases i with
  | create c csp w h =>
    refine verdict_whenLegal fun hwf => .passed hwf (by simp [needsReady]) id _ fun t ht => ?_
    split at ht
    · cases ht
      exact reports_createWith c csp _ w h
    · next hnone => simp [Instr.wf, cspDefined, hnone] at hwf
  | destroy | rdctx =>
    refine verdict_whenLegal fun hwf => .passed hwf (by simp [needsReady]) id _ fun t ht => ?_
    cases ht
    exact .inl ⟨_, _, rfl⟩
  | clear c =>
    refine verdict_whenLegal fun hwf => verdict_of_checks (fits := true) hwf (by simp [needsReady])
      (by simp [CheckFails]) fun t ht => ?_
    cases ht
    exact .inl ⟨_, _, rfl⟩
  | addr c p pidx psize =>
    refine verdict_whenLegal fun hwf => verdict_of_checks hwf (by simp [needsReady]) ?_ fun t ht => ?_
    · rw [← Bool.not_eq_true, Context.hasPoint_iff]
      rfl
    · cases ht
      exact .inl ⟨_, _, rfl⟩
  | sub c a b pidx psize =>
    exact verdict_whenLegal fun hwf => verdict_of_checks hwf (by simp [needsReady]) Iff.rfl fun t =>
      reportsOk_of_finish
  | addclip c a b pidx psize =>
    refine verdict_whenLegal fun hwf => verdict_of_checks hwf (by simp [needsReady, and_assoc]) ?_ fun t =>
      reportsOk_of_finish
    simp only [all_and3, boundsOk_eq, Bool.and_eq_false_iff]
    simp [CheckFails, or_assoc]
  | cpyrl | cpyrc | cpyra => exact verdict_whenLegal fun hwf => verdict_copyToResidual hwf rfl Iff.rfl
  | cpypl | cpypc | cpypa => exact verdict_whenLegal fun hwf => verdict_copyToPixel hwf rfl Iff.rfl

/-! ### What each error means -/

/-- Why a command reports an error (60_exceptions R201 to R204). -/
def ErrorCause (s : State) (i : Instr) : CmdError → Prop
  | .illegalCommand => i.wf s.cfg = false
  | .invalidState => ∃ c ∈ needsReady i, (s.ctx c).ready = false
  | .dimensionMismatch => CheckFails s i
  | .allocation => ∃ c csp w h, i = .create c csp w h

namespace Verdict

variable {s t : State} {i : Instr} {e : CmdError} {r : Result}

/-- A legal command with a context that is not Ready is InvalidStateError, whatever else is wrong with it
(60_exceptions R203, R205). -/
theorem eq_of_notReady (h : Verdict s i r) (hwf : i.wf s.cfg = true)
    (hr : ∃ c ∈ needsReady i, (s.ctx c).ready = false) : r = .next (s.respond CmdError.invalidState.code 0 0) := by
  have hnot : ¬ ∀ c ∈ needsReady i, (s.ctx c).ready = true := by simpa using hr
  cases h with
  | illegal hill => exact absurd hwf (Bool.eq_false_iff.mp hill)
  | notReady => rfl
  | outOfBounds _ hall => exact absurd hall hnot
  | passed _ hall => exact absurd hall hnot

/-- A legal command of Ready contexts with a failed bounds check is DimensionMismatchError (60_exceptions R204). -/
theorem eq_of_checkFails (h : Verdict s i r) (hwf : i.wf s.cfg = true)
    (hr : ∀ c ∈ needsReady i, (s.ctx c).ready = true) (hb : CheckFails s i) :
    r = .next (s.respond CmdError.dimensionMismatch.code 0 0) := by
  cases h with
  | illegal hill => exact absurd hwf (Bool.eq_false_iff.mp hill)
  | notReady _ hnot => exact absurd hr (by simpa using hnot)
  | outOfBounds => rfl
  | passed _ _ hgood => exact absurd hb hgood

/-- A command that reports an error has the error's cause, and but for AllocationError the response is all that
changed (60_exceptions R206). -/
theorem errorCause (h : Verdict s i (.next t)) (herr : t.respPort = some (packResponse e.code 0 0)) :
    ErrorCause s i e ∧ (e ≠ .allocation → t = s.respond e.code 0 0) := by
  cases h with
  | illegal hwf =>
    obtain rfl := error_eq_of_respPort rfl herr
    exact ⟨hwf, fun _ => rfl⟩
  | notReady _ hr =>
    obtain rfl := error_eq_of_respPort rfl herr
    exact ⟨hr, fun _ => rfl⟩
  | outOfBounds _ _ hb =>
    obtain rfl := error_eq_of_respPort rfl herr
    exact ⟨hb, fun _ => rfl⟩
  | passed _ _ _ _ hans =>
    rcases hans t rfl with ⟨v, x, hok⟩ | ⟨halloc, hcreate⟩
    · exact absurd (status_eq_of_packResponse_eq (Option.some.inj (herr.symm.trans hok))) e.code_ne_statusOk
    · obtain rfl := error_eq_of_respPort halloc herr
      exact ⟨hcreate, absurd rfl⟩

end Verdict

/-- The verdict on an answer of exec. -/
theorem verdict_of_exec {s t : State} {i : Instr} (hexec : exec i s = .next t) : Verdict s i (.next t) :=
  hexec ▸ exec_verdict s i

/-- Settles O35: the state check comes first for a legal command (`Verdict.eq_of_notReady`), and nothing else has its
answer (`Verdict.errorCause`). -/
theorem useBeforeCreateIsInvalidState : Obligations.UseBeforeCreateIsInvalidState :=
  fun s i hwf => ⟨(exec_verdict s i).eq_of_notReady hwf, fun _ hexec herr =>
    ((verdict_of_exec hexec).errorCause (e := .invalidState) herr).1⟩

/-- Settles O36: the bounds check comes next (`Verdict.eq_of_checkFails`), and nothing else has its answer
(`Verdict.errorCause`); the statement's `bad` is `CheckFails`. -/
theorem boundsFailureIsDimensionMismatch : Obligations.BoundsFailureIsDimensionMismatch :=
  fun s i hwf hr => ⟨(exec_verdict s i).eq_of_checkFails hwf hr, fun _ hexec herr =>
    ((verdict_of_exec hexec).errorCause (e := .dimensionMismatch) herr).1⟩

/-- Settles O37: the verdict on the answer (`Verdict.errorCause`), where AllocationError is a CREATE's. -/
theorem errorsArePrecise : Obligations.ErrorsArePrecise := by
  intro s t i e hexec herr
  obtain ⟨hcause, hframe⟩ := (verdict_of_exec hexec).errorCause herr
  refine ⟨hframe, ?_⟩
  rintro rfl
  exact hcause

end Sys2Proof.Machine
end

section
/-! Reset between commands (spec/70_reset_and_hazards.md): what the host's reset move clears (R220) and what it leaves,
the allocator's port among it (R221). -/

namespace Sys2Proof.Machine

/-- A step with the reset move first resets the unit and takes the move. -/
theorem step_of_reset {s : State} {rest : List HostMove} (h : s.inputs = .reset :: rest) :
    step s = .next { s.resetUnit with inputs := rest } := by
  rw [step_of_inputs h, runMove]

/-- After a reset nothing is known of any residual cell (70_reset_and_hazards R220). -/
@[simp] theorem State.resetUnit_rmem_read? (s : State) (a : Nat) : s.resetUnit.rmem.read? a = none := rfl

/-- Nor of any pixel cell (70_reset_and_hazards R220). -/
@[simp] theorem State.resetUnit_pmem_read? (s : State) (a : Nat) : s.resetUnit.pmem.read? a = none := rfl

/-- What a reset of the unit leaves alone: the trace, so that no `Free` is issued (70_reset_and_hazards R221), the
allocator's script, and what belongs to the host (log entry 17). -/
theorem State.resetUnit_frame (s : State) :
    s.resetUnit.trace = s.trace ∧ s.resetUnit.allocScript = s.allocScript ∧ s.resetUnit.responses = s.responses ∧
      s.resetUnit.pbufs = s.pbufs ∧ s.resetUnit.cfg = s.cfg :=
  ⟨rfl, rfl, rfl, rfl, rfl⟩

/-- Settles O50: the move is the unit's reset (`step_of_reset`), which clears the contexts (`State.resetUnit_ctx`) and
both memories, and leaves the rest (`State.resetUnit_frame`). -/
theorem resetMoveUninitializesTheUnit : Obligations.ResetMoveUninitializesTheUnit := by
  intro s rest hreset
  obtain ⟨htrace, hscript, hresponses, hpbufs, hcfg⟩ := s.resetUnit_frame
  refine ⟨_, step_of_reset hreset, s.resetUnit_ctx, ?respPort, ?arrived, ?live, s.resetUnit_rmem_read?,
    s.resetUnit_pmem_read?, htrace, hresponses, hpbufs, hcfg, ?inputs, hscript⟩
  case respPort | arrived | live | inputs => rfl

end Sys2Proof.Machine
end
